-- ==== Sys2Proof/Word.lean ====
section
/-! DEFINITION. The words of the block (rule R6) and the records its tables hold (rules R36, R39, R40),
and the abstract tree of rule R9. -/

namespace Sys2Proof

/-- Eight bits, bit 7 the most significant (rule R6). -/
abbrev Byte := BitVec 8

/-- A register, counter or frequency: W = 32 bits (rules R5, R6). -/
abbrev Word := BitVec 32

/-- A node or trie index: 9 bits (rules R36, R38, R40). -/
abbrev Index := BitVec 9

/-- One entry of the arena NODE (rule R36). -/
structure NodeEntry where
  leaf  : Bool
  sym   : Byte
  left  : Index
  right : Index
  freq  : Word
  deriving DecidableEq, Repr, Inhabited

/-- One entry of TRIE (rule R40). -/
structure TrieEntry where
  leaf : Bool
  sym  : Byte
  c0   : Index
  c1   : Index
  deriving DecidableEq, Repr, Inhabited

/-- One entry of CODE (rule R39): `bits` is the bitcode, first bit the edge leaving the root; the
field `len` of the rule is the length of `bits` (log 14). -/
structure CodeEntry where
  valid : Bool
  bits  : List Bool
  deriving DecidableEq, Repr, Inhabited

/-- The abstract tree of rule R9: a leaf holds one symbol, an internal node has exactly two children. -/
inductive HuffTree where
  | leaf (sym : Byte)
  | node (left right : HuffTree)
  deriving DecidableEq, Repr, Inhabited

end Sys2Proof
end

