-- ==== Sys2Proof/Config.lean ====
section
/-! DEFINITION. What an instance fixes (rule R5): the fixed parameters, the two open capacities, and the
free values: constants without a body, one per thing the spec leaves unspecified
(93_implementation_defined.md U2 to U6). Nothing can be proved of what a free value is. -/

namespace Sys2Proof

/-- SYMS, the alphabet size (rule R5). -/
abbrev Config.symCount : Nat := 256
/-- NODE_MAX, the capacity of the arena and of the trie (rule R5). -/
abbrev Config.nodeMax : Nat := 511
/-- HEAP_MAX, the capacity of the priority queue (rule R5). -/
abbrev Config.heapMax : Nat := 256
/-- CODE_MAX, the longest bitcode in bits (rule R5). -/
abbrev Config.codeMax : Nat := 255
/-- MARK_LEAF (rules R5, R97). -/
abbrev Config.markLeaf : Byte := 0x31#8
/-- MARK_INT (rules R5, R97). -/
abbrev Config.markInt : Byte := 0x30#8
/-- NULL, the "no node" value of an index (rule R5). -/
abbrev Config.null : Index := 0x1FF#9

/-- The two OPEN parameters of an instance (rule R5). They are constants of the instance, not state (rule
R44); `State` carries them so that one `step` serves every instance, and no step changes them (log 1). -/
structure Config where
  ibufCap : Nat
  obufCap : Nat
  deriving DecidableEq, Repr

/-- The instance of the test vectors (95_test_vectors.md section 0); `State.reset` is this instance's
reset state. DESIGN CHOICE (log 1). -/
def Config.default64 : Config := { ibufCap := 64, obufCap := 64 }

/-- Free value: the byte of IBUF at an address nothing has written (U3; log 3). -/
opaque Config.freeIbufByte : (seed addr : Nat) → Byte
/-- Free value: the byte of OBUF at an address nothing has written (U3, U4; log 4). -/
opaque Config.freeObufByte : (seed addr : Nat) → Byte
/-- Free value: what one host read of OBUF at an index at or beyond OLEN returns (U4; log 4). -/
opaque Config.freeObufRead : (draw : Nat) → Byte
/-- Free value: what one read of the observation port returns where rule R47 leaves it open (U6; log 9). -/
opaque Config.freePortWord : (draw : Nat) → Word
/-- Free value: an entry of FREQ that nothing has written (U2; log 5). -/
opaque Config.freeFreq : (seed index : Nat) → Word
/-- Free value: an entry of CODE that nothing has written (U2; log 5). -/
opaque Config.freeCode : (seed index : Nat) → CodeEntry
/-- Free value: an entry of TRIE that nothing has written (U2; log 5). -/
opaque Config.freeTrie : (seed index : Nat) → TrieEntry
/-- Free value: NNODE after a faulting BUILD or TDES, within the range of rule R31 (U5; log 6). -/
opaque Config.freeNnode : (draw : Nat) → Fin 512
/-- Free value: ROOT after a faulting BUILD or TDES, within the range of rule R30 (U5; log 6). -/
opaque Config.freeRoot : (draw : Nat) → Fin 511
/-- Free value: HSIZE after a faulting BUILD or TDES, within the range of rule R38 (U5; log 6). -/
opaque Config.freeHsize : (draw : Nat) → Fin 257

end Sys2Proof
end

