-- ==== Sys2Proof/Syntax.lean ====
section
/-! DEFINITION. The commands (rule R92, one constructor per row of spec/opcode_table.json), the host's
accesses (rules R8, R10; D1) and the lines of a host script (rules R108, R109). -/

namespace Sys2Proof

/-- The thirteen commands of rule R92. A command word has no operand field (rules R91, R94), so no
constructor has an argument. -/
inductive Instr where
  /-- 0x00000001, rule R120 -/
  | fcnt
  /-- 0x00000002, rule R130 -/
  | build
  /-- 0x00000003, rule R150 -/
  | derive
  /-- 0x00000004, rule R165 -/
  | tser
  /-- 0x00000005, rule R205 -/
  | wcnt
  /-- 0x00000006, rule R185 -/
  | pack
  /-- 0x00000007, rule R169 -/
  | tdes
  /-- 0x00000008, rule R206 -/
  | rcnt
  /-- 0x00000009, rule R190 -/
  | unpack
  /-- 0x00000010, rule R208 -/
  | compress
  /-- 0x00000011, rule R210 -/
  | decompress
  /-- 0x0000001E, rule R229 -/
  | clrerr
  /-- 0x0000001F, rule R230 -/
  | srst
  deriving DecidableEq, Repr

/-- One access of the host to the block (D1). -/
inductive HostMove where
  /-- `HostWriteReg(n, v)`: register 0 is CMD, whose write presents `v` as a command (rules R21, R32). -/
  | writeReg (n : Nat) (v : Word)
  /-- `HostReadReg(n)` (rule R32). -/
  | readReg (n : Nat)
  /-- `HostWriteIBUF(a, b)` (rule R41). -/
  | writeIbuf (a : Nat) (b : Byte)
  /-- `HostReadIBUF(a)` (rule R41). -/
  | readIbuf (a : Nat)
  /-- `HostReadOBUF(a)` (rule R42). -/
  | readObuf (a : Nat)
  /-- `HostReadTable(table, index, word)` (rule R47). -/
  | readTable (table index word : Nat)
  /-- The reset input (rule R265). -/
  | hwReset
  deriving DecidableEq, Repr

/-- The named fields of STATUS (rule R22). -/
inductive StatusField where
  | busy | done | err | vFreq | vTree | vCode | vCount
  deriving DecidableEq, Repr

/-- What an EXPECT line checks (rule R109). -/
inductive Expect where
  | reg (n : Nat) (v : Word)
  | status (f : StatusField) (v : Bool)
  | errCode (v : Nat)
  | errSub (v : Nat)
  /-- OBUF[0 .. OLEN-1] -/
  | obuf (bytes : List Byte)
  /-- one word of a table entry, as `HostReadTable` returns it: rule R109 says 'a table entry' and not how an
  entry's value is written or compared (DESIGN CHOICE, log 13); a whole entry takes one line a word -/
  | table (table index word : Nat) (v : Word)
  deriving DecidableEq, Repr

/-- One line of a host script (rules R108, R109), or one bare access. -/
inductive ScriptLine where
  | access (m : HostMove)
  /-- a command mnemonic: `HostWriteReg(CMD, word)` with that command's word -/
  | command (i : Instr)
  | raw (w : Word)
  | load (bytes : List Byte)
  | setLen (n : Word)
  | setPos (n : Word)
  | oclr
  | move
  | expect (e : Expect)
  | hwReset
  deriving DecidableEq, Repr

end Sys2Proof
end

