-- ==== Sys2Proof/WellFormed.lean ====
section
/-! DEFINITION. What makes an instance, a host access and a script line meaningful. A command has no
operand, so every command is well formed (rules R90, R91). -/

namespace Sys2Proof

/-- Rule R91: a command word carries no register number, no immediate and no mode bit: nothing to check. -/
def Instr.wf : Instr → Bool
  | .fcnt | .build | .derive | .tser | .wcnt | .pack | .tdes | .rcnt | .unpack => true
  | .compress | .decompress => true
  | .clrerr | .srst => true

/-- Rule R5: both capacities lie in 1 .. 2^32 - 1. -/
def Config.wf (c : Config) : Bool :=
  decide (1 ≤ c.ibufCap ∧ c.ibufCap ≤ 2 ^ 32 - 1 ∧ 1 ≤ c.obufCap ∧ c.obufCap ≤ 2 ^ 32 - 1)

/-- An access names a byte the instance has (rules R41, R42, R60). Every register number and every
(table, index, word) is legal: unassigned ones read 0 and ignore writes (rules R32, R47). -/
def HostMove.wf (c : Config) : HostMove → Bool
  | .writeReg _ _ => true
  | .readReg _ => true
  | .writeIbuf a _ => decide (a < c.ibufCap)
  | .readIbuf a => decide (a < c.ibufCap)
  | .readObuf a => decide (a < c.obufCap)
  | .readTable _ _ _ => true
  | .hwReset => true

/-- A line is well formed when its accesses are: LOAD's bytes fit IBUF (rule R109). MOVE's condition
OLEN ≤ IBUF_CAP is on the state, not on the line. -/
def ScriptLine.wf (c : Config) : ScriptLine → Bool
  | .access m => m.wf c
  | .command i => i.wf
  | .raw _ => true
  | .load bytes => decide (bytes.length ≤ c.ibufCap)
  | .setLen _ => true
  | .setPos _ => true
  | .oclr => true
  | .move => true
  | .expect _ => true
  | .hwReset => true

end Sys2Proof
end

