-- ==== Sys2Proof/Decode.lean ====
section
/-! DEFINITION. Decoding and encoding of command words (rules R90 to R93). A word is one whole 32-bit
number: it is written to CMD as such, so no byte order is involved (rules R63, R90). -/

namespace Sys2Proof

/-- Why a word is no command (rule R93). Both raise IllegalCommand (rule R246). -/
inductive DecodeError where
  /-- a bit of the `zero` field 31:8 is set (rule R91) -/
  | nonzeroHighBits (w : Word)
  /-- the opcode byte is assigned to no command (rule R92) -/
  | unassignedOpcode (w : Word)
  deriving DecidableEq, Repr

/-- The `opcode` field, bits 7:0 (rule R91). -/
def opcodeField (w : Word) : Byte := w.extractLsb' 0 8

/-- The `zero` field, bits 31:8 (rule R91). -/
def zeroField (w : Word) : BitVec 24 := w.extractLsb' 8 24

/-- The command an opcode byte selects (rule R92). -/
def opcodeInstr (op : Nat) : Option Instr :=
  match op with
  | 0x01 => some .fcnt
  | 0x02 => some .build
  | 0x03 => some .derive
  | 0x04 => some .tser
  | 0x05 => some .wcnt
  | 0x06 => some .pack
  | 0x07 => some .tdes
  | 0x08 => some .rcnt
  | 0x09 => some .unpack
  | 0x10 => some .compress
  | 0x11 => some .decompress
  | 0x1E => some .clrerr
  | 0x1F => some .srst
  | _ => none

/-- The decoder: total, and a word that is no command is rejected by name (rules R91 to R93). -/
def decode (w : Word) : Except DecodeError Instr :=
  if zeroField w = 0#24 then
    match opcodeInstr (opcodeField w).toNat with
    | some i => .ok i
    | none => .error (.unassignedOpcode w)
  else .error (.nonzeroHighBits w)

/-- The opcode byte of a command (rule R92). -/
def Instr.opcode : Instr → Byte
  | .fcnt => 0x01#8
  | .build => 0x02#8
  | .derive => 0x03#8
  | .tser => 0x04#8
  | .wcnt => 0x05#8
  | .pack => 0x06#8
  | .tdes => 0x07#8
  | .rcnt => 0x08#8
  | .unpack => 0x09#8
  | .compress => 0x10#8
  | .decompress => 0x11#8
  | .clrerr => 0x1E#8
  | .srst => 0x1F#8

/-- The word of a command: 24 zero bits above the opcode (rule R91). -/
def encode (i : Instr) : Word := 0#24 ++ i.opcode

/-- The command the decoder reads from the low `nbits` bits of `w` (the table's numbering: a command is
one word, so its bits are the word's own). A number that does not fit a 32-bit word is no command. -/
def decodeTableWord (nbits w : Nat) : Option Instr :=
  let v := w % 2 ^ nbits
  if v < 2 ^ 32 then
    match decode (BitVec.ofNat 32 v) with
    | .ok i => some i
    | .error _ => none
  else none

end Sys2Proof
end

