-- ==== Sys2Proof/Machine/State.lean ====
section
/-! DEFINITION. The state of the block (rules R20 to R45), the reasons the MODEL stops, the block's own
faults (rule R236) and the state after reset (rules R45, R266). -/

namespace Sys2Proof.Machine

/-- STATUS, register 1, by its named bits (rule R22). Bit 3 and bits 31:8 are reserved and read 0. -/
structure Status where
  /-- bit 0; constantly false, since a command is one atomic transition (rule R22, D2; log 7) -/
  busy   : Bool
  /-- bit 1 -/
  done   : Bool
  /-- bit 2 -/
  err    : Bool
  /-- bit 4 -/
  vFreq  : Bool
  /-- bit 5 -/
  vTree  : Bool
  /-- bit 6 -/
  vCode  : Bool
  /-- bit 7 -/
  vCount : Bool
  deriving DecidableEq, Repr

/-- A table or a buffer. `cells` lists what has been written, addresses strictly rising. An address that
is not listed is UNSPECIFIED (rule R45, U2 to U5): it holds no value in the list, and the operations
that must have one read a free value drawn under `seed` (logs 3, 4, 5). -/
structure Store (α : Type) where
  cells : List (Nat × α)
  seed  : Nat
  deriving DecidableEq, Repr

/-- A byte buffer: its cells are a list of `Host.Cell`. -/
abbrev Memory := Store Byte

/-- A store all of whose contents are unspecified. -/
def Store.blank {α : Type} (seed : Nat) : Store α := { cells := [], seed := seed }

/-- The faults of the BLOCK (rule R236). Raising one is a next state (`takeFault`), not a stop of the model. -/
inductive FaultKind where
  | emptyInput
  | badMarker
  | eosTree
  | eosCount
  | eosPayload
  | noMatch
  | treeTooLarge
  | illegalCommand
  | sequenceError
  | outputOverflow
  | noCode
  | lengthError
  deriving DecidableEq, Repr

/-- Why the MODEL stops. None of these is a fault of the block. -/
inductive Fault where
  /-- Raised by a host access to IBUF at an index at or above IBUF_CAP, a byte the instance does not have
  (rules R41, R60; log 8). Safe: nothing is claimed of what follows. -/
  | noSuchIbufByte (a : Nat)
  /-- Raised by a host read of OBUF at an index at or above OBUF_CAP, which rule R274 calls not possible
  (rules R42, R60), and by a script's EXPECT OBUF line while OLEN > OBUF_CAP, whose check reads such a byte
  (rule R109; log 8). Safe. -/
  | noSuchObufByte (a : Nat)
  /-- Raised by DERIVE and TSER (alone or in a composite) when V_TREE = 1 and NODE, ROOT denote no tree.
  Rule R37 says this cannot be; no run reaches such a state (log 11). Safe. -/
  | arenaDenotesNoTree
  /-- Raised by a script's EXPECT line that does not hold (rule R109; log 13). Safe. -/
  | expectationFailed
  deriving DecidableEq, Repr

/-- Why the model gives an instruction no meaning. -/
inductive Refusal where
  /-- Raised by `exec` for an instruction that is not modelled yet; no arm of this model does. Safe. -/
  | notModelled (mnemonic : String)
  deriving DecidableEq, Repr

/-- The whole state: rule R20's registers, tables and buffers, the instance's parameters, and the
model's own fields `fresh`, `rdata` and `script` (logs 1, 2, 10). CMD stores nothing (rule R21). -/
structure State where
  /-- the instance's capacities (rule R5); no step changes them (log 1) -/
  cfg    : Config
  /-- register 1 (rule R22) -/
  status : Status
  /-- register 2 (rule R23) -/
  err    : Word
  /-- register 3 (rule R24) -/
  errval : Word
  /-- register 4 (rule R25) -/
  ilen   : Word
  /-- register 5 (rule R26) -/
  ipos   : Word
  /-- register 6 (rule R27) -/
  olen   : Word
  /-- register 7 (rule R28) -/
  count  : Word
  /-- register 8 (rule R29) -/
  nsym   : Word
  /-- register 9 (rule R30) -/
  root   : Word
  /-- register 10 (rule R31) -/
  nnode  : Word
  /-- rule R35 -/
  freq   : Store Word
  /-- rule R36 -/
  node   : Store NodeEntry
  /-- rule R38, hidden -/
  heap   : Store Index
  /-- HSIZE (rule R38), hidden -/
  hsize  : Index
  /-- rule R39 -/
  code   : Store CodeEntry
  /-- rule R40 -/
  trie   : Store TrieEntry
  /-- rule R41 -/
  ibuf   : Memory
  /-- rule R42 -/
  obuf   : Memory
  /-- the model's own: how many free values have been drawn (log 10) -/
  fresh  : Nat
  /-- the model's own: what the last host read returned (log 10) -/
  rdata  : Word
  /-- the model's own: the host operations still to come (log 2) -/
  script : List ScriptLine
  deriving DecidableEq, Repr

/-- STATUS = 0 (rule R45). -/
def Status.zero : Status :=
  { busy := false, done := false, err := false,
    vFreq := false, vTree := false, vCode := false, vCount := false }

/-- The state of an instance after hardware reset (rules R45, R266): every register and HSIZE 0, every
table and buffer unspecified under `seed`, and no host operation pending. -/
def State.resetOf (c : Config) (seed : Nat) : State :=
  { cfg := c
    status := Status.zero
    err := 0#32
    errval := 0#32
    ilen := 0#32
    ipos := 0#32
    olen := 0#32
    count := 0#32
    nsym := 0#32
    root := 0#32
    nnode := 0#32
    freq := Store.blank seed
    node := Store.blank seed
    heap := Store.blank seed
    hsize := 0#9
    code := Store.blank seed
    trie := Store.blank seed
    ibuf := Store.blank seed
    obuf := Store.blank seed
    fresh := seed + 1
    rdata := 0#32
    script := [] }

/-- The machine right after reset: the instance of the spec's test vectors (log 1). -/
def State.reset : State := State.resetOf Config.default64 0

end Sys2Proof.Machine
end

