-- ==== Sys2Proof/Machine/Store.lean ====
section
/-! DEFINITION. Reading and writing tables and buffers (rules R8, R60): one pair of operations over a
sorted list of cells, and the canonical form that every write keeps. -/

namespace Sys2Proof.Machine

/-- The value listed at an address. -/
def lookupCell {α : Type} : List (Nat × α) → Nat → Option α
  | [], _ => none
  | (k, v) :: rest, i => if k = i then some v else lookupCell rest i

/-- Write one cell, keeping addresses strictly rising. -/
def setCell {α : Type} (i : Nat) (v : α) : List (Nat × α) → List (Nat × α)
  | [] => [(i, v)]
  | (k, w) :: rest =>
    if i < k then (i, v) :: (k, w) :: rest
    else if i = k then (i, v) :: rest
    else (k, w) :: setCell i v rest

/-- Every listed address is above `lo`, and addresses rise strictly. -/
def risingFrom {α : Type} (lo : Nat) : List (Nat × α) → Bool
  | [] => true
  | (k, _) :: rest => decide (lo ≤ k) && risingFrom (k + 1) rest

/-- The canonical form of a cell list: addresses strictly rising. -/
def rising {α : Type} (cells : List (Nat × α)) : Bool := risingFrom 0 cells

/-- Every listed address is below `n`. -/
def keysBelow {α : Type} (n : Nat) : List (Nat × α) → Bool
  | [] => true
  | (k, _) :: rest => decide (k < n) && keysBelow n rest

/-- The value listed at an address, if any. -/
def Store.get? {α : Type} (m : Store α) (i : Nat) : Option α := lookupCell m.cells i

/-- The value read at an address: the listed one, else the free value drawn under the store's seed. -/
def Store.read {α : Type} (free : Nat → Nat → α) (m : Store α) (i : Nat) : α :=
  match m.get? i with
  | some v => v
  | none => free m.seed i

/-- Write one entry. -/
def Store.set {α : Type} (m : Store α) (i : Nat) (v : α) : Store α :=
  { m with cells := setCell i v m.cells }

/-- The canonical form of a store: addresses strictly rising, all below `bound`. An unlisted address
reads as no listed value, so the second half of the form (no entry equal to what an unlisted address
reads as) asks nothing here (log 15). -/
def Store.wf {α : Type} (bound : Nat) (m : Store α) : Bool := rising m.cells && keysBelow bound m.cells

/-- The canonical form of a byte buffer. -/
def Memory.wf (bound : Nat) (m : Memory) : Bool := Store.wf bound m

/-- A table whose entries 0 .. n-1 are given by a function. -/
def tabulate {α : Type} (n : Nat) (f : Nat → α) : List (Nat × α) := (List.range n).map fun k => (k, f k)

end Sys2Proof.Machine
end

