-- ==== Sys2Proof/Machine/Flags.lean ====
section
/-! DEFINITION. STATUS as a word (rule R22), and the valid flags: which a command requires (rule R226) and
what each event does to them (rule R34). There is no arithmetic condition code. -/

namespace Sys2Proof.Machine

/-- One bit of STATUS as a number. -/
def bitAt (b : Bool) (k : Nat) : Nat := if b then 2 ^ k else 0

/-- STATUS as the host reads it (rule R22): bit 3 and bits 31:8 read 0. -/
def Status.word (st : Status) : Word :=
  BitVec.ofNat 32
    (bitAt st.busy 0 + bitAt st.done 1 + bitAt st.err 2 + bitAt st.vFreq 4 + bitAt st.vTree 5
      + bitAt st.vCode 6 + bitAt st.vCount 7)

/-- A named field of STATUS (rule R22). -/
def Status.field (st : Status) : StatusField → Bool
  | .busy => st.busy
  | .done => st.done
  | .err => st.err
  | .vFreq => st.vFreq
  | .vTree => st.vTree
  | .vCode => st.vCode
  | .vCount => st.vCount

/-- The valid flags a command requires (rule R226). -/
def flagsHeld (i : Instr) (st : Status) : Bool :=
  match i with
  | .build => st.vFreq
  | .derive => st.vTree
  | .tser => st.vTree
  | .pack => st.vCode
  | .unpack => st.vCode && st.vCount
  | .fcnt | .wcnt | .tdes | .rcnt | .compress | .decompress | .clrerr | .srst => true

/-- The two commands that are accepted while STATUS.ERR = 1 (rule R225 step 1, rule R257). -/
def acceptedWhileErr : Instr → Bool
  | .clrerr | .srst => true
  | .fcnt | .build | .derive | .tser | .wcnt | .pack | .tdes | .rcnt | .unpack => false
  | .compress | .decompress => false

/-- Rule R225 step 2: DONE is cleared on acceptance. -/
def State.clearDone (s : State) : State := { s with status := { s.status with done := false } }

/-- A command's normal end: DONE is set (rule R225 step 7). -/
def State.setDone (s : State) : State := { s with status := { s.status with done := true } }

/-- The start of FCNT, BUILD or TDES: V_TREE and V_CODE are cleared (rule R34). -/
def State.clearTreeFlags (s : State) : State :=
  { s with status := { s.status with vTree := false, vCode := false } }

/-- Completion of FCNT (rule R34). -/
def State.setVFreq (s : State) : State := { s with status := { s.status with vFreq := true } }

/-- Completion of BUILD or TDES (rule R34). -/
def State.setVTree (s : State) : State := { s with status := { s.status with vTree := true } }

/-- The start (false) and completion (true) of DERIVE (rule R34). -/
def State.putVCode (s : State) (b : Bool) : State := { s with status := { s.status with vCode := b } }

/-- Completion of RCNT (true) and its fault EOS_COUNT (false) (rules R34, R206). -/
def State.putVCount (s : State) (b : Bool) : State := { s with status := { s.status with vCount := b } }

end Sys2Proof.Machine
end

