-- ==== Sys2Proof/Machine/Operands.lean ====
section
/-! DEFINITION. Where a command's operands come from. A command word has no operand field (rule R94): operands
are the registers, the bytes of IBUF and OBUF, and the tables. Also the length conditions of rule R227. -/

namespace Sys2Proof.Machine

/-- A number as a register value. -/
def toWord (n : Nat) : Word := BitVec.ofNat 32 n

/-- `MemRead(IBUF, a, 1)` (rule R8). -/
def State.ibufByte (s : State) (a : Nat) : Byte := s.ibuf.read Config.freeIbufByte a

/-- The byte OBUF holds at an index (rule R42). -/
def State.obufByte (s : State) (a : Nat) : Byte := s.obuf.read Config.freeObufByte a

/-- `n` bytes of IBUF from `a`, lowest address first (rule R8). -/
def State.ibufSlice (s : State) (a n : Nat) : List Byte := (List.range n).map fun k => s.ibufByte (a + k)

/-- The whole input IBUF[0 .. ILEN-1] (rule R25). -/
def State.input (s : State) : List Byte := s.ibufSlice 0 s.ilen.toNat

/-- The output so far OBUF[0 .. OLEN-1] (rule R27). -/
def State.output (s : State) : List Byte := (List.range s.olen.toNat).map s.obufByte

/-- FREQ[k] (rule R35). -/
def State.freqAt (s : State) (k : Nat) : Word := s.freq.read Config.freeFreq k

/-- CODE[k] (rule R39). -/
def State.codeAt (s : State) (k : Nat) : CodeEntry := s.code.read Config.freeCode k

/-- TRIE[t] (rule R40). -/
def State.trieAt (s : State) (t : Nat) : TrieEntry := s.trie.read Config.freeTrie t

/-- What the host reads at a register number (rule R32): CMD and unassigned numbers read 0. -/
def readReg (s : State) (n : Nat) : Word :=
  match n with
  | 1 => s.status.word
  | 2 => s.err
  | 3 => s.errval
  | 4 => s.ilen
  | 5 => s.ipos
  | 6 => s.olen
  | 7 => s.count
  | 8 => s.nsym
  | 9 => s.root
  | 10 => s.nnode
  | _ => 0#32

/-- A host write to a register other than CMD (rule R32): only ILEN, IPOS and OLEN take it. -/
def writeReg (n : Nat) (v : Word) (s : State) : State :=
  match n with
  | 4 => { s with ilen := v }
  | 5 => { s with ipos := v }
  | 6 => { s with olen := v }
  | _ => s

/-- ERR.code (rule R23). -/
def errCode (w : Word) : Nat := w.toNat % 16

/-- ERR.sub (rule R23). -/
def errSub (w : Word) : Nat := w.toNat / 16 % 16

/-- ILEN ≤ IBUF_CAP (rule R227). -/
def State.ilenFits (s : State) : Bool := decide (s.ilen.toNat ≤ s.cfg.ibufCap)

/-- IPOS ≤ ILEN (rule R227). -/
def State.iposFits (s : State) : Bool := decide (s.ipos.toNat ≤ s.ilen.toNat)

/-- The length conditions of a command (rule R227). -/
def lengthsHeld (i : Instr) (s : State) : Bool :=
  match i with
  | .fcnt | .wcnt | .pack | .compress | .decompress => s.ilenFits
  | .tdes | .rcnt | .unpack => s.ilenFits && s.iposFits
  | .build | .derive | .tser | .clrerr | .srst => true

/-- The tree an arena denotes at an index (rule R37), looking at most `fuel` levels deep; none when an
entry on the way is not one of the arena's. -/
def treeAt (nodes : List (Nat × NodeEntry)) : (fuel : Nat) → (i : Nat) → Option HuffTree
  | 0, _ => none
  | fuel + 1, i =>
    match lookupCell nodes i with
    | none => none
    | some e =>
      if e.leaf then some (.leaf e.sym)
      else
        match treeAt nodes fuel e.left.toNat with
        | none => none
        | some l =>
          match treeAt nodes fuel e.right.toNat with
          | none => none
          | some r => some (.node l r)

/-- The current tree `tree(ROOT)` (rule R37). No tree of an arena is deeper than NODE_MAX levels. -/
def State.tree? (s : State) : Option HuffTree := treeAt s.node.cells Config.nodeMax s.root.toNat

end Sys2Proof.Machine
end

