-- ==== Sys2Proof/Machine/Ops.lean ====
section
/-! DEFINITION. The named operations every command is made of: Append (rule R8), taking a fault (rules R236 to
R240) and the return from one (rule R229), and command acceptance (rules R225 to R228). -/

namespace Sys2Proof.Machine

/-- How a command's pseudocode ends: normally with a result, by `raise F(sub, val)` (rule R8), or in a
stop of the model. -/
inductive Run (α : Type) where
  | ok (a : α) (s : State)
  | raise (k : FaultKind) (val : Word) (s : State)
  | stop (f : Fault)

/-- One piece of pseudocode after another: nothing after a raise runs (rule R238 step 1). -/
def Run.andThen {α β : Type} (r : Run α) (f : α → State → Run β) : Run β :=
  match r with
  | .ok a s => f a s
  | .raise k val s => .raise k val s
  | .stop x => .stop x

/-- The byte store of Append (rule R8): OBUF[OLEN] ← b, OLEN ← OLEN + 1. -/
def State.pushByte (s : State) (b : Byte) : State :=
  { s with obuf := s.obuf.set s.olen.toNat b, olen := toWord (s.olen.toNat + 1) }

/-- `Append(b)` (rule R8). -/
def append (b : Byte) (s : State) : Run Unit :=
  if s.cfg.obufCap ≤ s.olen.toNat then .raise .outputOverflow 0#32 s else .ok () (s.pushByte b)

/-- Append the bytes of a list one after another. -/
def appendAll : List Byte → State → Run Unit
  | [], s => .ok () s
  | b :: rest, s => (append b s).andThen fun _ s' => appendAll rest s'

/-- The code of a fault (rule R236). -/
def FaultKind.code : FaultKind → Nat
  | .emptyInput => 1
  | .badMarker | .eosTree | .eosCount | .eosPayload | .noMatch | .treeTooLarge => 2
  | .illegalCommand => 3
  | .sequenceError => 4
  | .outputOverflow => 5
  | .noCode => 6
  | .lengthError => 7

/-- The sub-cause of a fault (rule R236). -/
def FaultKind.sub : FaultKind → Nat
  | .badMarker => 1
  | .eosTree => 2
  | .eosCount => 3
  | .eosPayload => 4
  | .noMatch => 5
  | .treeTooLarge => 6
  | .emptyInput | .illegalCommand | .sequenceError | .outputOverflow | .noCode | .lengthError => 0

/-- The class column of rule R236: an execution fault, not a pre-execution one. -/
def FaultKind.isExecution : FaultKind → Bool
  | .emptyInput | .badMarker | .eosTree | .eosCount | .eosPayload | .noMatch | .treeTooLarge => true
  | .outputOverflow | .noCode => true
  | .illegalCommand | .sequenceError | .lengthError => false

/-- The faults raised in the body of BUILD or TDES, whose tables rule R240 (b) leaves unspecified. -/
def FaultKind.spoilsTree : FaultKind → Bool
  | .emptyInput | .badMarker | .eosTree | .treeTooLarge => true
  | .eosCount | .eosPayload | .noMatch | .illegalCommand | .sequenceError => false
  | .outputOverflow | .noCode | .lengthError => false

/-- The value of ERR for a fault: code + 16 * sub (rule R238 step 4). -/
def FaultKind.errWord (k : FaultKind) : Word := toWord (k.code + 16 * k.sub)

/-- Rule R240: OLEN ← 0, OBUF unspecified, IPOS ← IPOS0. -/
def State.discardOutput (s : State) (ipos0 : Word) : State :=
  { s with olen := 0#32, obuf := Store.blank s.fresh, ipos := ipos0, fresh := s.fresh + 1 }

/-- Rule R240 (b): NODE, NNODE, ROOT, HEAP and HSIZE become unspecified (U5; log 6). -/
def State.spoilTree (s : State) : State :=
  { s with
    node := Store.blank s.fresh
    nnode := toWord (Config.freeNnode s.fresh).val
    root := toWord (Config.freeRoot s.fresh).val
    heap := Store.blank s.fresh
    hsize := BitVec.ofNat 9 (Config.freeHsize s.fresh).val
    fresh := s.fresh + 1 }

/-- Rule R238 steps 3 to 5: the fault record. -/
def State.recordFault (s : State) (k : FaultKind) (val : Word) : State :=
  { s with status := { s.status with done := false, err := true }, err := k.errWord, errval := val }

/-- Taking a fault, `raise F(sub, val)` (rules R238 to R240): the ONE operation every fault goes through.
`ipos0` is IPOS at acceptance (rule R225 step 6). -/
def takeFault (k : FaultKind) (val ipos0 : Word) (s : State) : State :=
  let s1 := if k.isExecution then s.discardOutput ipos0 else s
  let s2 := if k.spoilsTree then s1.spoilTree else s1
  s2.recordFault k val

/-- The return from a fault (rules R229, R258): the record is cleared and nothing else. -/
def State.clearFault (s : State) : State :=
  { s with status := { s.status with err := false }, err := 0#32, errval := 0#32 }

/-- How a command's end becomes the next state (rule R225 steps 6, 7; rule R238). -/
def finish (ipos0 : Word) : Run Unit → Host.Outcome State Fault Refusal
  | .ok _ s => .next s
  | .raise k val s => .next (takeFault k val ipos0 s)
  | .stop f => .fault f

/-- Command acceptance for a legal command word (rule R225; step 3, the illegal words, is
`presentIllegal`). `body` is the command's pseudocode. -/
def accept (i : Instr) (body : State → Run Unit) (s : State) : Host.Outcome State Fault Refusal :=
  if s.status.err && !acceptedWhileErr i then .next s
  else if !flagsHeld i s.status then
    .next (takeFault .sequenceError (encode i) s.ipos s.clearDone)
  else if !lengthsHeld i s then
    .next (takeFault .lengthError (encode i) s.ipos s.clearDone)
  else finish s.ipos (body s.clearDone)

/-- Rule R225 steps 1 to 3 for a word that is no command (rules R93, R246). -/
def presentIllegal (w : Word) (s : State) : State :=
  if s.status.err then s else takeFault .illegalCommand w s.ipos s.clearDone

/-- A stage's pseudocode followed by `STATUS.DONE <- 1`. -/
def completing (body : State → Run Unit) (s : State) : Run Unit :=
  (body s).andThen fun _ s' => .ok () s'.setDone

end Sys2Proof.Machine
end

