-- ==== Sys2Proof/Machine/BitPacker.lean ====
section
/-! DEFINITION. PACK and UNPACK (44_bit_packer.md, rules R185 to R197). -/

namespace Sys2Proof.Machine

/-- The byte being filled and the number of bits in it (rule R186). -/
structure Partial where
  acc : Nat
  nb  : Nat
  deriving DecidableEq, Repr

/-- One bit into the byte being filled (rule R186): the first bit of eight ends at bit 7. -/
def packBit (b : Bool) (p : Partial) (s : State) : Run Partial :=
  if p.nb + 1 = 8 then
    (append (BitVec.ofNat 8 (2 * p.acc + b.toNat)) s).andThen fun _ s' => .ok { acc := 0, nb := 0 } s'
  else .ok { acc := 2 * p.acc + b.toNat, nb := p.nb + 1 } s

/-- The bits of one code, first bit first (rule R186). -/
def packBits : List Bool → Partial → State → Run Partial
  | [], p, s => .ok p s
  | b :: rest, p, s => (packBit b p s).andThen fun p' s' => packBits rest p' s'

/-- The symbols from index `i` on (rule R186); a symbol without a code is NoCode (rule R189). -/
def packSymbols : List Byte → (i : Nat) → Partial → State → Run Partial
  | [], _, p, s => .ok p s
  | x :: rest, i, p, s =>
    if (s.codeAt x.toNat).valid then
      (packBits (s.codeAt x.toNat).bits p s).andThen fun p' s' => packSymbols rest (i + 1) p' s'
    else .raise .noCode (toWord i) s

/-- The last byte, its low bits padded with zeros (rule R186). -/
def packFlush (p : Partial) (s : State) : Run Unit :=
  if 0 < p.nb then append (BitVec.ofNat 8 (p.acc * 2 ^ (8 - p.nb))) s else .ok () s

/-- The body of PACK (rule R186). -/
def bodyPack (s : State) : Run Unit :=
  (packSymbols s.input 0 { acc := 0, nb := 0 } s).andThen packFlush

/-- PACK (rule R185). -/
def execPack (s : State) : Host.Outcome State Fault Refusal := accept .pack (completing bodyPack) s

/-- Where UNPACK stands (rule R191): the byte `a` being read, the `k` bits already taken from it, the
trie cursor and the number of symbols emitted. -/
structure Cursor where
  a   : Nat
  k   : Nat
  cur : Nat
  em  : Nat
  deriving DecidableEq, Repr

/-- The bit UNPACK reads next: bit 7 first (rules R62, R191). -/
def nextBit (c : Cursor) (s : State) : Bool := (s.ibufByte c.a).getLsbD (7 - c.k)

/-- Where the next bit leads: '0' to the current entry's child c0, '1' to c1 (rule R191). -/
def nextIndex (c : Cursor) (s : State) : Index :=
  if nextBit c s then (s.trieAt c.cur).c1 else (s.trieAt c.cur).c0

/-- The position after one bit (rule R191). -/
def Cursor.advance (c : Cursor) : Cursor :=
  if c.k + 1 = 8 then { c with a := c.a + 1, k := 0 } else { c with k := c.k + 1 }

/-- The loop of rule R191, at most `fuel` bits. With fuel 8 * (ILEN - IPOS) the first case stands at the
end of the input, where a needed bit is EOS_PAYLOAD (log 17). -/
def unpackLoop : (fuel : Nat) → Cursor → State → Run Cursor
  | 0, c, s => if c.em < s.count.toNat then .raise .eosPayload (toWord c.a) s else .ok c s
  | fuel + 1, c, s =>
    if c.em < s.count.toNat then
      if s.ilen.toNat ≤ c.a then .raise .eosPayload (toWord c.a) s
      else if nextIndex c s = Config.null then .raise .noMatch (toWord c.a) s
      else if (s.trieAt (nextIndex c s).toNat).leaf then
        (append (s.trieAt (nextIndex c s).toNat).sym s).andThen fun _ s' =>
          unpackLoop fuel { c.advance with cur := 0, em := c.em + 1 } s'
      else unpackLoop fuel { c.advance with cur := (nextIndex c s).toNat } s
    else .ok c s

/-- The body of UNPACK (rules R190, R191). -/
def bodyUnpack (s : State) : Run Unit :=
  (unpackLoop (8 * (s.ilen.toNat - s.ipos.toNat)) { a := s.ipos.toNat, k := 0, cur := 0, em := 0 } s).andThen
    fun c s' => .ok () { s' with ipos := toWord (if c.k = 0 then c.a else c.a + 1) }

/-- UNPACK (rule R190). -/
def execUnpack (s : State) : Host.Outcome State Fault Refusal := accept .unpack (completing bodyUnpack) s

end Sys2Proof.Machine
end

