-- ==== Sys2Proof/Machine/CodeTable.lean ====
section
/-! DEFINITION. DERIVE, the code table deriver (42_code_table_deriver.md, rules R150 to R158). The traversal is
on the tree the arena denotes (rule R37): DERIVE is a function of it alone (rule R155 (e); log 11). -/

namespace Sys2Proof.Machine

/-- What DERIVE writes: TN, TRIE and CODE (rule R150). -/
structure Derived where
  tn   : Nat
  trie : List (Nat × TrieEntry)
  code : List (Nat × CodeEntry)
  deriving DecidableEq, Repr

/-- A leaf of TRIE (rule R151). -/
def trieLeaf (sym : Byte) : TrieEntry := { leaf := true, sym := sym, c0 := Config.null, c1 := Config.null }

/-- An internal entry of TRIE (rule R151). -/
def trieNode (c0 c1 : Index) : TrieEntry := { leaf := false, sym := 0#8, c0 := c0, c1 := c1 }

/-- Visit (rule R151): a left edge appends '0' (false), a right edge '1' (true); the answer is the TRIE
index allocated for the visited node, and the tables. -/
def visit : HuffTree → (path : List Bool) → Derived → Nat × Derived
  | .leaf sym, path, d =>
    (d.tn,
      { tn := d.tn + 1
        trie := setCell d.tn (trieLeaf sym) d.trie
        code := setCell sym.toNat { valid := true, bits := path } d.code })
  | .node l r, path, d =>
    let d0 : Derived := { d with tn := d.tn + 1, trie := setCell d.tn (trieNode Config.null Config.null) d.trie }
    let v0 := visit l (path ++ [false]) d0
    let v1 := visit r (path ++ [true]) v0.2
    (d.tn, { v1.2 with trie := setCell d.tn (trieNode (BitVec.ofNat 9 v0.1) (BitVec.ofNat 9 v1.1)) v1.2.trie })

/-- DERIVE's start: every CODE entry invalid, no TRIE entry in use (rule R150; entries not in use are
unspecified, rule R40). -/
def Derived.start : Derived :=
  { tn := 0, trie := [], code := tabulate Config.symCount fun _ => { valid := false, bits := [] } }

/-- SingleLeaf (rule R153): the only symbol gets the code "0". -/
def singleLeaf (sym : Byte) (d : Derived) : Derived :=
  { tn := 2
    trie := setCell 1 (trieLeaf sym) (setCell 0 (trieNode 1#9 Config.null) d.trie)
    code := setCell sym.toNat { valid := true, bits := [false] } d.code }

/-- The tables of a tree (rule R150). -/
def deriveTables : HuffTree → Derived
  | .leaf sym => singleLeaf sym Derived.start
  | .node l r => (visit (.node l r) [] Derived.start).2

/-- The body of DERIVE (rule R150). -/
def bodyDerive (s : State) : Run Unit :=
  let s1 := s.putVCode false
  match s1.tree? with
  | none => .stop .arenaDenotesNoTree
  | some t =>
    let d := deriveTables t
    .ok ()
      (({ s1 with
          code := { s1.code with cells := d.code }
          trie := { s1.trie with cells := d.trie } } : State).putVCode true)

/-- DERIVE (rule R150). -/
def execDerive (s : State) : Host.Outcome State Fault Refusal := accept .derive (completing bodyDerive) s

end Sys2Proof.Machine
end

