-- ==== Sys2Proof/Machine/Frequency.lean ====
section
/-! DEFINITION. FCNT, the symbol frequency counter (40_frequency_counter.md, rules R120 to R123). -/

namespace Sys2Proof.Machine

/-- The number of occurrences of symbol `k` in a byte sequence (rule R121 (a)). -/
def occurrences (k : Nat) : List Byte → Nat
  | [] => 0
  | b :: rest => if b.toNat = k then occurrences k rest + 1 else occurrences k rest

/-- FREQ after counting a byte sequence: all 256 entries (rule R120). -/
def freqCells (bytes : List Byte) : List (Nat × Word) :=
  tabulate Config.symCount fun k => toWord (occurrences k bytes)

/-- The number of entries with a non-zero count (rule R29). -/
def countPresent : List (Nat × Word) → Nat
  | [] => 0
  | (_, c) :: rest => if c = 0#32 then countPresent rest else countPresent rest + 1

/-- The body of FCNT (rule R120). -/
def bodyFcnt (s : State) : Run Unit :=
  let cells := freqCells s.input
  let s1 := s.clearTreeFlags
  .ok () ({ s1 with freq := { s1.freq with cells := cells }, nsym := toWord (countPresent cells) }).setVFreq

/-- FCNT (rule R120). -/
def execFcnt (s : State) : Host.Outcome State Fault Refusal := accept .fcnt (completing bodyFcnt) s

end Sys2Proof.Machine
end

