-- ==== Sys2Proof/Machine/TreeBuilder.lean ====
section
/-! DEFINITION. BUILD, the Huffman tree builder and its min-heap priority queue (41_tree_builder.md, rules R130
to R143). -/

namespace Sys2Proof.Machine

/-- What BUILD works on: NODE, NNODE, HEAP and HSIZE (rule R130). -/
structure Arena where
  nodes : List (Nat × NodeEntry)
  nnode : Nat
  heap  : List (Nat × Index)
  hsize : Nat
  deriving DecidableEq, Repr

/-- NODE[i].freq. BUILD asks only for entries it has written, so the last case never answers. -/
def Arena.freqOf (A : Arena) (i : Index) : Word :=
  match lookupCell A.nodes i.toNat with
  | some e => e.freq
  | none => 0#32

/-- HEAP[p]. BUILD asks only for positions below HSIZE, which it has written, so the last case never answers. -/
def Arena.heapAt (A : Arena) (p : Nat) : Index :=
  match lookupCell A.heap p with
  | some x => x
  | none => Config.null

/-- The queue order (rule R131): lower frequency first, then lower arena index. -/
def Arena.less (A : Arena) (a b : Index) : Bool :=
  decide (A.freqOf a < A.freqOf b) || (decide (A.freqOf a = A.freqOf b) && decide (a < b))

/-- Swap HEAP[p] and HEAP[q]. -/
def Arena.swap (A : Arena) (p q : Nat) : Arena :=
  { A with heap := setCell p (A.heapAt q) (setCell q (A.heapAt p) A.heap) }

/-- The sift-up loop of rule R133, at most `fuel` rounds; the position falls in every round. -/
def Arena.siftUp : (fuel p : Nat) → Arena → Arena
  | 0, _, A => A
  | fuel + 1, p, A =>
    if 0 < p && A.less (A.heapAt p) (A.heapAt ((p - 1) / 2)) then
      Arena.siftUp fuel ((p - 1) / 2) (A.swap p ((p - 1) / 2))
    else A

/-- HeapInsert(x) (rule R133). -/
def Arena.heapInsert (A : Arena) (x : Index) : Arena :=
  Arena.siftUp A.hsize A.hsize { A with heap := setCell A.hsize x A.heap, hsize := A.hsize + 1 }

/-- The least of position `p` and its children below HSIZE (the choice of `m` in rule R134). -/
def Arena.leastOf (A : Arena) (p : Nat) : Nat :=
  let m := if 2 * p + 1 < A.hsize && A.less (A.heapAt (2 * p + 1)) (A.heapAt p) then 2 * p + 1 else p
  if 2 * p + 2 < A.hsize && A.less (A.heapAt (2 * p + 2)) (A.heapAt m) then 2 * p + 2 else m

/-- The sift-down loop of rule R134, at most `fuel` rounds; the position rises in every round. -/
def Arena.siftDown : (fuel p : Nat) → Arena → Arena
  | 0, _, A => A
  | fuel + 1, p, A =>
    if A.leastOf p = p then A
    else Arena.siftDown fuel (A.leastOf p) (A.swap p (A.leastOf p))

/-- HeapExtract() (rule R134): the minimum, and the arena without it in the queue. -/
def Arena.heapExtract (A : Arena) : Index × Arena :=
  let n := A.hsize - 1
  let A1 := { A with hsize := n }
  if 0 < n then
    (A.heapAt 0, Arena.siftDown n 0 { A1 with heap := setCell 0 (A.heapAt n) A.heap })
  else (A.heapAt 0, A1)

/-- A new arena entry at NNODE, inserted into the queue (rules R132, R135). -/
def Arena.addNode (A : Arena) (e : NodeEntry) : Arena :=
  ({ A with nodes := setCell A.nnode e A.nodes, nnode := A.nnode + 1 } : Arena).heapInsert
    (BitVec.ofNat 9 A.nnode)

/-- The leaf BUILD makes for a symbol (rule R132). -/
def buildLeaf (k : Nat) (f : Word) : NodeEntry :=
  { leaf := true, sym := BitVec.ofNat 8 k, left := Config.null, right := Config.null, freq := f }

/-- InitLeaves (rule R132) over the symbols of a list, in its order. -/
def initLeaves (freqOf : Nat → Word) : List Nat → Arena → Arena
  | [], A => A
  | k :: rest, A =>
    if freqOf k = 0#32 then initLeaves freqOf rest A
    else initLeaves freqOf rest (A.addNode (buildLeaf k (freqOf k)))

/-- Combine (rule R135): the node extracted first is the left child. -/
def Arena.combine (A : Arena) : Arena :=
  let first := A.heapExtract
  let second := first.2.heapExtract
  second.2.addNode
    { leaf := false
      sym := 0#8
      left := first.1
      right := second.1
      freq := second.2.freqOf first.1 + second.2.freqOf second.1 }

/-- `while HSIZE > 1: Combine()` (rule R130), at most `fuel` rounds; HSIZE falls in every round. -/
def combineAll : (fuel : Nat) → Arena → Arena
  | 0, A => A
  | fuel + 1, A => if 1 < A.hsize then combineAll fuel A.combine else A

/-- BUILD's start: no arena entry in use, the queue empty, HEAP's old contents still there (log 16). -/
def Arena.start (s : State) : Arena := { nodes := [], nnode := 0, heap := s.heap.cells, hsize := 0 }

/-- The leaves of a state's FREQ, inserted (rules R130, R132). -/
def State.leavesArena (s : State) : Arena :=
  initLeaves s.freqAt (List.range Config.symCount) (Arena.start s)

/-- The body of BUILD (rule R130). -/
def bodyBuild (s : State) : Run Unit :=
  let s1 := s.clearTreeFlags
  let A := s1.leavesArena
  if A.nnode = 0 then .raise .emptyInput 0#32 s1
  else
    let last := (combineAll Config.heapMax A).heapExtract
    .ok ()
      ({ s1 with
          node := { s1.node with cells := last.2.nodes }
          nnode := toWord last.2.nnode
          heap := { s1.heap with cells := last.2.heap }
          hsize := BitVec.ofNat 9 last.2.hsize
          root := toWord last.1.toNat }).setVTree

/-- BUILD (rule R130). -/
def execBuild (s : State) : Host.Outcome State Fault Refusal := accept .build (completing bodyBuild) s

end Sys2Proof.Machine
end

