-- ==== Sys2Proof/Machine/TreeStream.lean ====
section
/-! DEFINITION. TSER and TDES, the preorder walker (43_tree_serializer.md, rules R165 to R177), with the byte
grammar of rules R96 to R98. -/

namespace Sys2Proof.Machine

/-- The serialized tree (rule R96). -/
def ser : HuffTree → List Byte
  | .leaf sym => [Config.markLeaf, sym]
  | .node l r => Config.markInt :: (ser l ++ ser r)

/-- The body of TSER (rules R165, R166): the bytes appended are ser(tree(ROOT)) (log 11). -/
def bodyTser (s : State) : Run Unit :=
  match s.tree? with
  | none => .stop .arenaDenotesNoTree
  | some t => appendAll (ser t) s

/-- TSER (rule R165). -/
def execTser (s : State) : Host.Outcome State Fault Refusal := accept .tser (completing bodyTser) s

/-- What Des works on: IPOS, NNODE and NODE (rule R170). -/
structure Parse where
  ipos  : Nat
  nnode : Nat
  nodes : List (Nat × NodeEntry)
  deriving DecidableEq, Repr

/-- How Des ends: the arena index of the node it built, or CorruptContainer with the index for ERRVAL. -/
inductive Parsed where
  | ok (i : Nat) (p : Parse)
  | raise (k : FaultKind) (pos : Nat)
  deriving DecidableEq, Repr

/-- The leaf TDES makes (rule R170). -/
def desLeaf (sym : Byte) : NodeEntry :=
  { leaf := true, sym := sym, left := Config.null, right := Config.null, freq := 0#32 }

/-- An internal entry TDES makes (rule R170). -/
def desNode (l r : Index) : NodeEntry := { leaf := false, sym := 0#8, left := l, right := r, freq := 0#32 }

/-- Des() (rule R170), nested at most `fuel` deep. Each level has allocated a node, so with fuel
NODE_MAX + 1 the check for TREE_TOO_LARGE stops it first and the first case never answers (log 17). -/
def des (byteAt : Nat → Byte) (ilen : Nat) : (fuel : Nat) → Parse → Parsed
  | 0, p => .raise .treeTooLarge p.ipos
  | fuel + 1, p =>
    if ilen ≤ p.ipos then .raise .eosTree p.ipos
    else if byteAt p.ipos ≠ Config.markInt ∧ byteAt p.ipos ≠ Config.markLeaf then .raise .badMarker p.ipos
    else if Config.nodeMax ≤ p.nnode then .raise .treeTooLarge p.ipos
    else if byteAt p.ipos = Config.markLeaf then
      if ilen ≤ p.ipos + 1 then .raise .eosTree (p.ipos + 1)
      else
        .ok p.nnode
          { ipos := p.ipos + 2
            nnode := p.nnode + 1
            nodes := setCell p.nnode (desLeaf (byteAt (p.ipos + 1))) p.nodes }
    else
      match des byteAt ilen fuel
          { ipos := p.ipos + 1
            nnode := p.nnode + 1
            nodes := setCell p.nnode (desNode Config.null Config.null) p.nodes } with
      | .raise k pos => .raise k pos
      | .ok l p1 =>
        match des byteAt ilen fuel p1 with
        | .raise k pos => .raise k pos
        | .ok r p2 =>
          .ok p.nnode
            { p2 with nodes := setCell p.nnode (desNode (BitVec.ofNat 9 l) (BitVec.ofNat 9 r)) p2.nodes }

/-- The whole parse of TDES from IPOS (rule R169). -/
def State.parse (s : State) : Parsed :=
  des s.ibufByte s.ilen.toNat (Config.nodeMax + 1) { ipos := s.ipos.toNat, nnode := 0, nodes := [] }

/-- The body of TDES (rule R169). -/
def bodyTdes (s : State) : Run Unit :=
  let s1 := s.clearTreeFlags
  match s1.parse with
  | .raise k pos => .raise k (toWord pos) s1
  | .ok i p =>
    .ok ()
      ({ s1 with
          node := { s1.node with cells := p.nodes }
          nnode := toWord p.nnode
          root := toWord i
          ipos := toWord p.ipos } : State).setVTree

/-- TDES (rule R169). -/
def execTdes (s : State) : Host.Outcome State Fault Refusal := accept .tdes (completing bodyTdes) s

end Sys2Proof.Machine
end

