-- ==== Sys2Proof/Machine/Container.lean ====
section
/-! DEFINITION. The container's count field and the composites: WCNT, RCNT, COMPRESS, DECOMPRESS
(45_container_framing.md, rules R205 to R213). -/

namespace Sys2Proof.Machine

/-- The four bytes of a count, least significant first (rule R61). -/
def countBytes (n : Word) : List Byte :=
  [n.extractLsb' 0 8, n.extractLsb' 8 8, n.extractLsb' 16 8, n.extractLsb' 24 8]

/-- The count four bytes in address order stand for (rule R61). -/
def countOf (b0 b1 b2 b3 : Byte) : Nat :=
  b0.toNat + 256 * b1.toNat + 65536 * b2.toNat + 16777216 * b3.toNat

/-- The body of WCNT (rule R205). -/
def bodyWcnt (s : State) : Run Unit := appendAll (countBytes s.ilen) s

/-- WCNT (rule R205). -/
def execWcnt (s : State) : Host.Outcome State Fault Refusal := accept .wcnt (completing bodyWcnt) s

/-- The body of RCNT (rule R206). -/
def bodyRcnt (s : State) : Run Unit :=
  let p := s.ipos.toNat
  if 4 ≤ s.ilen.toNat - p then
    let n := countOf (s.ibufByte p) (s.ibufByte (p + 1)) (s.ibufByte (p + 2)) (s.ibufByte (p + 3))
    .ok () (({ s with count := toWord n, ipos := toWord (p + 4) } : State).putVCount true)
  else .raise .eosCount s.ipos (s.putVCount false)

/-- RCNT (rule R206). -/
def execRcnt (s : State) : Host.Outcome State Fault Refusal := accept .rcnt (completing bodyRcnt) s

/-- The body of COMPRESS (rule R208): OLEN ← 0, then the stages' bodies in order. -/
def bodyCompress (s : State) : Run Unit :=
  (bodyFcnt { s with olen := 0#32 }).andThen fun _ s1 =>
  (bodyBuild s1).andThen fun _ s2 =>
  (bodyDerive s2).andThen fun _ s3 =>
  (bodyTser s3).andThen fun _ s4 =>
  (bodyWcnt s4).andThen fun _ s5 => bodyPack s5

/-- COMPRESS (rule R208). -/
def execCompress (s : State) : Host.Outcome State Fault Refusal :=
  accept .compress (completing bodyCompress) s

/-- The body of DECOMPRESS (rule R210): IPOS ← 0, OLEN ← 0, then the stages' bodies in order. -/
def bodyDecompress (s : State) : Run Unit :=
  (bodyTdes { s with ipos := 0#32, olen := 0#32 }).andThen fun _ s1 =>
  (bodyRcnt s1).andThen fun _ s2 =>
  (bodyDerive s2).andThen fun _ s3 => bodyUnpack s3

/-- DECOMPRESS (rule R210). -/
def execDecompress (s : State) : Host.Outcome State Fault Refusal :=
  accept .decompress (completing bodyDecompress) s

end Sys2Proof.Machine
end

