-- ==== Sys2Proof/Machine/Control.lean ====
section
/-! DEFINITION. The control commands CLRERR and SRST (46_control_commands.md, rules R229, R230) and hardware
reset (rules R265, R266). -/

namespace Sys2Proof.Machine

/-- The body of CLRERR (rule R229). -/
def bodyClrerr (s : State) : Run Unit := .ok () s.clearFault

/-- CLRERR (rule R229): the return from a fault. -/
def execClrerr (s : State) : Host.Outcome State Fault Refusal := accept .clrerr (completing bodyClrerr) s

/-- SRST's effect (rule R230): every register and HSIZE 0, the tables unspecified, IBUF and OBUF kept. -/
def State.softReset (s : State) : State :=
  { s with
    status := Status.zero
    err := 0#32
    errval := 0#32
    ilen := 0#32
    ipos := 0#32
    olen := 0#32
    count := 0#32
    nsym := 0#32
    root := 0#32
    nnode := 0#32
    freq := Store.blank s.fresh
    node := Store.blank s.fresh
    heap := Store.blank s.fresh
    hsize := 0#9
    code := Store.blank s.fresh
    trie := Store.blank s.fresh
    fresh := s.fresh + 1 }

/-- The body of SRST (rule R230): it sets neither DONE nor ERR. -/
def bodySrst (s : State) : Run Unit := .ok () s.softReset

/-- SRST (rule R230). -/
def execSrst (s : State) : Host.Outcome State Fault Refusal := accept .srst bodySrst s

/-- Hardware reset between commands (rules R265, R266; log 12): the instance's reset state with fresh
unspecified contents; the host's script and what it last read are the host's own and stay. -/
def State.hardwareReset (s : State) : State :=
  { State.resetOf s.cfg s.fresh with rdata := s.rdata, script := s.script }

end Sys2Proof.Machine
end

