-- ==== Sys2Proof/Machine/Dispatch.lean ====
section
/-! DEFINITION. One arm per command: what presenting a legal command word does (rule R225). -/

namespace Sys2Proof.Machine

def exec (i : Instr) (s : State) : Host.Outcome State Fault Refusal :=
  match i with
  | .fcnt => Sys2Proof.Machine.execFcnt s
  | .build => Sys2Proof.Machine.execBuild s
  | .derive => Sys2Proof.Machine.execDerive s
  | .tser => Sys2Proof.Machine.execTser s
  | .wcnt => Sys2Proof.Machine.execWcnt s
  | .pack => Sys2Proof.Machine.execPack s
  | .tdes => Sys2Proof.Machine.execTdes s
  | .rcnt => Sys2Proof.Machine.execRcnt s
  | .unpack => Sys2Proof.Machine.execUnpack s
  | .compress => Sys2Proof.Machine.execCompress s
  | .decompress => Sys2Proof.Machine.execDecompress s
  | .clrerr => Sys2Proof.Machine.execClrerr s
  | .srst => Sys2Proof.Machine.execSrst s

end Sys2Proof.Machine
end

