-- ==== Sys2Proof/Machine/HostPort.lean ====
section
/-! DEFINITION. The host's side: buffer and table accesses (rules R32, R41, R42, R47), the pseudo-commands of
rule R109 and the check EXPECT. A write to CMD is in Present.lean, which needs `exec`. -/

namespace Sys2Proof.Machine

/-- A host read: its value goes to `rdata` and nothing else changes (rule R67). -/
def State.answer (s : State) (w : Word) : State := { s with rdata := w }

/-- A host read whose value the spec leaves open: a free value is drawn (log 10). -/
def State.answerFree (s : State) (w : Word) : State := { s with rdata := w, fresh := s.fresh + 1 }

/-- NODE's word 1 and TRIE's word 0 (rule R47): bit 31 = leaf, 25:17 = second index, 16:8 = first
index, 7:0 = sym, others 0. -/
def packedEntry (leaf : Bool) (first second : Index) (sym : Byte) : Word :=
  toWord (bitAt leaf 31 + second.toNat * 2 ^ 17 + first.toNat * 2 ^ 8 + sym.toNat)

/-- Code bits `bits` of CODE word 1 + w (rule R47): bit 31 - j is bit 32 w + j of the code. -/
def codeWord (bits : List Bool) (w : Nat) : Word :=
  ((bits.drop (32 * w)).take 32).zipIdx.foldl (fun acc bj => acc + toWord (bitAt bj.1 (31 - bj.2))) 0#32

/-- The number of TRIE entries in use (rule R40). -/
def State.trieInUse (s : State) : Nat := if s.nnode.toNat = 1 then 2 else s.nnode.toNat

/-- What the observation port returns (rule R47): none where rule R47 leaves the value unspecified (the
table's valid flag is 0, or the index is outside the entries in use; log 9). -/
def portValue (s : State) (table index word : Nat) : Option Word :=
  match table with
  | 0 =>
    if s.status.vFreq && decide (index < Config.symCount) then
      some (if word = 0 then s.freqAt index else 0#32)
    else none
  | 1 =>
    if s.status.vTree && decide (index < s.nnode.toNat) then
      match s.node.get? index with
      | some e =>
        some
          (if word = 0 then e.freq
           else if word = 1 then packedEntry e.leaf e.left e.right e.sym
           else 0#32)
      | none => none
    else none
  | 2 =>
    if s.status.vCode && decide (index < Config.symCount) then
      let e := s.codeAt index
      some
        (if word = 0 then toWord (bitAt e.valid 31 + e.bits.length % 256)
         else if word ≤ 8 then codeWord e.bits (word - 1)
         else 0#32)
    else none
  | 3 =>
    if s.status.vCode && decide (index < s.trieInUse) then
      let e := s.trieAt index
      some (if word = 0 then packedEntry e.leaf e.c0 e.c1 e.sym else 0#32)
    else none
  | _ => some 0#32

/-- A host access other than a write to CMD. -/
def hostAccess (m : HostMove) (s : State) : Host.Outcome State Fault Refusal :=
  match m with
  | .writeReg n v => .next (writeReg n v s)
  | .readReg n => .next (s.answer (readReg s n))
  | .writeIbuf a b =>
    if a < s.cfg.ibufCap then .next { s with ibuf := s.ibuf.set a b } else .fault (.noSuchIbufByte a)
  | .readIbuf a =>
    if a < s.cfg.ibufCap then .next (s.answer ((s.ibufByte a).setWidth 32)) else .fault (.noSuchIbufByte a)
  | .readObuf a =>
    if a < s.cfg.obufCap then
      if a < s.olen.toNat then .next (s.answer ((s.obufByte a).setWidth 32))
      else .next (s.answerFree ((Config.freeObufRead s.fresh).setWidth 32))
    else .fault (.noSuchObufByte a)
  | .readTable t i w =>
    match portValue s t i w with
    | some v => .next (s.answer v)
    | none => .next (s.answerFree (Config.freePortWord s.fresh))
  | .hwReset => .next s.hardwareReset

/-- Whether a check holds (rule R109). A check of a table entry compares one word of it, the one `HostReadTable`
returns; the rule does not say in what form an entry is compared (DESIGN CHOICE, log 13). An unspecified port value is the next free value to be drawn, so a
check of one neither holds nor fails provably (DESIGN CHOICE, log 9). A check that reads OBUF at or above
OBUF_CAP never comes here (`checkExpect`, log 8). -/
def expectHolds (s : State) : Expect → Bool
  | .reg n v => readReg s n == v
  | .status f v => s.status.field f == v
  | .errCode v => errCode s.err == v
  | .errSub v => errSub s.err == v
  | .obuf bytes => s.output == bytes
  | .table t i w v => (portValue s t i w).getD (Config.freePortWord s.fresh) == v

/-- The state after a check that holds. A check has no side effect on the block (rule R109), and it leaves
`rdata` alone (log 13); a check of an unspecified port value has drawn it, as a read of it does, so that no
two checks or reads share one (DESIGN CHOICE, logs 9, 10). -/
def State.afterCheck (s : State) : Expect → State
  | .table t i w _ => if (portValue s t i w).isNone then { s with fresh := s.fresh + 1 } else s
  | _ => s

/-- Whether a check reads OBUF at or above OBUF_CAP: `OBUF` means OBUF[0 .. OLEN-1], and OLEN is the host's
to write (rules R27, R109). -/
def checksAbsentByte (s : State) : Expect → Bool
  | .obuf _ => decide (s.cfg.obufCap < s.olen.toNat)
  | _ => false

/-- An EXPECT line (rule R109). The rule does not say what a check of OBUF is when OLEN > OBUF_CAP, where
rule R274 calls the reads not possible: it stops as a host read of that byte does (DESIGN CHOICE, log 8).
Nor does it say what a check that does not hold does: it stops (DESIGN CHOICE, log 13). -/
def checkExpect (e : Expect) (s : State) : Host.Outcome State Fault Refusal :=
  if checksAbsentByte s e then .fault (.noSuchObufByte s.cfg.obufCap)
  else if expectHolds s e then .next (s.afterCheck e)
  else .fault .expectationFailed

/-- Write a byte sequence to IBUF from index `a` on (rule R109, LOAD). -/
def writeBytes (a : Nat) : List Byte → List ScriptLine
  | [] => []
  | b :: rest => .access (.writeIbuf a b) :: writeBytes (a + 1) rest

/-- MOVE's byte copies (rule R109): for each index, the read of OBUF and the write of what it returned. -/
def copyBytes (s : State) (k : Nat) : (n : Nat) → List ScriptLine
  | 0 => []
  | n + 1 =>
    .access (.readObuf k) :: .access (.writeIbuf k (s.obufByte k)) :: copyBytes s (k + 1) n

/-- The accesses a script line stands for (rules R108, R109). MOVE's values are those OBUF holds when the
line is reached; nothing between its own accesses changes them (log 13). -/
def expand (line : ScriptLine) (s : State) : List ScriptLine :=
  match line with
  | .access m => [.access m]
  | .command i => [.access (.writeReg 0 (encode i))]
  | .raw w => [.access (.writeReg 0 w)]
  | .load bytes =>
    writeBytes 0 bytes ++ [.access (.writeReg 4 (toWord bytes.length)), .access (.writeReg 5 0#32)]
  | .setLen n => [.access (.writeReg 4 n)]
  | .setPos n => [.access (.writeReg 5 n)]
  | .oclr => [.access (.writeReg 6 0#32)]
  | .move =>
    .access (.readReg 6) :: copyBytes s 0 s.olen.toNat ++
      [.access (.writeReg 4 s.olen), .access (.writeReg 5 0#32), .access (.writeReg 6 0#32)]
  | .expect e => [.expect e]
  | .hwReset => [.access .hwReset]

end Sys2Proof.Machine
end

