-- ==== Sys2Proof/Machine/Present.lean ====
section
/-! DEFINITION. Presenting a word to CMD (rules R21, R225), and a host access of any kind. -/

namespace Sys2Proof.Machine

/-- `HostWriteReg(CMD, w)` (rules R21, R225): the word is decoded and run, or raises IllegalCommand. -/
def presentWord (w : Word) (s : State) : Host.Outcome State Fault Refusal :=
  match decode w with
  | .ok i => exec i s
  | .error _ => .next (presentIllegal w s)

/-- One host access. -/
def hostMove (m : HostMove) (s : State) : Host.Outcome State Fault Refusal :=
  match m with
  | .writeReg 0 w => presentWord w s
  | other => hostAccess other s

end Sys2Proof.Machine
end

