-- ==== Sys2Proof/Machine/Step.lean ====
section
/-! DEFINITION. One step: the first pending host operation is performed (log 2). A write to CMD presents its
word as a command (rules R21, R225); every other access is the host's own; a pseudo-command is replaced
by its accesses. With none pending the block idles: nothing happens until the host acts (rule R33). -/

namespace Sys2Proof.Machine

/-- One step of the machine. -/
def step (s : State) : Host.Outcome State Fault Refusal :=
  match s.script with
  | [] => .next s
  | line :: rest =>
    let s1 := { s with script := rest }
    match line with
    | .access m => hostMove m s1
    | .expect e => checkExpect e s1
    | other => .next { s with script := expand other s ++ rest }

/-- The next step presents the command word whose low `nbits` bits are those of `w`: it becomes the first
pending host operation. Nothing else changes (log 2). -/
def State.withFetchWord (s : State) (nbits w : Nat) : State :=
  { s with script := .access (.writeReg 0 (BitVec.ofNat 32 (w % 2 ^ nbits))) :: s.script }

end Sys2Proof.Machine
end

