-- ==== Sys2Proof/Safety.lean ====
section
/-! DEFINITION. The vocabulary claims are stated in: the abstract tree and its code table (rules R9, R154), the
payload and the container (rules R95, R100), the greedy construction (rules R131 to R135), what the trie denotes
(rule R40), and the invariants of a run. Nothing here is used by the machine. -/

namespace Sys2Proof

/-- leaves(T) (rule R9). -/
def HuffTree.leaves : HuffTree → Nat
  | .leaf _ => 1
  | .node l r => l.leaves + r.leaves

/-- size(T) (rule R9). -/
def HuffTree.size : HuffTree → Nat
  | .leaf _ => 1
  | .node l r => 1 + l.size + r.size

/-- depth(T) (rule R9). -/
def HuffTree.depth : HuffTree → Nat
  | .leaf _ => 0
  | .node l r => 1 + max l.depth r.depth

/-- The symbols at the leaves of a tree, in preorder. -/
def HuffTree.symbols : HuffTree → List Byte
  | .leaf x => [x]
  | .node l r => l.symbols ++ r.symbols

/-- codes(T) (rule R154): every path with the symbol it leads to; false is '0', true is '1'. -/
def HuffTree.codes : HuffTree → List (List Bool × Byte)
  | .leaf x => [([], x)]
  | .node l r =>
    l.codes.map (fun p => (false :: p.1, p.2)) ++ r.codes.map (fun p => (true :: p.1, p.2))

/-- table(T) (rule R154): codes(T), but the code "0" for a tree that is one leaf (rule R153). -/
def HuffTree.codeTable : HuffTree → List (List Bool × Byte)
  | .leaf x => [([false], x)]
  | .node l r => (HuffTree.node l r).codes

/-- code(x), the bitcode of a symbol (rule R102): the first pair of table(T) with that symbol, and the
empty string for a symbol that has none. -/
def HuffTree.codeOf (t : HuffTree) (x : Byte) : List Bool :=
  match t.codeTable.find? (fun p => p.2 == x) with
  | some p => p.1
  | none => []

/-- One node's part of the byte grammar (rule R96): an internal marker, or a leaf marker with its symbol. -/
inductive TreeRecord where
  | internal
  | leaf (sym : Byte)
  deriving DecidableEq, Repr

/-- The bytes of a record (rule R97). -/
def TreeRecord.bytes : TreeRecord → List Byte
  | .internal => [Config.markInt]
  | .leaf x => [Config.markLeaf, x]

/-- The records of a tree, in preorder. -/
def HuffTree.records : HuffTree → List TreeRecord
  | .leaf x => [.leaf x]
  | .node l r => .internal :: (l.records ++ r.records)

/-- The bytes of records, one after another. -/
def recordBytes (rs : List TreeRecord) : List Byte := rs.flatMap TreeRecord.bytes

/-- Where `k` trees are to come, the number of trees that must still begin after these records: an internal
marker replaces one tree by two, a leaf is one. It is 0 from where no tree is left to begin. -/
def treesToCome : (k : Nat) → List TreeRecord → Nat
  | k, [] => k
  | 0, _ :: _ => 0
  | k + 1, .internal :: rs => treesToCome (k + 2) rs
  | k + 1, .leaf _ :: rs => treesToCome k rs

namespace Machine

/-- The bits of bytes, bit 7 of each first (rule R62). -/
def bitsOfBytes (bs : List Byte) : List Bool := bs.flatMap fun b => (List.range 8).map fun i => b.getLsbD (7 - i)

/-- B of rule R100: the codes of the symbols, in order. -/
def bitsOf (code : Byte → List Bool) (xs : List Byte) : List Bool := xs.flatMap code

/-- P of rule R100: B padded with '0' bits to a multiple of 8. -/
def paddedBits (bits : List Bool) : List Bool := bits ++ List.replicate ((8 - bits.length % 8) % 8) false

/-- The byte made from eight bits, the first of them bit 7 (rule R62). -/
def byteOfBits (g : List Bool) : Byte := BitVec.ofNat 8 (g.foldl (fun acc b => 2 * acc + b.toNat) 0)

/-- The payload bytes of a bit sequence (rule R100): byte j is made from P[8j .. 8j+7]. -/
def payload (bits : List Bool) : List Byte :=
  (List.range ((paddedBits bits).length / 8)).map fun j => byteOfBits (((paddedBits bits).drop (8 * j)).take 8)

/-- The container of an input under a tree (rule R95): tree, count, payload. -/
def container (t : HuffTree) (xs : List Byte) : List Byte :=
  ser t ++ countBytes (toWord xs.length) ++ payload (bitsOf t.codeOf xs)

/-- One node of the queue of rule R131, with the tree below it. Frequencies are unbounded numbers here. -/
structure QueueItem where
  freq  : Nat
  index : Nat
  tree  : HuffTree
  deriving DecidableEq, Repr

/-- `less` of rule R131. -/
def QueueItem.before (a b : QueueItem) : Bool :=
  decide (a.freq < b.freq) || (decide (a.freq = b.freq) && decide (a.index < b.index))

/-- The least of a non-empty list of items, by linear search. -/
def leastItem (a : QueueItem) : List QueueItem → QueueItem
  | [] => a
  | b :: rest => leastItem (if b.before a then b else a) rest

/-- The greedy rounds of rule R135 on a plain list of items, at most `fuel` of them; `next` is the index
the new item gets. -/
def greedy : (fuel next : Nat) → List QueueItem → Option HuffTree
  | _, _, [] => none
  | _, _, [q] => some q.tree
  | 0, _, _ => none
  | fuel + 1, next, q :: rest =>
    let a := leastItem q rest
    match (q :: rest).erase a with
    | [] => none
    | q' :: rest' =>
      let b := leastItem q' rest'
      greedy fuel (next + 1)
        ({ freq := a.freq + b.freq, index := next, tree := .node a.tree b.tree } :: (q' :: rest').erase b)

/-- The symbols that occur, in ascending order (rule R132). -/
def presentSymbols (freqOf : Nat → Nat) : List Nat := (List.range Config.symCount).filter fun k => freqOf k != 0

/-- The leaves of rule R132 as items: the k-th occurring symbol has index k. -/
def leafItems (freqOf : Nat → Nat) : List QueueItem :=
  (presentSymbols freqOf).zipIdx.map fun p =>
    { freq := freqOf p.1, index := p.2, tree := .leaf (BitVec.ofNat 8 p.1) }

/-- The Huffman tree of a frequency table by the greedy minimum-combination algorithm (rules R131 to R136). -/
def huffmanTree (freqOf : Nat → Nat) : Option HuffTree :=
  greedy Config.symCount (presentSymbols freqOf).length (leafItems freqOf)

/-- The arena entry made for a symbol that occurs (rule R132). -/
def leafEntry (freqOf : Nat → Nat) (k : Nat) : NodeEntry :=
  { leaf := true, sym := BitVec.ofNat 8 k, left := Config.null, right := Config.null, freq := toWord (freqOf k) }

/-- The arena entry made for two items combined (rule R135): the item taken first is the left child. -/
def combinedEntry (a b : QueueItem) : NodeEntry :=
  { leaf := false, sym := 0#8, left := BitVec.ofNat 9 a.index, right := BitVec.ofNat 9 b.index
    freq := toWord (a.freq + b.freq) }

/-- The entries the rounds of `greedy` make, oldest first. -/
def greedyEntries : (fuel next : Nat) → List QueueItem → List NodeEntry
  | _, _, [] => []
  | _, _, [_] => []
  | 0, _, _ => []
  | fuel + 1, next, q :: rest =>
    let a := leastItem q rest
    match (q :: rest).erase a with
    | [] => []
    | q' :: rest' =>
      let b := leastItem q' rest'
      combinedEntry a b :: greedyEntries fuel (next + 1)
        ({ freq := a.freq + b.freq, index := next, tree := .node a.tree b.tree } :: (q' :: rest').erase b)

/-- The whole arena of BUILD, index 0 first (rules R132, R135): the leaves in ascending symbol value, then the
internal entries in the order of their making. -/
def buildEntries (freqOf : Nat → Nat) : List NodeEntry :=
  (presentSymbols freqOf).map (leafEntry freqOf) ++
    greedyEntries Config.symCount (presentSymbols freqOf).length (leafItems freqOf)

/-- A tree's nodes as arena entries in preorder from index `base` on (rule R171): an internal entry i has left =
i + 1 and right = i + 1 + size(left subtree), and every freq is 0. -/
def preorderEntries : HuffTree → (base : Nat) → List NodeEntry
  | .leaf x, _ => [{ leaf := true, sym := x, left := Config.null, right := Config.null, freq := 0#32 }]
  | .node l r, base =>
    { leaf := false, sym := 0#8, left := BitVec.ofNat 9 (base + 1)
      right := BitVec.ofNat 9 (base + 1 + l.size), freq := 0#32 } ::
      (preorderEntries l (base + 1) ++ preorderEntries r (base + 1 + l.size))

/-- A tree's nodes as TRIE entries in preorder from index `base` on (rule R152): an internal entry t has c0 =
t + 1 and c1 = t + 1 + size(left subtree). -/
def trieEntries : HuffTree → (base : Nat) → List TrieEntry
  | .leaf x, _ => [{ leaf := true, sym := x, c0 := Config.null, c1 := Config.null }]
  | .node l r, base =>
    { leaf := false, sym := 0#8, c0 := BitVec.ofNat 9 (base + 1), c1 := BitVec.ofNat 9 (base + 1 + l.size) } ::
      (trieEntries l (base + 1) ++ trieEntries r (base + 1 + l.size))

/-- Following a bit string from a TRIE entry through non-leaf entries only (rule R40): the index reached. -/
def trieWalk (s : State) : (t : Nat) → List Bool → Option Nat
  | t, [] => some t
  | t, b :: rest =>
    if (s.trieAt t).leaf then none
    else
      let nxt := if b then (s.trieAt t).c1 else (s.trieAt t).c0
      if nxt = Config.null then none else trieWalk s nxt.toNat rest

/-- The bitcode → symbol mapping TRIE denotes (rule R40). -/
def trieMaps (s : State) (b : List Bool) (x : Byte) : Prop :=
  ∃ t, trieWalk s 0 b = some t ∧ (s.trieAt t).leaf = true ∧ (s.trieAt t).sym = x

/-- The arena indices below an index, in preorder (rule R37). -/
def indicesAt (nodes : List (Nat × NodeEntry)) : (fuel : Nat) → (i : Nat) → List Nat
  | 0, _ => []
  | fuel + 1, i =>
    match lookupCell nodes i with
    | none => [i]
    | some e =>
      if e.leaf then [i]
      else i :: (indicesAt nodes fuel e.left.toNat ++ indicesAt nodes fuel e.right.toNat)

/-- The current arena is well formed (rule R37): it denotes a tree, and every index below NNODE is met
exactly once from ROOT, so each but ROOT is the child of exactly one internal entry. -/
def State.arenaWellFormed (s : State) : Prop :=
  s.tree?.isSome = true ∧
  (indicesAt s.node.cells Config.nodeMax s.root.toNat).Perm (List.range s.nnode.toNat)

/-- The heap property of rule R133. -/
def Arena.heapOrdered (A : Arena) : Prop :=
  ∀ p, 0 < p → p < A.hsize → A.less (A.heapAt p) (A.heapAt ((p - 1) / 2)) = false

/-- The entries of the queue, position 0 first. -/
def Arena.queue (A : Arena) : List Index := (List.range A.hsize).map A.heapAt

/-- One stage after another, as a host script issues them. -/
def thenExec (o : Host.Outcome State Fault Refusal) (i : Instr) :
    Host.Outcome State Fault Refusal :=
  match o with
  | .next s => exec i s
  | .fault f => .fault f
  | .refused r => .refused r

/-! The invariants of a run. -/

/-- Canonical form: the instance is legal (rule R5), every table and buffer is listed with strictly
rising addresses, and the buffers list only bytes the instance has (rule R60). -/
structure State.Canonical (s : State) : Prop where
  cfg  : s.cfg.wf = true
  freq : rising s.freq.cells = true
  node : rising s.node.cells = true
  heap : rising s.heap.cells = true
  code : rising s.code.cells = true
  trie : rising s.trie.cells = true
  ibuf : Memory.wf s.cfg.ibufCap s.ibuf = true
  obuf : Memory.wf s.cfg.obufCap s.obuf = true

/-- The fault record (rules R22 to R24, R236): ERR = 0 exactly when STATUS.ERR = 0, and otherwise one of the
words of rule R236; ERRVAL = 0 when STATUS.ERR = 0; never both DONE and ERR; BUSY = 0 between commands. -/
structure State.RecordOk (s : State) : Prop where
  err    : s.err = 0#32 ↔ s.status.err = false
  kind   : s.status.err = true → ∃ k : FaultKind, s.err = k.errWord
  errval : s.status.err = false → s.errval = 0#32
  one    : ¬ (s.status.done = true ∧ s.status.err = true)
  busy   : s.status.busy = false

/-- The ranges of NSYM, ROOT, NNODE and HSIZE (rules R29, R30, R31, R38). -/
structure State.RangesOk (s : State) : Prop where
  nsym  : s.nsym.toNat ≤ 256
  root  : s.root.toNat ≤ 510
  nnode : s.nnode.toNat ≤ 511
  hsize : s.hsize.toNat ≤ 256

/-- What the valid flags say (rules R22, R34, R37): FREQ and NSYM are those of some input shorter than
2^32 bytes; NODE, ROOT, NNODE hold a tree; CODE and TRIE are those of the current tree. -/
structure State.TablesOk (s : State) : Prop where
  freq : s.status.vFreq = true →
    ∃ xs : List Byte, xs.length < 2 ^ 32 ∧ s.freq.cells = freqCells xs ∧
      s.nsym = toWord (countPresent (freqCells xs))
  tree : s.status.vTree = true → ∃ t : HuffTree, s.tree? = some t ∧ t.size = s.nnode.toNat ∧ t.size ≤ Config.nodeMax
  code : s.status.vCode = true →
    s.status.vTree = true ∧
    ∃ t : HuffTree, s.tree? = some t ∧ s.code.cells = (deriveTables t).code ∧ s.trie.cells = (deriveTables t).trie

end Machine

end Sys2Proof
end

