-- ==== Sys2Proof/Certificates/Slice0/Obligations.lean ====
section
/-! DEFINITION. The statements about the block, from the numbered rules of spec/. Each is about every state that
meets its hypotheses, whatever the instance's capacities and whatever the free values are. -/

open Sys2Proof Sys2Proof.Machine

/-! Encoding (30_encoding.md). -/

/-- Rules R91 to R93: a word decodes to a command exactly when it is that command's word; so the thirteen
words decode back and every other word is rejected. -/
def Obligations.DecodeIffEncoded : Prop :=
  ∀ (w : Word) (i : Instr), decode w = .ok i ↔ w = encode i

/-- Rule R92's map, the words written out; and words rule R93 names as illegal. -/
def Obligations.CommandWordsDecode : Prop :=
  decode 0x00000001#32 = .ok .fcnt ∧ decode 0x00000002#32 = .ok .build ∧
  decode 0x00000003#32 = .ok .derive ∧ decode 0x00000004#32 = .ok .tser ∧
  decode 0x00000005#32 = .ok .wcnt ∧ decode 0x00000006#32 = .ok .pack ∧
  decode 0x00000007#32 = .ok .tdes ∧ decode 0x00000008#32 = .ok .rcnt ∧
  decode 0x00000009#32 = .ok .unpack ∧ decode 0x00000010#32 = .ok .compress ∧
  decode 0x00000011#32 = .ok .decompress ∧ decode 0x0000001E#32 = .ok .clrerr ∧
  decode 0x0000001F#32 = .ok .srst ∧
  decode 0x00000000#32 = .error (.unassignedOpcode 0x00000000#32) ∧
  decode 0x0000000A#32 = .error (.unassignedOpcode 0x0000000A#32) ∧
  decode 0x00000020#32 = .error (.unassignedOpcode 0x00000020#32) ∧
  decode 0x00000106#32 = .error (.nonzeroHighBits 0x00000106#32) ∧
  decode 0x80000001#32 = .error (.nonzeroHighBits 0x80000001#32)

/-! The step and the host's accesses (46_control_commands.md R225; 10_state.md R21, R32, R47). -/

/-- Rule R21, R225: when the first pending host operation writes a command's word to CMD, the step is that
command's `exec`, the operation taken off the list; so it is for the word placed by `withFetchWord`. The list of
pending operations is the model's choice (log 2). -/
def Obligations.StepRunsDecodedCommand : Prop :=
  (∀ (s : State) (w : Word) (i : Instr) (rest : List ScriptLine),
    s.script = .access (.writeReg 0 w) :: rest → decode w = .ok i →
      step s = exec i { s with script := rest }) ∧
  (∀ (s : State) (i : Instr), step (s.withFetchWord 32 (encode i).toNat) = exec i s)

/-- Rules R93, R246: a word that is none of the thirteen, written to CMD while STATUS.ERR = 0, raises
IllegalCommand (ERR = 3) with ERRVAL = the word and changes nothing else; while STATUS.ERR = 1 it is ignored. -/
def Obligations.IllegalWordRaises : Prop :=
  ∀ (s : State) (w : Word), (∀ i : Instr, w ≠ encode i) →
    (s.status.err = false →
      hostMove (.writeReg 0 w) s = .next
        { s with
          status := { s.status with done := false, err := true }
          err := 0x03#32
          errval := w }) ∧
    (s.status.err = true → hostMove (.writeReg 0 w) s = .next s)

/-- Rules R21, R23 to R32: register access by the host: which register each number reads (number 1 is STATUS:
`StatusWordBits`), what a write does, and the reserved bits (those of ERR read 0 because ERR is one of the words of
rule R236, which is the invariant `RecordOk`). `rdata`, where the value a read returns stands, is the model's
choice (log 10). -/
def Obligations.HostRegisterAccess : Prop :=
  ∀ (s : State) (n : Nat) (v : Word),
    readReg s 0 = 0#32 ∧
    (readReg s 2 = s.err ∧ readReg s 3 = s.errval ∧ readReg s 4 = s.ilen ∧ readReg s 5 = s.ipos ∧
      readReg s 6 = s.olen ∧ readReg s 7 = s.count ∧ readReg s 8 = s.nsym ∧ readReg s 9 = s.root ∧
      readReg s 10 = s.nnode) ∧
    (11 ≤ n → readReg s n = 0#32 ∧ hostMove (.writeReg n v) s = .next s) ∧
    (n ∈ [1, 2, 3, 7, 8, 9, 10] → hostMove (.writeReg n v) s = .next s) ∧
    hostMove (.writeReg 4 v) s = .next { s with ilen := v } ∧
    hostMove (.writeReg 5 v) s = .next { s with ipos := v } ∧
    hostMove (.writeReg 6 v) s = .next { s with olen := v } ∧
    hostMove (.readReg n) s = .next { s with rdata := readReg s n } ∧
    (readReg s 1).getLsbD 3 = false ∧ (∀ k : Nat, 8 ≤ k → (readReg s 1).getLsbD k = false) ∧
    (s.RecordOk → ∀ k : Nat, 8 ≤ k → (readReg s 2).getLsbD k = false)

/-- Rule R22: the bits of STATUS as the host reads it. -/
def Obligations.StatusWordBits : Prop :=
  ∀ (s : State) (k : Nat),
    (readReg s 1).getLsbD 0 = s.status.busy ∧
    (readReg s 1).getLsbD 1 = s.status.done ∧
    (readReg s 1).getLsbD 2 = s.status.err ∧
    (readReg s 1).getLsbD 3 = false ∧
    (readReg s 1).getLsbD 4 = s.status.vFreq ∧
    (readReg s 1).getLsbD 5 = s.status.vTree ∧
    (readReg s 1).getLsbD 6 = s.status.vCode ∧
    (readReg s 1).getLsbD 7 = s.status.vCount ∧
    (8 ≤ k → (readReg s 1).getLsbD k = false)

/-- Rules R41, R42, R67, R71: a byte the host writes to IBUF is the byte it reads back, every other byte of
IBUF is as before, a read of OBUF below OLEN returns OBUF's byte, and a host read changes nothing (but the
model's own `rdata`, the value returned, and `fresh`: the model's choice, log 10). -/
def Obligations.HostBufferAccess : Prop :=
  ∀ (s : State) (a : Nat) (b : Byte),
    (a < s.cfg.ibufCap →
      ∃ t : State, hostMove (.writeIbuf a b) s = .next t ∧ t.ibufByte a = b ∧
        (∀ c : Nat, c ≠ a → t.ibufByte c = s.ibufByte c) ∧ t = { s with ibuf := t.ibuf }) ∧
    (a < s.cfg.ibufCap →
      hostMove (.readIbuf a) s = .next { s with rdata := (s.ibufByte a).setWidth 32 }) ∧
    (a < s.cfg.obufCap → a < s.olen.toNat →
      hostMove (.readObuf a) s = .next { s with rdata := (s.obufByte a).setWidth 32 }) ∧
    (∀ (n i w : Nat) (m : HostMove) (t : State),
      m ∈ [.readReg n, .readIbuf a, .readObuf a, .readTable n i w] → hostMove m s = .next t →
        t = { s with rdata := t.rdata, fresh := t.fresh })

/-- Rule R47: the words of the observation port under a set valid flag and an index in use, and 0 for every other
word of a table there and for every table id from 4 on (`rdata`, where the value returned stands, is the model's
choice: log 10; that the unspecified case comes before "returns 0" is its reading: log 9). -/
def Obligations.ObservationPortWords : Prop :=
  (∀ (s : State) (k : Nat), s.status.vFreq = true → k < 256 →
    hostMove (.readTable 0 k 0) s = .next { s with rdata := s.freqAt k } ∧
    ∀ j : Nat, 1 ≤ j → hostMove (.readTable 0 k j) s = .next { s with rdata := 0#32 }) ∧
  (∀ (s : State) (i : Nat) (e : NodeEntry),
    s.status.vTree = true → i < s.nnode.toNat → s.node.get? i = some e →
      hostMove (.readTable 1 i 0) s = .next { s with rdata := e.freq } ∧
      (∀ j : Nat, 2 ≤ j → hostMove (.readTable 1 i j) s = .next { s with rdata := 0#32 }) ∧
      ∃ w : Word, hostMove (.readTable 1 i 1) s = .next { s with rdata := w } ∧
        w.getLsbD 31 = e.leaf ∧ w.extractLsb' 17 9 = e.right ∧ w.extractLsb' 8 9 = e.left ∧
        w.extractLsb' 0 8 = e.sym ∧ w.extractLsb' 26 5 = 0#5) ∧
  (∀ (s : State) (k : Nat), s.status.vCode = true → k < 256 → (s.codeAt k).bits.length ≤ 255 →
    (∃ w : Word, hostMove (.readTable 2 k 0) s = .next { s with rdata := w } ∧
      w.getLsbD 31 = (s.codeAt k).valid ∧ (w.extractLsb' 0 8).toNat = (s.codeAt k).bits.length ∧
      w.extractLsb' 8 23 = 0#23) ∧
    (∀ j : Nat, j < 8 →
      ∃ w : Word, hostMove (.readTable 2 k (1 + j)) s = .next { s with rdata := w } ∧
        ∀ b : Nat, b < 32 → w.getLsbD (31 - b) = ((s.codeAt k).bits[32 * j + b]?).getD false) ∧
    (∀ j : Nat, 9 ≤ j → hostMove (.readTable 2 k j) s = .next { s with rdata := 0#32 })) ∧
  (∀ (s : State) (i : Nat), s.status.vCode = true → i < s.trieInUse →
    (∀ j : Nat, 1 ≤ j → hostMove (.readTable 3 i j) s = .next { s with rdata := 0#32 }) ∧
    ∃ w : Word, hostMove (.readTable 3 i 0) s = .next { s with rdata := w } ∧
      w.getLsbD 31 = (s.trieAt i).leaf ∧ w.extractLsb' 17 9 = (s.trieAt i).c1 ∧
      w.extractLsb' 8 9 = (s.trieAt i).c0 ∧ w.extractLsb' 0 8 = (s.trieAt i).sym ∧
      w.extractLsb' 26 5 = 0#5) ∧
  (∀ (s : State) (table i j : Nat), 4 ≤ table →
    hostMove (.readTable table i j) s = .next { s with rdata := 0#32 })

/-- Rule R109: LOAD places its bytes in IBUF from index 0, sets ILEN to their number and IPOS to 0. The number of
steps is the model's choice (logs 2, 13). -/
def Obligations.LoadLineFillsInput : Prop :=
  ∀ (s : State) (bytes : List Byte) (rest : List ScriptLine),
    s.script = .load bytes :: rest → s.cfg.wf = true → bytes.length ≤ s.cfg.ibufCap →
      ∃ t : State, core.run (bytes.length + 3) s = .next t ∧ t.input = bytes ∧
        (∀ a : Nat, bytes.length ≤ a → t.ibufByte a = s.ibufByte a) ∧
        t = { s with ibuf := t.ibuf, ilen := toWord bytes.length, ipos := 0#32, script := rest }

/-- Rules R75, R109: MOVE makes the output the new input and empties the output. The number of steps is the
model's choice (logs 2, 13). -/
def Obligations.MoveLineCopiesOutput : Prop :=
  ∀ (s : State) (rest : List ScriptLine),
    s.script = .move :: rest → s.olen.toNat ≤ s.cfg.ibufCap → s.olen.toNat ≤ s.cfg.obufCap →
      ∃ t : State, core.run (2 * s.olen.toNat + 5) s = .next t ∧ t.input = s.output ∧
        (∀ a : Nat, s.olen.toNat ≤ a → t.ibufByte a = s.ibufByte a) ∧
        t =
          { s with
            ibuf := t.ibuf, ilen := s.olen, ipos := 0#32, olen := 0#32, rdata := t.rdata, script := rest }

/-! Reset (10_state.md R45; 70_reset_and_hazards.md R266). -/

/-- Rules R45, R266: every register and HSIZE is 0 after hardware reset, whatever ran before; the instance's
capacities stay. -/
def Obligations.HardwareResetRegisters : Prop :=
  (∀ n : Nat, readReg State.reset n = 0#32) ∧ State.reset.hsize = 0#9 ∧
  (∀ s : State, ∃ t : State, hostMove .hwReset s = .next t ∧ (∀ n : Nat, readReg t n = 0#32) ∧
    t.hsize = 0#9 ∧ t.cfg = s.cfg ∧ t.status = Status.zero)

/-! Acceptance and faults (46_control_commands.md R225 to R228; 60_exceptions.md). -/

/-- Rules R225 step 1, R257: while STATUS.ERR = 1 every command word but CLRERR's and SRST's, legal or not, leaves
the whole state unchanged; no other host access but the reset input touches the fault record; and the host's
register and IBUF accesses work as usual. -/
def Obligations.StickyFaultIgnoresCommands : Prop :=
  ∀ s : State, s.status.err = true →
    (∀ i : Instr, i ≠ .clrerr → i ≠ .srst → exec i s = .next s) ∧
    (∀ w : Word, w ≠ 0x0000001E#32 → w ≠ 0x0000001F#32 → hostMove (.writeReg 0 w) s = .next s) ∧
    (∀ (m : HostMove) (t : State), (∀ w : Word, m ≠ .writeReg 0 w) → m ≠ .hwReset → hostMove m s = .next t →
      t.status = s.status ∧ t.err = s.err ∧ t.errval = s.errval) ∧
    (∀ n : Nat, hostMove (.readReg n) s = .next { s with rdata := readReg s n }) ∧
    (∀ v : Word, hostMove (.writeReg 4 v) s = .next { s with ilen := v } ∧
      hostMove (.writeReg 5 v) s = .next { s with ipos := v } ∧
      hostMove (.writeReg 6 v) s = .next { s with olen := v }) ∧
    (∀ (a : Nat) (b : Byte), a < s.cfg.ibufCap →
      hostMove (.writeIbuf a b) s = .next { s with ibuf := s.ibuf.set a b } ∧
      hostMove (.readIbuf a) s = .next { s with rdata := (s.ibufByte a).setWidth 32 })

/-- Rules R226, R247: exactly the commands of rule R226's table whose flag is 0 raise SequenceError, with
ERRVAL the word, and nothing else changes. -/
def Obligations.MissingFlagRaisesSequenceError : Prop :=
  ∀ (s : State) (i : Instr), s.status.err = false →
    (((i = .build ∧ s.status.vFreq = false) ∨ (i = .derive ∧ s.status.vTree = false) ∨
      (i = .tser ∧ s.status.vTree = false) ∨ (i = .pack ∧ s.status.vCode = false) ∨
      (i = .unpack ∧ (s.status.vCode = false ∨ s.status.vCount = false))) →
      exec i s = .next
        { s with
          status := { s.status with done := false, err := true }
          err := 0x04#32
          errval := encode i }) ∧
    (∀ t : State, exec i s = .next t → t.status.err = true → t.err = 0x04#32 →
      (i = .build ∧ s.status.vFreq = false) ∨ (i = .derive ∧ s.status.vTree = false) ∨
      (i = .tser ∧ s.status.vTree = false) ∨ (i = .pack ∧ s.status.vCode = false) ∨
      (i = .unpack ∧ (s.status.vCode = false ∨ s.status.vCount = false)))

/-- Rules R227, R248: with its flags set, exactly a command whose length condition fails raises LengthError, with
ERRVAL the word, and nothing else changes; IPOS = ILEN is no LengthError. -/
def Obligations.BadLengthRaisesLengthError : Prop :=
  ∀ (s : State) (i : Instr), s.status.err = false →
    ((i = .pack → s.status.vCode = true) →
      (i = .unpack → s.status.vCode = true ∧ s.status.vCount = true) →
      ((i ∈ [.fcnt, .wcnt, .pack, .compress, .decompress, .tdes, .rcnt, .unpack] ∧
          s.cfg.ibufCap < s.ilen.toNat) ∨
        (i ∈ [.tdes, .rcnt, .unpack] ∧ s.ilen.toNat < s.ipos.toNat)) →
      exec i s = .next
        { s with
          status := { s.status with done := false, err := true }
          err := 0x07#32
          errval := encode i }) ∧
    (∀ t : State, exec i s = .next t → t.status.err = true → t.err = 0x07#32 →
      (i ∈ [.fcnt, .wcnt, .pack, .compress, .decompress, .tdes, .rcnt, .unpack] ∧
          s.cfg.ibufCap < s.ilen.toNat) ∨
        (i ∈ [.tdes, .rcnt, .unpack] ∧ s.ilen.toNat < s.ipos.toNat))

/-- Rule R228: the order of the pre-execution checks, by its own example. -/
def Obligations.PreExecutionCheckOrder : Prop :=
  ∀ (s : State) (rest : List ScriptLine), s.status.vCode = false → s.cfg.ibufCap < s.ilen.toNat →
    (s.status.err = false →
      exec .pack s = .next
        { s with
          status := { s.status with done := false, err := true }
          err := 0x04#32
          errval := 0x00000006#32 }) ∧
    (s.status.err = false → s.script = .access (.writeReg 0 0x00000106#32) :: rest →
      step s = .next
        { s with
          script := rest
          status := { s.status with done := false, err := true }
          err := 0x03#32
          errval := 0x00000106#32 }) ∧
    (s.status.err = true → exec .pack s = .next s) ∧
    (s.status.err = true → s.script = .access (.writeReg 0 0x00000106#32) :: rest →
      step s = .next { s with script := rest })

/-- Rule R239: a pre-execution fault (codes 3, 4, 7), from whatever word is written to CMD, changes nothing but
the fault record. -/
def Obligations.PreExecutionFaultChangesOnlyRecord : Prop :=
  ∀ (s t : State) (w : Word), s.status.err = false → hostMove (.writeReg 0 w) s = .next t →
    t.status.err = true → errCode t.err ∈ [3, 4, 7] →
      t =
        { s with
          status := { s.status with done := false, err := true }
          err := t.err
          errval := t.errval }

/-- Rule R240: an execution fault (codes 1, 2, 5, 6) sets OLEN to 0 and restores IPOS; IBUF, ILEN and the
instance are untouched; V_TREE and V_CODE are 0 after a fault of BUILD or TDES, V_COUNT after RCNT's. -/
def Obligations.ExecutionFaultDiscardsOutput : Prop :=
  ∀ (s t : State) (i : Instr), s.status.err = false → exec i s = .next t → t.status.err = true →
    errCode t.err ∈ [1, 2, 5, 6] →
      t.olen = 0#32 ∧ t.ipos = s.ipos ∧ t.ibuf = s.ibuf ∧ t.ilen = s.ilen ∧ t.cfg = s.cfg ∧
      t.status.done = false ∧
      (i = .build ∨ i = .tdes → t.status.vTree = false ∧ t.status.vCode = false) ∧
      (i = .rcnt → t.status.vCount = false ∧ t.count = s.count)

/-- Rule R255: the fault matrix, as the ERR words each command can leave when it is accepted. -/
def Obligations.FaultMatrix : Prop :=
  ∀ (s t : State) (i : Instr), s.status.err = false → exec i s = .next t → t.status.err = true →
    match i with
    | .fcnt => t.err = 0x07#32
    | .build => t.err = 0x04#32 ∨ t.err = 0x01#32
    | .derive => t.err = 0x04#32
    | .tser => t.err = 0x04#32 ∨ t.err = 0x05#32
    | .wcnt => t.err = 0x07#32 ∨ t.err = 0x05#32
    | .pack => t.err = 0x04#32 ∨ t.err = 0x07#32 ∨ t.err = 0x05#32 ∨ t.err = 0x06#32
    | .tdes => t.err = 0x07#32 ∨ t.err = 0x12#32 ∨ t.err = 0x22#32 ∨ t.err = 0x62#32
    | .rcnt => t.err = 0x07#32 ∨ t.err = 0x32#32
    | .unpack =>
      t.err = 0x04#32 ∨ t.err = 0x07#32 ∨ t.err = 0x42#32 ∨ t.err = 0x52#32 ∨ t.err = 0x05#32
    | .compress => t.err = 0x07#32 ∨ t.err = 0x01#32 ∨ t.err = 0x05#32
    | .decompress =>
      t.err = 0x07#32 ∨ t.err = 0x12#32 ∨ t.err = 0x22#32 ∨ t.err = 0x32#32 ∨ t.err = 0x42#32 ∨
        t.err = 0x52#32 ∨ t.err = 0x62#32 ∨ t.err = 0x05#32
    | .clrerr => False
    | .srst => False

/-- Rules R22, R41, R67, R240 (d): after an accepted command other than SRST exactly one of DONE and ERR is
1; no command, accepted or ignored, writes IBUF or the instance, and none but SRST writes ILEN. -/
def Obligations.CommandsReportAndKeepInput : Prop :=
  ∀ (s t : State) (i : Instr), exec i s = .next t →
    (s.status.err = false → i ≠ .srst → t.status.err = !t.status.done) ∧
    t.ibuf = s.ibuf ∧ t.cfg = s.cfg ∧ t.script = s.script ∧ t.rdata = s.rdata ∧
    (i ≠ .srst → t.ilen = s.ilen)

/-! Control commands (R229, R230). -/

/-- Rules R229, R258: CLRERR, word 0x0000001E, is accepted whatever STATUS.ERR is, clears the fault record, sets
DONE and changes nothing else. -/
def Obligations.ClrerrClearsRecord : Prop :=
  encode .clrerr = 0x0000001E#32 ∧
  ∀ s : State,
    exec .clrerr s = .next
      { s with status := { s.status with err := false, done := true }, err := 0#32, errval := 0#32 }

/-- Rule R230: SRST sets every register and HSIZE to 0 and keeps the bytes of IBUF and OBUF. -/
def Obligations.SrstResetsRegisters : Prop :=
  ∀ s : State, ∃ t : State, exec .srst s = .next t ∧ (∀ n : Nat, readReg t n = 0#32) ∧
    t.status = Status.zero ∧ t.hsize = 0#9 ∧ t.ibuf = s.ibuf ∧ t.obuf = s.obuf ∧ t.cfg = s.cfg

/-! FCNT (R120 to R122). -/

/-- Rules R120, R121 (a), (c): FREQ counts the input, NSYM is the number of symbols that occur, and nothing
outside FREQ, NSYM, the three flags and DONE changes. -/
def Obligations.FcntCountsSymbols : Prop :=
  ∀ s : State, s.status.err = false → s.ilen.toNat ≤ s.cfg.ibufCap →
    ∃ t : State, exec .fcnt s = .next t ∧
      (∀ k : Nat, k < 256 → (t.freqAt k).toNat = s.input.countP (fun b => b.toNat == k)) ∧
      t.nsym.toNat = ((List.range 256).filter fun k => s.input.any fun b => b.toNat == k).length ∧
      t =
        { s with
          freq := t.freq
          nsym := t.nsym
          status := { s.status with vFreq := true, vTree := false, vCode := false, done := true } }

/-- Rule R121 (b), (c): the counts add up to ILEN, and NSYM is at most 256 and at most ILEN. -/
def Obligations.FcntCountsAddUp : Prop :=
  ∀ s t : State, s.status.err = false → s.ilen.toNat ≤ s.cfg.ibufCap → exec .fcnt s = .next t →
    ((List.range 256).map fun k => (t.freqAt k).toNat).sum = s.ilen.toNat ∧
    t.nsym.toNat ≤ 256 ∧ t.nsym.toNat ≤ s.ilen.toNat

/-- Rule R122: FCNT on the empty input completes with an empty table, and BUILD after it raises EmptyInput. -/
def Obligations.FcntOnEmptyInput : Prop :=
  ∀ s : State, s.status.err = false → s.ilen = 0#32 →
    ∃ t : State, exec .fcnt s = .next t ∧ (∀ k : Nat, k < 256 → t.freqAt k = 0#32) ∧ t.nsym = 0#32 ∧
      t.status.vFreq = true ∧ t.status.done = true ∧ t.status.err = false ∧
      ∃ u : State, exec .build t = .next u ∧ u.status.err = true ∧ u.err = 0x01#32

/-! BUILD (R130 to R142). -/

/-- Rules R130, R132, R135, R136, R140, R141: with a non-zero count in FREQ, BUILD completes with the Huffman tree of
the greedy construction in a well-formed arena, numbered as the construction numbers it: entry i is the i-th of the
leaves in ascending symbol value followed by the internal entries in the order of their making, and there is no other
entry; the root is the entry created last. The premise that the counts add up to less than 2^32 is rule R46 (b). -/
def Obligations.BuildMakesHuffmanTree : Prop :=
  ∀ s : State, s.status.err = false → s.status.vFreq = true →
    ((List.range 256).map fun k => (s.freqAt k).toNat).sum < 2 ^ 32 →
    (∃ k : Nat, k < 256 ∧ s.freqAt k ≠ 0#32) →
    ∃ (t : State) (T : HuffTree), exec .build s = .next t ∧
      huffmanTree (fun k => (s.freqAt k).toNat) = some T ∧ t.tree? = some T ∧
      (∀ i : Nat, t.node.get? i = (buildEntries fun k => (s.freqAt k).toNat)[i]?) ∧
      t.nnode.toNat = T.size ∧ t.root.toNat = t.nnode.toNat - 1 ∧ t.hsize = 0#9 ∧
      t =
        { s with
          node := t.node, nnode := t.nnode, root := t.root, heap := t.heap, hsize := t.hsize
          status := { s.status with vTree := true, vCode := false, done := true } }

/-- Rules R37, R132, R135, R141 (a) to (c): after BUILD the arena is well formed, its leaves carry exactly the symbols
that occur, each once, and the root's frequency is the sum of all counts. Entry k below the number of symbols that
occur is the leaf of the k-th smallest of them, with its count, and every later entry is internal: sym = 0, both
children have smaller indices, the left child comes first in the queue's order, and its frequency is the sum of
theirs. -/
def Obligations.BuildTreeCarriesSymbols : Prop :=
  ∀ (s t : State) (present : List Nat), s.status.err = false → s.status.vFreq = true →
    ((List.range 256).map fun k => (s.freqAt k).toNat).sum < 2 ^ 32 →
    exec .build s = .next t → t.status.done = true →
    present = ((List.range 256).filter fun k => s.freqAt k != 0#32) →
    t.arenaWellFormed ∧
    (∃ T : HuffTree, t.tree? = some T ∧ T.symbols.Perm (present.map fun k => BitVec.ofNat 8 k)) ∧
    (∃ e : NodeEntry, t.node.get? t.root.toNat = some e ∧
      e.freq.toNat = ((List.range 256).map fun k => (s.freqAt k).toNat).sum) ∧
    (∀ (i : Nat) (e : NodeEntry), t.node.get? i = some e → e.leaf = true →
      e.freq = s.freqAt e.sym.toNat ∧ e.left = Config.null ∧ e.right = Config.null) ∧
    (∀ k x : Nat, present[k]? = some x →
      t.node.get? k =
        some { leaf := true, sym := BitVec.ofNat 8 x, left := Config.null, right := Config.null, freq := s.freqAt x }) ∧
    (∀ (i : Nat) (e : NodeEntry), t.node.get? i = some e → (e.leaf = true ↔ i < present.length)) ∧
    (∀ (i : Nat) (e : NodeEntry), t.node.get? i = some e → e.leaf = false →
      e.sym = 0#8 ∧ e.left.toNat < i ∧ e.right.toNat < i ∧
      ∃ l r : NodeEntry, t.node.get? e.left.toNat = some l ∧ t.node.get? e.right.toNat = some r ∧
        e.freq = l.freq + r.freq ∧ (l.freq < r.freq ∨ l.freq = r.freq ∧ e.left < e.right))

/-- Rule R139: with every count zero BUILD raises EmptyInput; NODE, NNODE, ROOT, HEAP, HSIZE and OBUF become
unspecified, OLEN is 0, and nothing else changes. -/
def Obligations.BuildOnEmptyTable : Prop :=
  ∀ s : State, s.status.err = false → s.status.vFreq = true →
    (∀ k : Nat, k < 256 → s.freqAt k = 0#32) →
    ∃ t : State, exec .build s = .next t ∧
      t =
        { s with
          node := t.node, nnode := t.nnode, root := t.root, heap := t.heap, hsize := t.hsize
          obuf := t.obuf, olen := 0#32, fresh := t.fresh
          err := 0x01#32, errval := 0#32
          status := { s.status with vTree := false, vCode := false, done := false, err := true } }

/-- Rules R137, R142: NODE, NNODE and ROOT after BUILD depend only on FREQ, not on what HEAP or the old arena
held. -/
def Obligations.BuildDependsOnlyOnFreq : Prop :=
  ∀ s s' t t' : State, s.status.err = false → s'.status.err = false →
    (∀ k : Nat, k < 256 → s.freqAt k = s'.freqAt k) →
    s.status.vFreq = true → s'.status.vFreq = true →
    exec .build s = .next t → exec .build s' = .next t' → t.status.done = true →
    t'.status.done = true ∧ t.node.cells = t'.node.cells ∧ t.nnode = t'.nnode ∧ t.root = t'.root

/-- Rule R133: HeapInsert adds its argument to the queue and preserves the heap property; NODE and NNODE are
untouched. -/
def Obligations.HeapInsertKeepsOrder : Prop :=
  ∀ (A : Arena) (x : Index), A.heapOrdered → A.hsize < 256 →
    (A.heapInsert x).heapOrdered ∧ (A.heapInsert x).queue.Perm (x :: A.queue) ∧
    (A.heapInsert x).hsize = A.hsize + 1 ∧ (A.heapInsert x).nodes = A.nodes ∧
    (A.heapInsert x).nnode = A.nnode

/-- Rule R134: HeapExtract returns the minimum of the queue, removes it and preserves the heap property. -/
def Obligations.HeapExtractTakesMinimum : Prop :=
  ∀ A : Arena, A.heapOrdered → 1 ≤ A.hsize → A.hsize ≤ 256 →
    A.heapExtract.2.heapOrdered ∧ A.queue.Perm (A.heapExtract.1 :: A.heapExtract.2.queue) ∧
    (∀ x : Index, x ∈ A.queue → x ≠ A.heapExtract.1 → A.less A.heapExtract.1 x = true) ∧
    A.heapExtract.2.hsize = A.hsize - 1 ∧ A.heapExtract.2.nodes = A.nodes ∧
    A.heapExtract.2.nnode = A.nnode

/-! DERIVE (R150 to R156). -/

/-- Rules R150, R152, R154: DERIVE completes; the bitcode → symbol mapping of TRIE is exactly table(T); TRIE's entries
are T's nodes in preorder from entry 0, the root, on (two leaves or more; R153's two entries for one leaf are in
`DeriveCornerCases`); CODE[x] is valid exactly for the symbols of T and, when no symbol repeats, holds its path;
nothing else changes. -/
def Obligations.DeriveMakesCodeTable : Prop :=
  ∀ (s : State) (T : HuffTree), s.status.err = false → s.status.vTree = true → s.tree? = some T →
    T.size ≤ 511 →
    ∃ t : State, exec .derive s = .next t ∧
      (∀ (b : List Bool) (x : Byte), trieMaps t b x ↔ (b, x) ∈ T.codeTable) ∧
      (2 ≤ T.leaves → ∀ (k : Nat) (e : TrieEntry), (trieEntries T 0)[k]? = some e → t.trieAt k = e) ∧
      (∀ x : Byte, (t.codeAt x.toNat).valid = true ↔ ∃ b : List Bool, (b, x) ∈ T.codeTable) ∧
      (T.symbols.Nodup → ∀ (b : List Bool) (x : Byte), (b, x) ∈ T.codeTable → (t.codeAt x.toNat).bits = b) ∧
      t =
        { s with
          code := t.code, trie := t.trie
          status := { s.status with vCode := true, done := true } }

/-- Rules R153, R156: a tree that is one leaf gets the code "0" and the two TRIE entries of rule R153; on a
tree with repeated symbols CODE ends holding the path of the leaf visited last. -/
def Obligations.DeriveCornerCases : Prop :=
  (∀ (s : State) (x : Byte), s.status.err = false → s.status.vTree = true → s.tree? = some (.leaf x) →
    ∃ t : State, exec .derive s = .next t ∧
      t.codeAt x.toNat = { valid := true, bits := [false] } ∧
      (∀ y : Byte, y ≠ x → (t.codeAt y.toNat).valid = false) ∧
      t.trieAt 0 = { leaf := false, sym := 0#8, c0 := 1#9, c1 := 0x1FF#9 } ∧
      t.trieAt 1 = { leaf := true, sym := x, c0 := 0x1FF#9, c1 := 0x1FF#9 } ∧
      t.status.vCode = true ∧ t.status.done = true) ∧
  (∀ (s : State) (l r : HuffTree) (x : Byte) (b : List Bool) (pre post : List (List Bool × Byte)),
    s.status.err = false → s.status.vTree = true → s.tree? = some (.node l r) →
    (HuffTree.node l r).codes = pre ++ (b, x) :: post → (∀ p, p ∈ post → p.2 ≠ x) →
    ∃ t : State, exec .derive s = .next t ∧ t.codeAt x.toNat = { valid := true, bits := b })

/-- Rule R155 (b), (c): after DERIVE on a tree with two or more leaves (distinct symbols are not needed) the bits
of no valid CODE entry are a prefix of another's, and each has at least one bit, at most as many as the tree is
deep and at most the number of leaves less one; so it is of the codes of the tree themselves. -/
def Obligations.CodesPrefixFree : Prop :=
  (∀ (s : State) (l r : HuffTree), s.status.err = false → s.status.vTree = true →
    s.tree? = some (.node l r) → (HuffTree.node l r).size ≤ 511 →
    ∃ t : State, exec .derive s = .next t ∧
      (∀ x y : Byte, x ≠ y → (t.codeAt x.toNat).valid = true → (t.codeAt y.toNat).valid = true →
        ¬ (t.codeAt x.toNat).bits <+: (t.codeAt y.toNat).bits) ∧
      (∀ x : Byte, (t.codeAt x.toNat).valid = true →
        1 ≤ (t.codeAt x.toNat).bits.length ∧
        (t.codeAt x.toNat).bits.length ≤ (HuffTree.node l r).depth ∧
        (t.codeAt x.toNat).bits.length ≤ (HuffTree.node l r).leaves - 1)) ∧
  (∀ l r : HuffTree,
    (HuffTree.node l r).codes.Pairwise (fun p q => ¬ p.1 <+: q.1 ∧ ¬ q.1 <+: p.1) ∧
    (∀ p, p ∈ (HuffTree.node l r).codes →
      1 ≤ p.1.length ∧ p.1.length ≤ (HuffTree.node l r).depth ∧ p.1.length ≤ (HuffTree.node l r).leaves - 1))

/-! TSER (R165 to R168, R175). -/

/-- Rules R165, R166: TSER appends ser(T) at OLEN and changes nothing else. -/
def Obligations.TserAppendsTree : Prop :=
  ∀ (s : State) (T : HuffTree), s.status.err = false → s.status.vTree = true → s.tree? = some T →
    s.cfg.wf = true → s.olen.toNat + (3 * T.leaves - 1) ≤ s.cfg.obufCap →
    ∃ t : State, exec .tser s = .next t ∧ t.olen.toNat = s.olen.toNat + (3 * T.leaves - 1) ∧
      (∀ (k : Nat) (b : Byte), (ser T)[k]? = some b → t.obufByte (s.olen.toNat + k) = b) ∧
      (∀ a : Nat, a < s.olen.toNat ∨ s.olen.toNat + (3 * T.leaves - 1) ≤ a → t.obufByte a = s.obufByte a) ∧
      t = { s with obuf := t.obuf, olen := t.olen, status := { s.status with done := true } }

/-- Rule R168: a tree with L leaves serializes to 3 L - 1 bytes, and TSER raises OutputOverflow exactly when
OLEN + 3 L - 1 > OBUF_CAP on entry. -/
def Obligations.TserLengthAndOverflow : Prop :=
  (∀ T : HuffTree, (ser T).length = 3 * T.leaves - 1) ∧
  (∀ (s : State) (T : HuffTree), s.status.err = false → s.status.vTree = true → s.tree? = some T →
    s.cfg.wf = true →
    ∃ t : State, exec .tser s = .next t ∧
      (t.err = 0x05#32 ∧ t.status.err = true ↔
        s.cfg.obufCap < s.olen.toNat + 3 * T.leaves - 1) ∧
      (t.status.err = true →
        t =
          { s with
            obuf := t.obuf, olen := 0#32, fresh := t.fresh, err := 0x05#32, errval := 0#32
            status := { s.status with done := false, err := true } }))

/-- Rule R175: the byte grammar is prefix-free on trees. -/
def Obligations.SerializationUniqueParse : Prop :=
  ∀ T U : HuffTree, ser T <+: ser U → T = U

/-! TDES (R169 to R177). -/

/-- Rules R169, R171, R173, R174: TDES on bytes that begin with ser(T), T of at most 511 nodes, completes and
rebuilds T in a well-formed arena in preorder: from ROOT = 0 the indices are 0, 1, 2, ..., and the entries are T's
nodes in that order (left = i + 1, right = i + 1 + size(left subtree), freq 0); IPOS moves past ser(T); nothing else
changes. -/
def Obligations.TdesRebuildsTree : Prop :=
  ∀ (s : State) (T : HuffTree), s.status.err = false → s.ilen.toNat ≤ s.cfg.ibufCap → T.size ≤ 511 →
    s.ipos.toNat + (ser T).length ≤ s.ilen.toNat →
    (∀ (k : Nat) (b : Byte), (ser T)[k]? = some b → s.ibufByte (s.ipos.toNat + k) = b) →
    ∃ t : State, exec .tdes s = .next t ∧ t.tree? = some T ∧ t.arenaWellFormed ∧
      t.nnode.toNat = T.size ∧ t.root = 0#32 ∧ t.ipos.toNat = s.ipos.toNat + (3 * T.leaves - 1) ∧
      indicesAt t.node.cells Config.nodeMax t.root.toNat = List.range t.nnode.toNat ∧
      (∀ (k : Nat) (e : NodeEntry), (preorderEntries T 0)[k]? = some e → t.node.get? k = some e) ∧
      (∀ (i : Nat) (e : NodeEntry), t.node.get? i = some e →
        e.freq = 0#32 ∧ (e.leaf = false → e.left.toNat = i + 1)) ∧
      t =
        { s with
          node := t.node, nnode := t.nnode, root := t.root, ipos := t.ipos
          status := { s.status with vTree := true, vCode := false, done := true } }

/-- Rules R170, R176, R244: given only a proper prefix of ser(T), TDES raises CorruptContainer / EOS_TREE with
ERRVAL = ILEN; so it does whenever the input ends after records (at most 511) that leave the tree unfinished, or
after a leaf marker that follows at most 510 of them. -/
def Obligations.TdesOnTruncatedTree : Prop :=
  (∀ (s : State) (T : HuffTree), s.status.err = false → s.ilen.toNat ≤ s.cfg.ibufCap → T.size ≤ 511 →
    s.ipos.toNat ≤ s.ilen.toNat → s.ilen.toNat < s.ipos.toNat + (ser T).length →
    (∀ (k : Nat) (b : Byte), s.ipos.toNat + k < s.ilen.toNat → (ser T)[k]? = some b →
      s.ibufByte (s.ipos.toNat + k) = b) →
    ∃ t : State, exec .tdes s = .next t ∧
      t =
        { s with
          node := t.node, nnode := t.nnode, root := t.root, heap := t.heap, hsize := t.hsize
          obuf := t.obuf, olen := 0#32, fresh := t.fresh
          err := 0x22#32, errval := s.ilen
          status := { s.status with vTree := false, vCode := false, done := false, err := true } }) ∧
  (∀ (s : State) (rs : List TreeRecord), s.status.err = false → s.ilen.toNat ≤ s.cfg.ibufCap →
    0 < treesToCome 1 rs →
    (∀ (k : Nat) (b : Byte), (recordBytes rs)[k]? = some b → s.ibufByte (s.ipos.toNat + k) = b) →
    (rs.length ≤ 511 ∧ s.ilen.toNat = s.ipos.toNat + (recordBytes rs).length ∨
      rs.length ≤ 510 ∧ s.ilen.toNat = s.ipos.toNat + (recordBytes rs).length + 1 ∧
        s.ibufByte (s.ipos.toNat + (recordBytes rs).length) = 0x31#8) →
    ∃ t : State, exec .tdes s = .next t ∧
      t =
        { s with
          node := t.node, nnode := t.nnode, root := t.root, heap := t.heap, hsize := t.hsize
          obuf := t.obuf, olen := 0#32, fresh := t.fresh
          err := 0x22#32, errval := s.ilen
          status := { s.status with vTree := false, vCode := false, done := false, err := true } })

/-- Rules R98, R170, R243: a byte other than 0x30 and 0x31 wherever a marker is due, after any records that leave
the tree unfinished (none, or up to 511 of them: BAD_MARKER comes before TREE_TOO_LARGE), raises CorruptContainer /
BAD_MARKER at its index. -/
def Obligations.TdesOnBadMarker : Prop :=
  ∀ (s : State) (rs : List TreeRecord), s.status.err = false → s.ilen.toNat ≤ s.cfg.ibufCap →
    rs.length ≤ 511 → 0 < treesToCome 1 rs →
    s.ipos.toNat + (recordBytes rs).length < s.ilen.toNat →
    (∀ (k : Nat) (b : Byte), (recordBytes rs)[k]? = some b → s.ibufByte (s.ipos.toNat + k) = b) →
    s.ibufByte (s.ipos.toNat + (recordBytes rs).length) ≠ 0x30#8 →
    s.ibufByte (s.ipos.toNat + (recordBytes rs).length) ≠ 0x31#8 →
    ∃ t : State, exec .tdes s = .next t ∧
      t =
        { s with
          node := t.node, nnode := t.nnode, root := t.root, heap := t.heap, hsize := t.hsize
          obuf := t.obuf, olen := 0#32, fresh := t.fresh
          err := 0x12#32, errval := toWord (s.ipos.toNat + (recordBytes rs).length)
          status := { s.status with vTree := false, vCode := false, done := false, err := true } }

/-- Rules R170, R245: a valid marker when 511 nodes exist raises CorruptContainer / TREE_TOO_LARGE with ERRVAL =
the index of that marker: after any 511 records that leave the tree unfinished, whatever follows the marker; and so
for every serialized tree of more than 511 nodes, at its 512th marker. -/
def Obligations.TdesOnTooLargeTree : Prop :=
  (∀ (s : State) (rs : List TreeRecord), s.status.err = false → s.ilen.toNat ≤ s.cfg.ibufCap →
    rs.length = 511 → 0 < treesToCome 1 rs →
    s.ipos.toNat + (recordBytes rs).length < s.ilen.toNat →
    (∀ (k : Nat) (b : Byte), (recordBytes rs)[k]? = some b → s.ibufByte (s.ipos.toNat + k) = b) →
    (s.ibufByte (s.ipos.toNat + (recordBytes rs).length) = 0x30#8 ∨
      s.ibufByte (s.ipos.toNat + (recordBytes rs).length) = 0x31#8) →
    ∃ t : State, exec .tdes s = .next t ∧
      t =
        { s with
          node := t.node, nnode := t.nnode, root := t.root, heap := t.heap, hsize := t.hsize
          obuf := t.obuf, olen := 0#32, fresh := t.fresh
          err := 0x62#32, errval := toWord (s.ipos.toNat + (recordBytes rs).length)
          status := { s.status with vTree := false, vCode := false, done := false, err := true } }) ∧
  (∀ (s : State) (T : HuffTree), s.status.err = false → s.ilen.toNat ≤ s.cfg.ibufCap → 511 < T.size →
    s.ipos.toNat + (ser T).length ≤ s.ilen.toNat →
    (∀ (k : Nat) (b : Byte), (ser T)[k]? = some b → s.ibufByte (s.ipos.toNat + k) = b) →
    ∃ t : State, exec .tdes s = .next t ∧
      t =
        { s with
          node := t.node, nnode := t.nnode, root := t.root, heap := t.heap, hsize := t.hsize
          obuf := t.obuf, olen := 0#32, fresh := t.fresh
          err := 0x62#32, errval := toWord (s.ipos.toNat + (recordBytes (T.records.take 511)).length)
          status := { s.status with vTree := false, vCode := false, done := false, err := true } })

/-! The count (R205, R206). -/

/-- Rules R61, R205: WCNT appends ILEN as four bytes, least significant first, or raises OutputOverflow when
fewer than four bytes of room remain. -/
def Obligations.WcntAppendsCount : Prop :=
  ∀ s : State, s.status.err = false → s.ilen.toNat ≤ s.cfg.ibufCap → s.cfg.wf = true →
    (s.olen.toNat + 4 ≤ s.cfg.obufCap →
      ∃ t : State, exec .wcnt s = .next t ∧ t.olen.toNat = s.olen.toNat + 4 ∧
        (∀ k : Nat, k < 4 → (t.obufByte (s.olen.toNat + k)).toNat = s.ilen.toNat / 256 ^ k % 256) ∧
        (∀ a : Nat, a < s.olen.toNat ∨ s.olen.toNat + 4 ≤ a → t.obufByte a = s.obufByte a) ∧
        t = { s with obuf := t.obuf, olen := t.olen, status := { s.status with done := true } }) ∧
    (s.cfg.obufCap < s.olen.toNat + 4 →
      ∃ t : State, exec .wcnt s = .next t ∧
        t =
          { s with
            obuf := t.obuf, olen := 0#32, fresh := t.fresh, err := 0x05#32, errval := 0#32
            status := { s.status with done := false, err := true } })

/-- Rules R61, R206: RCNT reads four bytes at IPOS, least significant first, into COUNT and moves IPOS past
them. -/
def Obligations.RcntReadsCount : Prop :=
  ∀ s : State, s.status.err = false → s.ilen.toNat ≤ s.cfg.ibufCap →
    s.ipos.toNat + 4 ≤ s.ilen.toNat →
    ∃ t : State, exec .rcnt s = .next t ∧ t.ipos.toNat = s.ipos.toNat + 4 ∧
      t.count.toNat =
        (s.ibufByte s.ipos.toNat).toNat + 256 * (s.ibufByte (s.ipos.toNat + 1)).toNat +
          65536 * (s.ibufByte (s.ipos.toNat + 2)).toNat +
          16777216 * (s.ibufByte (s.ipos.toNat + 3)).toNat ∧
      t =
        { s with
          count := t.count, ipos := t.ipos
          status := { s.status with vCount := true, done := true } }

/-- Rules R206, R249: with fewer than four bytes left RCNT raises CorruptContainer / EOS_COUNT with ERRVAL =
IPOS and clears V_COUNT; COUNT keeps its value. -/
def Obligations.RcntOnShortInput : Prop :=
  ∀ s : State, s.status.err = false → s.ilen.toNat ≤ s.cfg.ibufCap →
    s.ipos.toNat ≤ s.ilen.toNat → s.ilen.toNat < s.ipos.toNat + 4 →
    ∃ t : State, exec .rcnt s = .next t ∧
      t =
        { s with
          obuf := t.obuf, olen := 0#32, fresh := t.fresh, err := 0x32#32, errval := s.ipos
          status := { s.status with vCount := false, done := false, err := true } }

/-! PACK and UNPACK (R185 to R196). -/

/-- Rules R100, R185 to R188, R252: when every input byte has a code and there is room, PACK appends the payload
of the concatenated codes, ceil(T / 8) bytes, and changes nothing else; without that room it raises OutputOverflow. -/
def Obligations.PackAppendsPayload : Prop :=
  ∀ (s : State) (bits : List Bool), s.status.err = false → s.status.vCode = true →
    s.ilen.toNat ≤ s.cfg.ibufCap → s.cfg.wf = true →
    (∀ x : Byte, x ∈ s.input → (s.codeAt x.toNat).valid = true) →
    bits = bitsOf (fun x => (s.codeAt x.toNat).bits) s.input →
    (bits = [] ∨ s.olen.toNat + (bits.length + 7) / 8 ≤ s.cfg.obufCap →
      ∃ t : State, exec .pack s = .next t ∧ (payload bits).length = (bits.length + 7) / 8 ∧
        t.olen.toNat = s.olen.toNat + (bits.length + 7) / 8 ∧
        (∀ (k : Nat) (b : Byte), (payload bits)[k]? = some b → t.obufByte (s.olen.toNat + k) = b) ∧
        (∀ a : Nat, a < s.olen.toNat ∨ s.olen.toNat + (bits.length + 7) / 8 ≤ a →
          t.obufByte a = s.obufByte a) ∧
        t = { s with obuf := t.obuf, olen := t.olen, status := { s.status with done := true } }) ∧
    (bits ≠ [] → s.cfg.obufCap < s.olen.toNat + (bits.length + 7) / 8 →
      ∃ t : State, exec .pack s = .next t ∧
        t =
          { s with
            obuf := t.obuf, olen := 0#32, fresh := t.fresh, err := 0x05#32, errval := 0#32
            status := { s.status with done := false, err := true } })

/-- Rules R189, R252, R256: the first input byte without a code raises NoCode with its index, unless the whole
bytes of the codes before it overflow OBUF: then OutputOverflow comes first. -/
def Obligations.PackWithoutCode : Prop :=
  ∀ (s : State) (pre post : List Byte) (x : Byte) (bits : List Bool), s.status.err = false →
    s.status.vCode = true → s.ilen.toNat ≤ s.cfg.ibufCap → s.cfg.wf = true →
    s.input = pre ++ x :: post → (s.codeAt x.toNat).valid = false →
    (∀ y : Byte, y ∈ pre → (s.codeAt y.toNat).valid = true) →
    bits = bitsOf (fun y => (s.codeAt y.toNat).bits) pre →
    (bits.length < 8 ∨ s.olen.toNat + bits.length / 8 ≤ s.cfg.obufCap →
      ∃ t : State, exec .pack s = .next t ∧
        t =
          { s with
            obuf := t.obuf, olen := 0#32, fresh := t.fresh, err := 0x06#32, errval := toWord pre.length
            status := { s.status with done := false, err := true } }) ∧
    (8 ≤ bits.length → s.cfg.obufCap < s.olen.toNat + bits.length / 8 →
      ∃ t : State, exec .pack s = .next t ∧
        t =
          { s with
            obuf := t.obuf, olen := 0#32, fresh := t.fresh, err := 0x05#32, errval := 0#32
            status := { s.status with done := false, err := true } })

/-- Rules R156, R190, R191, R193, R194, R196, R252: under the trie of a tree T, UNPACK with COUNT = n on input bits
that begin with n codes of T (those of `ps`, pairs of a code and its symbol; a symbol at several leaves may come by
any of its codes) appends the n symbols, in order, and moves IPOS past the last byte it took a bit from, whatever
follows: the unread low bits of that byte and the bytes after it may hold anything (U8). Nothing else changes. Without
room for the n symbols it raises OutputOverflow. So UNPACK inverts PACK: on bytes that begin with the payload of n
symbols of T it appends exactly those symbols and consumes exactly the payload. -/
def Obligations.UnpackInvertsPack : Prop :=
  (∀ (s : State) (T : HuffTree) (ps : List (List Bool × Byte)) (rest : List Bool), s.status.err = false →
    s.status.vCode = true → s.status.vCount = true → s.ilen.toNat ≤ s.cfg.ibufCap → s.cfg.wf = true →
    s.ipos.toNat ≤ s.ilen.toNat → T.size ≤ 511 → s.trie.cells = (deriveTables T).trie →
    (∀ p, p ∈ ps → p ∈ T.codeTable) → s.count.toNat = ps.length →
    bitsOfBytes (s.input.drop s.ipos.toNat) = ps.flatMap Prod.fst ++ rest →
    (ps = [] ∨ s.olen.toNat + ps.length ≤ s.cfg.obufCap →
      ∃ t : State, exec .unpack s = .next t ∧
        t.ipos.toNat = s.ipos.toNat + ((ps.flatMap Prod.fst).length + 7) / 8 ∧
        t.olen.toNat = s.olen.toNat + ps.length ∧
        (∀ (k : Nat) (x : Byte), (ps.map Prod.snd)[k]? = some x → t.obufByte (s.olen.toNat + k) = x) ∧
        (∀ a : Nat, a < s.olen.toNat ∨ s.olen.toNat + ps.length ≤ a → t.obufByte a = s.obufByte a) ∧
        t =
          { s with
            obuf := t.obuf, olen := t.olen, ipos := t.ipos
            status := { s.status with done := true } }) ∧
    (ps ≠ [] → s.cfg.obufCap < s.olen.toNat + ps.length →
      ∃ t : State, exec .unpack s = .next t ∧
        t =
          { s with
            obuf := t.obuf, olen := 0#32, fresh := t.fresh, err := 0x05#32, errval := 0#32
            status := { s.status with done := false, err := true } })) ∧
  (∀ (s : State) (T : HuffTree) (xs : List Byte), s.status.err = false → s.status.vCode = true →
    s.status.vCount = true → s.ilen.toNat ≤ s.cfg.ibufCap → s.cfg.wf = true → T.size ≤ 511 →
    s.trie.cells = (deriveTables T).trie → (∀ x : Byte, x ∈ xs → x ∈ T.symbols) →
    s.count.toNat = xs.length →
    s.ipos.toNat + (payload (bitsOf T.codeOf xs)).length ≤ s.ilen.toNat →
    (∀ (k : Nat) (b : Byte), (payload (bitsOf T.codeOf xs))[k]? = some b →
      s.ibufByte (s.ipos.toNat + k) = b) →
    (xs = [] ∨ s.olen.toNat + xs.length ≤ s.cfg.obufCap →
      ∃ t : State, exec .unpack s = .next t ∧
        t.ipos.toNat = s.ipos.toNat + (payload (bitsOf T.codeOf xs)).length ∧
        t.olen.toNat = s.olen.toNat + xs.length ∧
        (∀ (k : Nat) (x : Byte), xs[k]? = some x → t.obufByte (s.olen.toNat + k) = x) ∧
        (∀ a : Nat, a < s.olen.toNat ∨ s.olen.toNat + xs.length ≤ a → t.obufByte a = s.obufByte a) ∧
        t =
          { s with
            obuf := t.obuf, olen := t.olen, ipos := t.ipos
            status := { s.status with done := true } }) ∧
    (xs ≠ [] → s.cfg.obufCap < s.olen.toNat + xs.length →
      ∃ t : State, exec .unpack s = .next t ∧
        t =
          { s with
            obuf := t.obuf, olen := 0#32, fresh := t.fresh, err := 0x05#32, errval := 0#32
            status := { s.status with done := false, err := true } }))

/-- Rule R195: UNPACK with COUNT = 0 reads and appends nothing and leaves IPOS. -/
def Obligations.UnpackZeroCount : Prop :=
  ∀ s : State, s.status.err = false → s.status.vCode = true → s.status.vCount = true →
    s.ilen.toNat ≤ s.cfg.ibufCap → s.ipos.toNat ≤ s.ilen.toNat → s.count = 0#32 →
    exec .unpack s = .next { s with status := { s.status with done := true } }

/-- Rules R193, R250 to R252, with COUNT not 0: at IPOS = ILEN a bit is needed and EOS_PAYLOAD is raised, whatever
the trie. Under the trie of a tree T, on input bits that begin with codes of T (those of `ps`, pairs of a code and
its symbol): after fewer than COUNT codes, input that ends before the next code is whole is EOS_PAYLOAD with
ERRVAL = ILEN, and a '1' under a one-leaf tree is NO_MATCH with ERRVAL = the index of its byte; at the symbol that
finds no room in OBUF, whatever follows its code, OutputOverflow is raised. -/
def Obligations.UnpackFaults : Prop :=
  (∀ s : State, s.status.err = false → s.status.vCode = true → s.status.vCount = true →
    s.ilen.toNat ≤ s.cfg.ibufCap → s.count ≠ 0#32 → s.ipos = s.ilen →
      ∃ t : State, exec .unpack s = .next t ∧
        t =
          { s with
            obuf := t.obuf, olen := 0#32, fresh := t.fresh, err := 0x42#32, errval := s.ilen
            status := { s.status with done := false, err := true } }) ∧
  (∀ (s : State) (T : HuffTree) (ps : List (List Bool × Byte)) (rest : List Bool), s.status.err = false →
    s.status.vCode = true → s.status.vCount = true → s.ilen.toNat ≤ s.cfg.ibufCap → s.cfg.wf = true →
    s.ipos.toNat ≤ s.ilen.toNat → T.size ≤ 511 → s.trie.cells = (deriveTables T).trie →
    (∀ p, p ∈ ps → p ∈ T.codeTable) →
    bitsOfBytes (s.input.drop s.ipos.toNat) = ps.flatMap Prod.fst ++ rest →
    (ps.length < s.count.toNat → (ps = [] ∨ s.olen.toNat + ps.length ≤ s.cfg.obufCap) →
      (∃ p, p ∈ T.codeTable ∧ rest <+: p.1 ∧ rest ≠ p.1) →
      ∃ t : State, exec .unpack s = .next t ∧
        t =
          { s with
            obuf := t.obuf, olen := 0#32, fresh := t.fresh, err := 0x42#32, errval := s.ilen
            status := { s.status with done := false, err := true } }) ∧
    (∀ (x : Byte) (tail : List Bool), ps.length < s.count.toNat →
      (ps = [] ∨ s.olen.toNat + ps.length ≤ s.cfg.obufCap) → T = .leaf x → rest = true :: tail →
      ∃ t : State, exec .unpack s = .next t ∧
        t =
          { s with
            obuf := t.obuf, olen := 0#32, fresh := t.fresh
            err := 0x52#32, errval := toWord (s.ipos.toNat + ps.length / 8)
            status := { s.status with done := false, err := true } }) ∧
    (ps.length ≤ s.count.toNat → ps ≠ [] → s.cfg.obufCap < s.olen.toNat + ps.length →
      ∃ t : State, exec .unpack s = .next t ∧
        t =
          { s with
            obuf := t.obuf, olen := 0#32, fresh := t.fresh, err := 0x05#32, errval := 0#32
            status := { s.status with done := false, err := true } }))

/-! The composites (R208 to R212). -/

/-- Rules R95, R208, R209: on a non-empty input COMPRESS leaves exactly the container of the input's Huffman
tree in OBUF from index 0 when it fits, and raises OutputOverflow when it does not. -/
def Obligations.CompressMakesContainer : Prop :=
  ∀ s : State, s.status.err = false → s.ilen.toNat ≤ s.cfg.ibufCap → s.cfg.wf = true →
    1 ≤ s.ilen.toNat →
    ∃ T : HuffTree, huffmanTree (fun k => occurrences k s.input) = some T ∧
      ((container T s.input).length ≤ s.cfg.obufCap →
        ∃ t : State, exec .compress s = .next t ∧ t.output = container T s.input ∧
          (∀ a : Nat, (container T s.input).length ≤ a → t.obufByte a = s.obufByte a) ∧
          t =
            { s with
              freq := t.freq, nsym := t.nsym, node := t.node, nnode := t.nnode, root := t.root
              heap := t.heap, hsize := t.hsize, code := t.code, trie := t.trie
              obuf := t.obuf, olen := t.olen
              status := { s.status with vFreq := true, vTree := true, vCode := true, done := true } }) ∧
      (s.cfg.obufCap < (container T s.input).length →
        ∃ t : State, exec .compress s = .next t ∧ t.err = 0x05#32 ∧ t.errval = 0#32 ∧ t.olen = 0#32 ∧
          t.ipos = s.ipos ∧ t.count = s.count ∧
          t.status =
            { s.status with
              vFreq := true, vTree := true, vCode := true, done := false, err := true })

/-- Rule R209: COMPRESS gives the state that the stage script OCLR; FCNT; BUILD; DERIVE; TSER; WCNT; PACK
gives, faults included. That both sides draw the same free values after a fault is the model's choice (log 10). -/
def Obligations.CompressIsStageScript : Prop :=
  ∀ s : State, s.status.err = false → s.ilen.toNat ≤ s.cfg.ibufCap →
    exec .compress s =
      thenExec (thenExec (thenExec (thenExec (thenExec
        (exec .fcnt { s with olen := 0#32 }) .build) .derive) .tser) .wcnt) .pack

/-- Rule R211: DECOMPRESS gives the state that the stage script SETPOS 0; OCLR; TDES; RCNT; DERIVE; UNPACK
gives, except that after a fault IPOS is its value before DECOMPRESS. That both sides draw the same free values after
a fault is the model's choice (log 10). -/
def Obligations.DecompressIsStageScript : Prop :=
  ∀ s t : State, s.status.err = false → s.ilen.toNat ≤ s.cfg.ibufCap →
    thenExec (thenExec (thenExec
      (exec .tdes { s with ipos := 0#32, olen := 0#32 }) .rcnt) .derive) .unpack = .next t →
    exec .decompress s = .next (if t.status.err then { t with ipos := s.ipos } else t)

/-- Rules R101, R156, R194, R210: DECOMPRESS on input that begins with ser(T) and a count n, and whose bits go on
with n codes of T (those of `ps`; a symbol at several leaves may come by any of its codes), leaves the n symbols in
OBUF from index 0 and IPOS past the last byte it took a bit from, whatever follows: the unread low bits of that byte
and the bytes after it may hold anything (U8). When OBUF has no room for n symbols it raises OutputOverflow and IPOS
keeps its value (R211, R252). So on bytes that begin with the container of symbols of T under T it leaves exactly those
symbols. -/
def Obligations.DecompressDecodesContainer : Prop :=
  (∀ (s : State) (T : HuffTree) (ps : List (List Bool × Byte)) (rest : List Bool), s.status.err = false →
    s.ilen.toNat ≤ s.cfg.ibufCap → s.cfg.wf = true → T.size ≤ 511 → (∀ p, p ∈ ps → p ∈ T.codeTable) →
    ps.length < 2 ^ 32 → ser T ++ countBytes (toWord ps.length) <+: s.input →
    bitsOfBytes (s.input.drop ((ser T).length + 4)) = ps.flatMap Prod.fst ++ rest →
    (ps.length ≤ s.cfg.obufCap →
      ∃ t : State, exec .decompress s = .next t ∧ t.output = ps.map Prod.snd ∧
        t.count.toNat = ps.length ∧
        t.ipos.toNat = (ser T).length + 4 + ((ps.flatMap Prod.fst).length + 7) / 8 ∧
        (∀ a : Nat, ps.length ≤ a → t.obufByte a = s.obufByte a) ∧
        t =
          { s with
            node := t.node, nnode := t.nnode, root := t.root, code := t.code, trie := t.trie
            count := t.count, ipos := t.ipos, obuf := t.obuf, olen := t.olen
            status := { s.status with vTree := true, vCode := true, vCount := true, done := true } }) ∧
    (s.cfg.obufCap < ps.length →
      ∃ t : State, exec .decompress s = .next t ∧ t.count.toNat = ps.length ∧
        t =
          { s with
            node := t.node, nnode := t.nnode, root := t.root, code := t.code, trie := t.trie
            count := t.count, obuf := t.obuf, olen := 0#32, fresh := t.fresh, err := 0x05#32, errval := 0#32
            status :=
              { s.status with vTree := true, vCode := true, vCount := true, done := false, err := true } })) ∧
  (∀ (s : State) (T : HuffTree) (xs : List Byte), s.status.err = false → s.ilen.toNat ≤ s.cfg.ibufCap →
    s.cfg.wf = true → T.size ≤ 511 → (∀ x : Byte, x ∈ xs → x ∈ T.symbols) →
    container T xs <+: s.input → xs.length ≤ s.cfg.obufCap →
    ∃ t : State, exec .decompress s = .next t ∧ t.output = xs ∧
      t.count.toNat = xs.length ∧ t.ipos.toNat = (container T xs).length ∧
      (∀ a : Nat, xs.length ≤ a → t.obufByte a = s.obufByte a) ∧
      t =
        { s with
          node := t.node, nnode := t.nnode, root := t.root, code := t.code, trie := t.trie
          count := t.count, ipos := t.ipos, obuf := t.obuf, olen := t.olen
          status := { s.status with vTree := true, vCode := true, vCount := true, done := true } })

/-- Rule R212: what COMPRESS leaves in OBUF, presented as the input of any state of any instance with room for
the original, is decompressed to the original input. -/
def Obligations.RoundTrip : Prop :=
  ∀ s t u : State, s.status.err = false → s.cfg.wf = true → u.cfg.wf = true →
    exec .compress s = .next t → t.status.done = true →
    u.status.err = false → u.ilen.toNat ≤ u.cfg.ibufCap → u.input = t.output →
    s.ilen.toNat ≤ u.cfg.obufCap →
    ∃ v : State, exec .decompress u = .next v ∧ v.status.done = true ∧ v.output = s.input ∧
      v.count = s.ilen ∧ v.ipos = u.ilen

/-- Rules R142, R209: what COMPRESS reports and outputs depends only on the input and the instance, not on
any earlier table, register or buffer content. -/
def Obligations.CompressDependsOnlyOnInput : Prop :=
  ∀ s s' t t' : State, s.status.err = false → s'.status.err = false → s.cfg = s'.cfg → s.cfg.wf = true →
    s.ilen.toNat ≤ s.cfg.ibufCap → s.ilen = s'.ilen → s.input = s'.input →
    exec .compress s = .next t → exec .compress s' = .next t' →
    t.output = t'.output ∧ t.status.done = t'.status.done ∧ t.status.err = t'.status.err ∧
    (t.status.err = true → t.err = t'.err ∧ t.errval = t'.errval)

/-! Invariants of a run. -/

/-- The four invariants hold after reset, of the instance of `State.reset` and of every legal instance. -/
def Obligations.ResetMeetsInvariants : Prop :=
  (State.reset.Canonical ∧ State.reset.RecordOk ∧ State.reset.RangesOk ∧ State.reset.TablesOk) ∧
  (∀ (c : Config) (n : Nat), c.wf = true →
    (State.resetOf c n).Canonical ∧ (State.resetOf c n).RecordOk ∧ (State.resetOf c n).RangesOk ∧
    (State.resetOf c n).TablesOk)

/-- Every step keeps the canonical form: that the buffers hold only bytes the instance has is rules R60, R68; that
addresses strictly rise in every list is no rule of the spec but the model's own choice of how it writes a table or
a buffer down (log 15, DESIGN CHOICE). -/
def Obligations.StepKeepsCanonicalForm : Prop :=
  ∀ s t : State, s.Canonical → step s = .next t → t.Canonical ∧ t.cfg = s.cfg

/-- Rules R22 to R24, R236: every step keeps the fault record consistent. -/
def Obligations.StepKeepsFaultRecord : Prop :=
  ∀ s t : State, s.RecordOk → step s = .next t → t.RecordOk

/-- Rules R29 to R31, R38: every step keeps NSYM, ROOT, NNODE and HSIZE in their ranges. That the free values after
a faulting BUILD or TDES lie in them is the model's choice (log 6). -/
def Obligations.StepKeepsRegisterRanges : Prop :=
  ∀ s t : State, s.RangesOk → step s = .next t → t.RangesOk

/-- Rules R22, R34, R37, R45: every step keeps what the valid flags say of the tables. -/
def Obligations.StepKeepsTablesValid : Prop :=
  ∀ s t : State, s.TablesOk → step s = .next t → t.TablesOk

/-- Rules R235, R275: in a state whose valid flags are true of its tables, every command ends in a next
state: completion or a fault of the block, never a stop of the model. -/
def Obligations.EveryCommandEnds : Prop :=
  ∀ (s : State) (i : Instr), s.TablesOk → ∃ t : State, exec i s = .next t
end

