-- ==== Sys2Proof/Laws/State.lean ====
section
/-! SUPPORT. The named updates of State, one lemma per field per update, all true by definition. -/

namespace Sys2Proof.Machine

/-! `clearDone`, field by field. -/

@[simp] theorem State.clearDone_cfg (s : State) : s.clearDone.cfg = s.cfg := rfl
@[simp] theorem State.clearDone_status (s : State) : s.clearDone.status = { s.status with done := false } := rfl
@[simp] theorem State.clearDone_err (s : State) : s.clearDone.err = s.err := rfl
@[simp] theorem State.clearDone_errval (s : State) : s.clearDone.errval = s.errval := rfl
@[simp] theorem State.clearDone_ilen (s : State) : s.clearDone.ilen = s.ilen := rfl
@[simp] theorem State.clearDone_ipos (s : State) : s.clearDone.ipos = s.ipos := rfl
@[simp] theorem State.clearDone_olen (s : State) : s.clearDone.olen = s.olen := rfl
@[simp] theorem State.clearDone_count (s : State) : s.clearDone.count = s.count := rfl
@[simp] theorem State.clearDone_nsym (s : State) : s.clearDone.nsym = s.nsym := rfl
@[simp] theorem State.clearDone_root (s : State) : s.clearDone.root = s.root := rfl
@[simp] theorem State.clearDone_nnode (s : State) : s.clearDone.nnode = s.nnode := rfl
@[simp] theorem State.clearDone_freq (s : State) : s.clearDone.freq = s.freq := rfl
@[simp] theorem State.clearDone_node (s : State) : s.clearDone.node = s.node := rfl
@[simp] theorem State.clearDone_heap (s : State) : s.clearDone.heap = s.heap := rfl
@[simp] theorem State.clearDone_hsize (s : State) : s.clearDone.hsize = s.hsize := rfl
@[simp] theorem State.clearDone_code (s : State) : s.clearDone.code = s.code := rfl
@[simp] theorem State.clearDone_trie (s : State) : s.clearDone.trie = s.trie := rfl
@[simp] theorem State.clearDone_ibuf (s : State) : s.clearDone.ibuf = s.ibuf := rfl
@[simp] theorem State.clearDone_obuf (s : State) : s.clearDone.obuf = s.obuf := rfl
@[simp] theorem State.clearDone_fresh (s : State) : s.clearDone.fresh = s.fresh := rfl
@[simp] theorem State.clearDone_rdata (s : State) : s.clearDone.rdata = s.rdata := rfl
@[simp] theorem State.clearDone_script (s : State) : s.clearDone.script = s.script := rfl

/-! `setDone`, field by field. -/

@[simp] theorem State.setDone_cfg (s : State) : s.setDone.cfg = s.cfg := rfl
@[simp] theorem State.setDone_status (s : State) : s.setDone.status = { s.status with done := true } := rfl
@[simp] theorem State.setDone_err (s : State) : s.setDone.err = s.err := rfl
@[simp] theorem State.setDone_errval (s : State) : s.setDone.errval = s.errval := rfl
@[simp] theorem State.setDone_ilen (s : State) : s.setDone.ilen = s.ilen := rfl
@[simp] theorem State.setDone_ipos (s : State) : s.setDone.ipos = s.ipos := rfl
@[simp] theorem State.setDone_olen (s : State) : s.setDone.olen = s.olen := rfl
@[simp] theorem State.setDone_count (s : State) : s.setDone.count = s.count := rfl
@[simp] theorem State.setDone_nsym (s : State) : s.setDone.nsym = s.nsym := rfl
@[simp] theorem State.setDone_root (s : State) : s.setDone.root = s.root := rfl
@[simp] theorem State.setDone_nnode (s : State) : s.setDone.nnode = s.nnode := rfl
@[simp] theorem State.setDone_freq (s : State) : s.setDone.freq = s.freq := rfl
@[simp] theorem State.setDone_node (s : State) : s.setDone.node = s.node := rfl
@[simp] theorem State.setDone_heap (s : State) : s.setDone.heap = s.heap := rfl
@[simp] theorem State.setDone_hsize (s : State) : s.setDone.hsize = s.hsize := rfl
@[simp] theorem State.setDone_code (s : State) : s.setDone.code = s.code := rfl
@[simp] theorem State.setDone_trie (s : State) : s.setDone.trie = s.trie := rfl
@[simp] theorem State.setDone_ibuf (s : State) : s.setDone.ibuf = s.ibuf := rfl
@[simp] theorem State.setDone_obuf (s : State) : s.setDone.obuf = s.obuf := rfl
@[simp] theorem State.setDone_fresh (s : State) : s.setDone.fresh = s.fresh := rfl
@[simp] theorem State.setDone_rdata (s : State) : s.setDone.rdata = s.rdata := rfl
@[simp] theorem State.setDone_script (s : State) : s.setDone.script = s.script := rfl

/-! `clearTreeFlags`, field by field. -/

@[simp] theorem State.clearTreeFlags_cfg (s : State) : s.clearTreeFlags.cfg = s.cfg := rfl
@[simp] theorem State.clearTreeFlags_status (s : State) :
    s.clearTreeFlags.status = { s.status with vTree := false, vCode := false } := rfl
@[simp] theorem State.clearTreeFlags_err (s : State) : s.clearTreeFlags.err = s.err := rfl
@[simp] theorem State.clearTreeFlags_errval (s : State) : s.clearTreeFlags.errval = s.errval := rfl
@[simp] theorem State.clearTreeFlags_ilen (s : State) : s.clearTreeFlags.ilen = s.ilen := rfl
@[simp] theorem State.clearTreeFlags_ipos (s : State) : s.clearTreeFlags.ipos = s.ipos := rfl
@[simp] theorem State.clearTreeFlags_olen (s : State) : s.clearTreeFlags.olen = s.olen := rfl
@[simp] theorem State.clearTreeFlags_count (s : State) : s.clearTreeFlags.count = s.count := rfl
@[simp] theorem State.clearTreeFlags_nsym (s : State) : s.clearTreeFlags.nsym = s.nsym := rfl
@[simp] theorem State.clearTreeFlags_root (s : State) : s.clearTreeFlags.root = s.root := rfl
@[simp] theorem State.clearTreeFlags_nnode (s : State) : s.clearTreeFlags.nnode = s.nnode := rfl
@[simp] theorem State.clearTreeFlags_freq (s : State) : s.clearTreeFlags.freq = s.freq := rfl
@[simp] theorem State.clearTreeFlags_node (s : State) : s.clearTreeFlags.node = s.node := rfl
@[simp] theorem State.clearTreeFlags_heap (s : State) : s.clearTreeFlags.heap = s.heap := rfl
@[simp] theorem State.clearTreeFlags_hsize (s : State) : s.clearTreeFlags.hsize = s.hsize := rfl
@[simp] theorem State.clearTreeFlags_code (s : State) : s.clearTreeFlags.code = s.code := rfl
@[simp] theorem State.clearTreeFlags_trie (s : State) : s.clearTreeFlags.trie = s.trie := rfl
@[simp] theorem State.clearTreeFlags_ibuf (s : State) : s.clearTreeFlags.ibuf = s.ibuf := rfl
@[simp] theorem State.clearTreeFlags_obuf (s : State) : s.clearTreeFlags.obuf = s.obuf := rfl
@[simp] theorem State.clearTreeFlags_fresh (s : State) : s.clearTreeFlags.fresh = s.fresh := rfl
@[simp] theorem State.clearTreeFlags_rdata (s : State) : s.clearTreeFlags.rdata = s.rdata := rfl
@[simp] theorem State.clearTreeFlags_script (s : State) : s.clearTreeFlags.script = s.script := rfl

/-! `setVFreq`, field by field. -/

@[simp] theorem State.setVFreq_cfg (s : State) : s.setVFreq.cfg = s.cfg := rfl
@[simp] theorem State.setVFreq_status (s : State) : s.setVFreq.status = { s.status with vFreq := true } := rfl
@[simp] theorem State.setVFreq_err (s : State) : s.setVFreq.err = s.err := rfl
@[simp] theorem State.setVFreq_errval (s : State) : s.setVFreq.errval = s.errval := rfl
@[simp] theorem State.setVFreq_ilen (s : State) : s.setVFreq.ilen = s.ilen := rfl
@[simp] theorem State.setVFreq_ipos (s : State) : s.setVFreq.ipos = s.ipos := rfl
@[simp] theorem State.setVFreq_olen (s : State) : s.setVFreq.olen = s.olen := rfl
@[simp] theorem State.setVFreq_count (s : State) : s.setVFreq.count = s.count := rfl
@[simp] theorem State.setVFreq_nsym (s : State) : s.setVFreq.nsym = s.nsym := rfl
@[simp] theorem State.setVFreq_root (s : State) : s.setVFreq.root = s.root := rfl
@[simp] theorem State.setVFreq_nnode (s : State) : s.setVFreq.nnode = s.nnode := rfl
@[simp] theorem State.setVFreq_freq (s : State) : s.setVFreq.freq = s.freq := rfl
@[simp] theorem State.setVFreq_node (s : State) : s.setVFreq.node = s.node := rfl
@[simp] theorem State.setVFreq_heap (s : State) : s.setVFreq.heap = s.heap := rfl
@[simp] theorem State.setVFreq_hsize (s : State) : s.setVFreq.hsize = s.hsize := rfl
@[simp] theorem State.setVFreq_code (s : State) : s.setVFreq.code = s.code := rfl
@[simp] theorem State.setVFreq_trie (s : State) : s.setVFreq.trie = s.trie := rfl
@[simp] theorem State.setVFreq_ibuf (s : State) : s.setVFreq.ibuf = s.ibuf := rfl
@[simp] theorem State.setVFreq_obuf (s : State) : s.setVFreq.obuf = s.obuf := rfl
@[simp] theorem State.setVFreq_fresh (s : State) : s.setVFreq.fresh = s.fresh := rfl
@[simp] theorem State.setVFreq_rdata (s : State) : s.setVFreq.rdata = s.rdata := rfl
@[simp] theorem State.setVFreq_script (s : State) : s.setVFreq.script = s.script := rfl

/-! `setVTree`, field by field. -/

@[simp] theorem State.setVTree_cfg (s : State) : s.setVTree.cfg = s.cfg := rfl
@[simp] theorem State.setVTree_status (s : State) : s.setVTree.status = { s.status with vTree := true } := rfl
@[simp] theorem State.setVTree_err (s : State) : s.setVTree.err = s.err := rfl
@[simp] theorem State.setVTree_errval (s : State) : s.setVTree.errval = s.errval := rfl
@[simp] theorem State.setVTree_ilen (s : State) : s.setVTree.ilen = s.ilen := rfl
@[simp] theorem State.setVTree_ipos (s : State) : s.setVTree.ipos = s.ipos := rfl
@[simp] theorem State.setVTree_olen (s : State) : s.setVTree.olen = s.olen := rfl
@[simp] theorem State.setVTree_count (s : State) : s.setVTree.count = s.count := rfl
@[simp] theorem State.setVTree_nsym (s : State) : s.setVTree.nsym = s.nsym := rfl
@[simp] theorem State.setVTree_root (s : State) : s.setVTree.root = s.root := rfl
@[simp] theorem State.setVTree_nnode (s : State) : s.setVTree.nnode = s.nnode := rfl
@[simp] theorem State.setVTree_freq (s : State) : s.setVTree.freq = s.freq := rfl
@[simp] theorem State.setVTree_node (s : State) : s.setVTree.node = s.node := rfl
@[simp] theorem State.setVTree_heap (s : State) : s.setVTree.heap = s.heap := rfl
@[simp] theorem State.setVTree_hsize (s : State) : s.setVTree.hsize = s.hsize := rfl
@[simp] theorem State.setVTree_code (s : State) : s.setVTree.code = s.code := rfl
@[simp] theorem State.setVTree_trie (s : State) : s.setVTree.trie = s.trie := rfl
@[simp] theorem State.setVTree_ibuf (s : State) : s.setVTree.ibuf = s.ibuf := rfl
@[simp] theorem State.setVTree_obuf (s : State) : s.setVTree.obuf = s.obuf := rfl
@[simp] theorem State.setVTree_fresh (s : State) : s.setVTree.fresh = s.fresh := rfl
@[simp] theorem State.setVTree_rdata (s : State) : s.setVTree.rdata = s.rdata := rfl
@[simp] theorem State.setVTree_script (s : State) : s.setVTree.script = s.script := rfl

/-! `putVCode`, field by field. -/

@[simp] theorem State.putVCode_cfg (s : State) (b : Bool) : (s.putVCode b).cfg = s.cfg := rfl
@[simp] theorem State.putVCode_status (s : State) (b : Bool) :
    (s.putVCode b).status = { s.status with vCode := b } := rfl
@[simp] theorem State.putVCode_err (s : State) (b : Bool) : (s.putVCode b).err = s.err := rfl
@[simp] theorem State.putVCode_errval (s : State) (b : Bool) : (s.putVCode b).errval = s.errval := rfl
@[simp] theorem State.putVCode_ilen (s : State) (b : Bool) : (s.putVCode b).ilen = s.ilen := rfl
@[simp] theorem State.putVCode_ipos (s : State) (b : Bool) : (s.putVCode b).ipos = s.ipos := rfl
@[simp] theorem State.putVCode_olen (s : State) (b : Bool) : (s.putVCode b).olen = s.olen := rfl
@[simp] theorem State.putVCode_count (s : State) (b : Bool) : (s.putVCode b).count = s.count := rfl
@[simp] theorem State.putVCode_nsym (s : State) (b : Bool) : (s.putVCode b).nsym = s.nsym := rfl
@[simp] theorem State.putVCode_root (s : State) (b : Bool) : (s.putVCode b).root = s.root := rfl
@[simp] theorem State.putVCode_nnode (s : State) (b : Bool) : (s.putVCode b).nnode = s.nnode := rfl
@[simp] theorem State.putVCode_freq (s : State) (b : Bool) : (s.putVCode b).freq = s.freq := rfl
@[simp] theorem State.putVCode_node (s : State) (b : Bool) : (s.putVCode b).node = s.node := rfl
@[simp] theorem State.putVCode_heap (s : State) (b : Bool) : (s.putVCode b).heap = s.heap := rfl
@[simp] theorem State.putVCode_hsize (s : State) (b : Bool) : (s.putVCode b).hsize = s.hsize := rfl
@[simp] theorem State.putVCode_code (s : State) (b : Bool) : (s.putVCode b).code = s.code := rfl
@[simp] theorem State.putVCode_trie (s : State) (b : Bool) : (s.putVCode b).trie = s.trie := rfl
@[simp] theorem State.putVCode_ibuf (s : State) (b : Bool) : (s.putVCode b).ibuf = s.ibuf := rfl
@[simp] theorem State.putVCode_obuf (s : State) (b : Bool) : (s.putVCode b).obuf = s.obuf := rfl
@[simp] theorem State.putVCode_fresh (s : State) (b : Bool) : (s.putVCode b).fresh = s.fresh := rfl
@[simp] theorem State.putVCode_rdata (s : State) (b : Bool) : (s.putVCode b).rdata = s.rdata := rfl
@[simp] theorem State.putVCode_script (s : State) (b : Bool) : (s.putVCode b).script = s.script := rfl

/-! `putVCount`, field by field. -/

@[simp] theorem State.putVCount_cfg (s : State) (b : Bool) : (s.putVCount b).cfg = s.cfg := rfl
@[simp] theorem State.putVCount_status (s : State) (b : Bool) :
    (s.putVCount b).status = { s.status with vCount := b } := rfl
@[simp] theorem State.putVCount_err (s : State) (b : Bool) : (s.putVCount b).err = s.err := rfl
@[simp] theorem State.putVCount_errval (s : State) (b : Bool) : (s.putVCount b).errval = s.errval := rfl
@[simp] theorem State.putVCount_ilen (s : State) (b : Bool) : (s.putVCount b).ilen = s.ilen := rfl
@[simp] theorem State.putVCount_ipos (s : State) (b : Bool) : (s.putVCount b).ipos = s.ipos := rfl
@[simp] theorem State.putVCount_olen (s : State) (b : Bool) : (s.putVCount b).olen = s.olen := rfl
@[simp] theorem State.putVCount_count (s : State) (b : Bool) : (s.putVCount b).count = s.count := rfl
@[simp] theorem State.putVCount_nsym (s : State) (b : Bool) : (s.putVCount b).nsym = s.nsym := rfl
@[simp] theorem State.putVCount_root (s : State) (b : Bool) : (s.putVCount b).root = s.root := rfl
@[simp] theorem State.putVCount_nnode (s : State) (b : Bool) : (s.putVCount b).nnode = s.nnode := rfl
@[simp] theorem State.putVCount_freq (s : State) (b : Bool) : (s.putVCount b).freq = s.freq := rfl
@[simp] theorem State.putVCount_node (s : State) (b : Bool) : (s.putVCount b).node = s.node := rfl
@[simp] theorem State.putVCount_heap (s : State) (b : Bool) : (s.putVCount b).heap = s.heap := rfl
@[simp] theorem State.putVCount_hsize (s : State) (b : Bool) : (s.putVCount b).hsize = s.hsize := rfl
@[simp] theorem State.putVCount_code (s : State) (b : Bool) : (s.putVCount b).code = s.code := rfl
@[simp] theorem State.putVCount_trie (s : State) (b : Bool) : (s.putVCount b).trie = s.trie := rfl
@[simp] theorem State.putVCount_ibuf (s : State) (b : Bool) : (s.putVCount b).ibuf = s.ibuf := rfl
@[simp] theorem State.putVCount_obuf (s : State) (b : Bool) : (s.putVCount b).obuf = s.obuf := rfl
@[simp] theorem State.putVCount_fresh (s : State) (b : Bool) : (s.putVCount b).fresh = s.fresh := rfl
@[simp] theorem State.putVCount_rdata (s : State) (b : Bool) : (s.putVCount b).rdata = s.rdata := rfl
@[simp] theorem State.putVCount_script (s : State) (b : Bool) : (s.putVCount b).script = s.script := rfl

/-! `pushByte`, field by field. -/

@[simp] theorem State.pushByte_cfg (s : State) (b : Byte) : (s.pushByte b).cfg = s.cfg := rfl
@[simp] theorem State.pushByte_status (s : State) (b : Byte) : (s.pushByte b).status = s.status := rfl
@[simp] theorem State.pushByte_err (s : State) (b : Byte) : (s.pushByte b).err = s.err := rfl
@[simp] theorem State.pushByte_errval (s : State) (b : Byte) : (s.pushByte b).errval = s.errval := rfl
@[simp] theorem State.pushByte_ilen (s : State) (b : Byte) : (s.pushByte b).ilen = s.ilen := rfl
@[simp] theorem State.pushByte_ipos (s : State) (b : Byte) : (s.pushByte b).ipos = s.ipos := rfl
@[simp] theorem State.pushByte_olen (s : State) (b : Byte) :
    (s.pushByte b).olen = toWord (s.olen.toNat + 1) := rfl
@[simp] theorem State.pushByte_count (s : State) (b : Byte) : (s.pushByte b).count = s.count := rfl
@[simp] theorem State.pushByte_nsym (s : State) (b : Byte) : (s.pushByte b).nsym = s.nsym := rfl
@[simp] theorem State.pushByte_root (s : State) (b : Byte) : (s.pushByte b).root = s.root := rfl
@[simp] theorem State.pushByte_nnode (s : State) (b : Byte) : (s.pushByte b).nnode = s.nnode := rfl
@[simp] theorem State.pushByte_freq (s : State) (b : Byte) : (s.pushByte b).freq = s.freq := rfl
@[simp] theorem State.pushByte_node (s : State) (b : Byte) : (s.pushByte b).node = s.node := rfl
@[simp] theorem State.pushByte_heap (s : State) (b : Byte) : (s.pushByte b).heap = s.heap := rfl
@[simp] theorem State.pushByte_hsize (s : State) (b : Byte) : (s.pushByte b).hsize = s.hsize := rfl
@[simp] theorem State.pushByte_code (s : State) (b : Byte) : (s.pushByte b).code = s.code := rfl
@[simp] theorem State.pushByte_trie (s : State) (b : Byte) : (s.pushByte b).trie = s.trie := rfl
@[simp] theorem State.pushByte_ibuf (s : State) (b : Byte) : (s.pushByte b).ibuf = s.ibuf := rfl
@[simp] theorem State.pushByte_obuf (s : State) (b : Byte) :
    (s.pushByte b).obuf = s.obuf.set s.olen.toNat b := rfl
@[simp] theorem State.pushByte_fresh (s : State) (b : Byte) : (s.pushByte b).fresh = s.fresh := rfl
@[simp] theorem State.pushByte_rdata (s : State) (b : Byte) : (s.pushByte b).rdata = s.rdata := rfl
@[simp] theorem State.pushByte_script (s : State) (b : Byte) : (s.pushByte b).script = s.script := rfl

/-! `discardOutput`, field by field. -/

@[simp] theorem State.discardOutput_cfg (s : State) (p : Word) : (s.discardOutput p).cfg = s.cfg := rfl
@[simp] theorem State.discardOutput_status (s : State) (p : Word) : (s.discardOutput p).status = s.status := rfl
@[simp] theorem State.discardOutput_err (s : State) (p : Word) : (s.discardOutput p).err = s.err := rfl
@[simp] theorem State.discardOutput_errval (s : State) (p : Word) : (s.discardOutput p).errval = s.errval := rfl
@[simp] theorem State.discardOutput_ilen (s : State) (p : Word) : (s.discardOutput p).ilen = s.ilen := rfl
@[simp] theorem State.discardOutput_ipos (s : State) (p : Word) : (s.discardOutput p).ipos = p := rfl
@[simp] theorem State.discardOutput_olen (s : State) (p : Word) : (s.discardOutput p).olen = 0#32 := rfl
@[simp] theorem State.discardOutput_count (s : State) (p : Word) : (s.discardOutput p).count = s.count := rfl
@[simp] theorem State.discardOutput_nsym (s : State) (p : Word) : (s.discardOutput p).nsym = s.nsym := rfl
@[simp] theorem State.discardOutput_root (s : State) (p : Word) : (s.discardOutput p).root = s.root := rfl
@[simp] theorem State.discardOutput_nnode (s : State) (p : Word) : (s.discardOutput p).nnode = s.nnode := rfl
@[simp] theorem State.discardOutput_freq (s : State) (p : Word) : (s.discardOutput p).freq = s.freq := rfl
@[simp] theorem State.discardOutput_node (s : State) (p : Word) : (s.discardOutput p).node = s.node := rfl
@[simp] theorem State.discardOutput_heap (s : State) (p : Word) : (s.discardOutput p).heap = s.heap := rfl
@[simp] theorem State.discardOutput_hsize (s : State) (p : Word) : (s.discardOutput p).hsize = s.hsize := rfl
@[simp] theorem State.discardOutput_code (s : State) (p : Word) : (s.discardOutput p).code = s.code := rfl
@[simp] theorem State.discardOutput_trie (s : State) (p : Word) : (s.discardOutput p).trie = s.trie := rfl
@[simp] theorem State.discardOutput_ibuf (s : State) (p : Word) : (s.discardOutput p).ibuf = s.ibuf := rfl
@[simp] theorem State.discardOutput_obuf (s : State) (p : Word) :
    (s.discardOutput p).obuf = Store.blank s.fresh := rfl
@[simp] theorem State.discardOutput_fresh (s : State) (p : Word) :
    (s.discardOutput p).fresh = s.fresh + 1 := rfl
@[simp] theorem State.discardOutput_rdata (s : State) (p : Word) : (s.discardOutput p).rdata = s.rdata := rfl
@[simp] theorem State.discardOutput_script (s : State) (p : Word) : (s.discardOutput p).script = s.script := rfl

/-! `spoilTree`, field by field. -/

@[simp] theorem State.spoilTree_cfg (s : State) : s.spoilTree.cfg = s.cfg := rfl
@[simp] theorem State.spoilTree_status (s : State) : s.spoilTree.status = s.status := rfl
@[simp] theorem State.spoilTree_err (s : State) : s.spoilTree.err = s.err := rfl
@[simp] theorem State.spoilTree_errval (s : State) : s.spoilTree.errval = s.errval := rfl
@[simp] theorem State.spoilTree_ilen (s : State) : s.spoilTree.ilen = s.ilen := rfl
@[simp] theorem State.spoilTree_ipos (s : State) : s.spoilTree.ipos = s.ipos := rfl
@[simp] theorem State.spoilTree_olen (s : State) : s.spoilTree.olen = s.olen := rfl
@[simp] theorem State.spoilTree_count (s : State) : s.spoilTree.count = s.count := rfl
@[simp] theorem State.spoilTree_nsym (s : State) : s.spoilTree.nsym = s.nsym := rfl
@[simp] theorem State.spoilTree_root (s : State) :
    s.spoilTree.root = toWord (Config.freeRoot s.fresh).val := rfl
@[simp] theorem State.spoilTree_nnode (s : State) :
    s.spoilTree.nnode = toWord (Config.freeNnode s.fresh).val := rfl
@[simp] theorem State.spoilTree_freq (s : State) : s.spoilTree.freq = s.freq := rfl
@[simp] theorem State.spoilTree_node (s : State) : s.spoilTree.node = Store.blank s.fresh := rfl
@[simp] theorem State.spoilTree_heap (s : State) : s.spoilTree.heap = Store.blank s.fresh := rfl
@[simp] theorem State.spoilTree_hsize (s : State) :
    s.spoilTree.hsize = BitVec.ofNat 9 (Config.freeHsize s.fresh).val := rfl
@[simp] theorem State.spoilTree_code (s : State) : s.spoilTree.code = s.code := rfl
@[simp] theorem State.spoilTree_trie (s : State) : s.spoilTree.trie = s.trie := rfl
@[simp] theorem State.spoilTree_ibuf (s : State) : s.spoilTree.ibuf = s.ibuf := rfl
@[simp] theorem State.spoilTree_obuf (s : State) : s.spoilTree.obuf = s.obuf := rfl
@[simp] theorem State.spoilTree_fresh (s : State) : s.spoilTree.fresh = s.fresh + 1 := rfl
@[simp] theorem State.spoilTree_rdata (s : State) : s.spoilTree.rdata = s.rdata := rfl
@[simp] theorem State.spoilTree_script (s : State) : s.spoilTree.script = s.script := rfl

/-! `recordFault`, field by field. -/

@[simp] theorem State.recordFault_cfg (s : State) (k : FaultKind) (v : Word) :
    (s.recordFault k v).cfg = s.cfg := rfl
@[simp] theorem State.recordFault_status (s : State) (k : FaultKind) (v : Word) :
    (s.recordFault k v).status = { s.status with done := false, err := true } := rfl
@[simp] theorem State.recordFault_err (s : State) (k : FaultKind) (v : Word) :
    (s.recordFault k v).err = k.errWord := rfl
@[simp] theorem State.recordFault_errval (s : State) (k : FaultKind) (v : Word) :
    (s.recordFault k v).errval = v := rfl
@[simp] theorem State.recordFault_ilen (s : State) (k : FaultKind) (v : Word) :
    (s.recordFault k v).ilen = s.ilen := rfl
@[simp] theorem State.recordFault_ipos (s : State) (k : FaultKind) (v : Word) :
    (s.recordFault k v).ipos = s.ipos := rfl
@[simp] theorem State.recordFault_olen (s : State) (k : FaultKind) (v : Word) :
    (s.recordFault k v).olen = s.olen := rfl
@[simp] theorem State.recordFault_count (s : State) (k : FaultKind) (v : Word) :
    (s.recordFault k v).count = s.count := rfl
@[simp] theorem State.recordFault_nsym (s : State) (k : FaultKind) (v : Word) :
    (s.recordFault k v).nsym = s.nsym := rfl
@[simp] theorem State.recordFault_root (s : State) (k : FaultKind) (v : Word) :
    (s.recordFault k v).root = s.root := rfl
@[simp] theorem State.recordFault_nnode (s : State) (k : FaultKind) (v : Word) :
    (s.recordFault k v).nnode = s.nnode := rfl
@[simp] theorem State.recordFault_freq (s : State) (k : FaultKind) (v : Word) :
    (s.recordFault k v).freq = s.freq := rfl
@[simp] theorem State.recordFault_node (s : State) (k : FaultKind) (v : Word) :
    (s.recordFault k v).node = s.node := rfl
@[simp] theorem State.recordFault_heap (s : State) (k : FaultKind) (v : Word) :
    (s.recordFault k v).heap = s.heap := rfl
@[simp] theorem State.recordFault_hsize (s : State) (k : FaultKind) (v : Word) :
    (s.recordFault k v).hsize = s.hsize := rfl
@[simp] theorem State.recordFault_code (s : State) (k : FaultKind) (v : Word) :
    (s.recordFault k v).code = s.code := rfl
@[simp] theorem State.recordFault_trie (s : State) (k : FaultKind) (v : Word) :
    (s.recordFault k v).trie = s.trie := rfl
@[simp] theorem State.recordFault_ibuf (s : State) (k : FaultKind) (v : Word) :
    (s.recordFault k v).ibuf = s.ibuf := rfl
@[simp] theorem State.recordFault_obuf (s : State) (k : FaultKind) (v : Word) :
    (s.recordFault k v).obuf = s.obuf := rfl
@[simp] theorem State.recordFault_fresh (s : State) (k : FaultKind) (v : Word) :
    (s.recordFault k v).fresh = s.fresh := rfl
@[simp] theorem State.recordFault_rdata (s : State) (k : FaultKind) (v : Word) :
    (s.recordFault k v).rdata = s.rdata := rfl
@[simp] theorem State.recordFault_script (s : State) (k : FaultKind) (v : Word) :
    (s.recordFault k v).script = s.script := rfl

/-! `clearFault`, field by field. -/

@[simp] theorem State.clearFault_cfg (s : State) : s.clearFault.cfg = s.cfg := rfl
@[simp] theorem State.clearFault_status (s : State) :
    s.clearFault.status = { s.status with err := false } := rfl
@[simp] theorem State.clearFault_err (s : State) : s.clearFault.err = 0#32 := rfl
@[simp] theorem State.clearFault_errval (s : State) : s.clearFault.errval = 0#32 := rfl
@[simp] theorem State.clearFault_ilen (s : State) : s.clearFault.ilen = s.ilen := rfl
@[simp] theorem State.clearFault_ipos (s : State) : s.clearFault.ipos = s.ipos := rfl
@[simp] theorem State.clearFault_olen (s : State) : s.clearFault.olen = s.olen := rfl
@[simp] theorem State.clearFault_count (s : State) : s.clearFault.count = s.count := rfl
@[simp] theorem State.clearFault_nsym (s : State) : s.clearFault.nsym = s.nsym := rfl
@[simp] theorem State.clearFault_root (s : State) : s.clearFault.root = s.root := rfl
@[simp] theorem State.clearFault_nnode (s : State) : s.clearFault.nnode = s.nnode := rfl
@[simp] theorem State.clearFault_freq (s : State) : s.clearFault.freq = s.freq := rfl
@[simp] theorem State.clearFault_node (s : State) : s.clearFault.node = s.node := rfl
@[simp] theorem State.clearFault_heap (s : State) : s.clearFault.heap = s.heap := rfl
@[simp] theorem State.clearFault_hsize (s : State) : s.clearFault.hsize = s.hsize := rfl
@[simp] theorem State.clearFault_code (s : State) : s.clearFault.code = s.code := rfl
@[simp] theorem State.clearFault_trie (s : State) : s.clearFault.trie = s.trie := rfl
@[simp] theorem State.clearFault_ibuf (s : State) : s.clearFault.ibuf = s.ibuf := rfl
@[simp] theorem State.clearFault_obuf (s : State) : s.clearFault.obuf = s.obuf := rfl
@[simp] theorem State.clearFault_fresh (s : State) : s.clearFault.fresh = s.fresh := rfl
@[simp] theorem State.clearFault_rdata (s : State) : s.clearFault.rdata = s.rdata := rfl
@[simp] theorem State.clearFault_script (s : State) : s.clearFault.script = s.script := rfl

/-! `answer`, field by field. -/

@[simp] theorem State.answer_cfg (s : State) (w : Word) : (s.answer w).cfg = s.cfg := rfl
@[simp] theorem State.answer_status (s : State) (w : Word) : (s.answer w).status = s.status := rfl
@[simp] theorem State.answer_err (s : State) (w : Word) : (s.answer w).err = s.err := rfl
@[simp] theorem State.answer_errval (s : State) (w : Word) : (s.answer w).errval = s.errval := rfl
@[simp] theorem State.answer_ilen (s : State) (w : Word) : (s.answer w).ilen = s.ilen := rfl
@[simp] theorem State.answer_ipos (s : State) (w : Word) : (s.answer w).ipos = s.ipos := rfl
@[simp] theorem State.answer_olen (s : State) (w : Word) : (s.answer w).olen = s.olen := rfl
@[simp] theorem State.answer_count (s : State) (w : Word) : (s.answer w).count = s.count := rfl
@[simp] theorem State.answer_nsym (s : State) (w : Word) : (s.answer w).nsym = s.nsym := rfl
@[simp] theorem State.answer_root (s : State) (w : Word) : (s.answer w).root = s.root := rfl
@[simp] theorem State.answer_nnode (s : State) (w : Word) : (s.answer w).nnode = s.nnode := rfl
@[simp] theorem State.answer_freq (s : State) (w : Word) : (s.answer w).freq = s.freq := rfl
@[simp] theorem State.answer_node (s : State) (w : Word) : (s.answer w).node = s.node := rfl
@[simp] theorem State.answer_heap (s : State) (w : Word) : (s.answer w).heap = s.heap := rfl
@[simp] theorem State.answer_hsize (s : State) (w : Word) : (s.answer w).hsize = s.hsize := rfl
@[simp] theorem State.answer_code (s : State) (w : Word) : (s.answer w).code = s.code := rfl
@[simp] theorem State.answer_trie (s : State) (w : Word) : (s.answer w).trie = s.trie := rfl
@[simp] theorem State.answer_ibuf (s : State) (w : Word) : (s.answer w).ibuf = s.ibuf := rfl
@[simp] theorem State.answer_obuf (s : State) (w : Word) : (s.answer w).obuf = s.obuf := rfl
@[simp] theorem State.answer_fresh (s : State) (w : Word) : (s.answer w).fresh = s.fresh := rfl
@[simp] theorem State.answer_rdata (s : State) (w : Word) : (s.answer w).rdata = w := rfl
@[simp] theorem State.answer_script (s : State) (w : Word) : (s.answer w).script = s.script := rfl

/-! `answerFree`, field by field. -/

@[simp] theorem State.answerFree_cfg (s : State) (w : Word) : (s.answerFree w).cfg = s.cfg := rfl
@[simp] theorem State.answerFree_status (s : State) (w : Word) : (s.answerFree w).status = s.status := rfl
@[simp] theorem State.answerFree_err (s : State) (w : Word) : (s.answerFree w).err = s.err := rfl
@[simp] theorem State.answerFree_errval (s : State) (w : Word) : (s.answerFree w).errval = s.errval := rfl
@[simp] theorem State.answerFree_ilen (s : State) (w : Word) : (s.answerFree w).ilen = s.ilen := rfl
@[simp] theorem State.answerFree_ipos (s : State) (w : Word) : (s.answerFree w).ipos = s.ipos := rfl
@[simp] theorem State.answerFree_olen (s : State) (w : Word) : (s.answerFree w).olen = s.olen := rfl
@[simp] theorem State.answerFree_count (s : State) (w : Word) : (s.answerFree w).count = s.count := rfl
@[simp] theorem State.answerFree_nsym (s : State) (w : Word) : (s.answerFree w).nsym = s.nsym := rfl
@[simp] theorem State.answerFree_root (s : State) (w : Word) : (s.answerFree w).root = s.root := rfl
@[simp] theorem State.answerFree_nnode (s : State) (w : Word) : (s.answerFree w).nnode = s.nnode := rfl
@[simp] theorem State.answerFree_freq (s : State) (w : Word) : (s.answerFree w).freq = s.freq := rfl
@[simp] theorem State.answerFree_node (s : State) (w : Word) : (s.answerFree w).node = s.node := rfl
@[simp] theorem State.answerFree_heap (s : State) (w : Word) : (s.answerFree w).heap = s.heap := rfl
@[simp] theorem State.answerFree_hsize (s : State) (w : Word) : (s.answerFree w).hsize = s.hsize := rfl
@[simp] theorem State.answerFree_code (s : State) (w : Word) : (s.answerFree w).code = s.code := rfl
@[simp] theorem State.answerFree_trie (s : State) (w : Word) : (s.answerFree w).trie = s.trie := rfl
@[simp] theorem State.answerFree_ibuf (s : State) (w : Word) : (s.answerFree w).ibuf = s.ibuf := rfl
@[simp] theorem State.answerFree_obuf (s : State) (w : Word) : (s.answerFree w).obuf = s.obuf := rfl
@[simp] theorem State.answerFree_fresh (s : State) (w : Word) : (s.answerFree w).fresh = s.fresh + 1 := rfl
@[simp] theorem State.answerFree_rdata (s : State) (w : Word) : (s.answerFree w).rdata = w := rfl
@[simp] theorem State.answerFree_script (s : State) (w : Word) : (s.answerFree w).script = s.script := rfl

/-! `softReset`, field by field. -/

@[simp] theorem State.softReset_cfg (s : State) : s.softReset.cfg = s.cfg := rfl
@[simp] theorem State.softReset_status (s : State) : s.softReset.status = Status.zero := rfl
@[simp] theorem State.softReset_err (s : State) : s.softReset.err = 0#32 := rfl
@[simp] theorem State.softReset_errval (s : State) : s.softReset.errval = 0#32 := rfl
@[simp] theorem State.softReset_ilen (s : State) : s.softReset.ilen = 0#32 := rfl
@[simp] theorem State.softReset_ipos (s : State) : s.softReset.ipos = 0#32 := rfl
@[simp] theorem State.softReset_olen (s : State) : s.softReset.olen = 0#32 := rfl
@[simp] theorem State.softReset_count (s : State) : s.softReset.count = 0#32 := rfl
@[simp] theorem State.softReset_nsym (s : State) : s.softReset.nsym = 0#32 := rfl
@[simp] theorem State.softReset_root (s : State) : s.softReset.root = 0#32 := rfl
@[simp] theorem State.softReset_nnode (s : State) : s.softReset.nnode = 0#32 := rfl
@[simp] theorem State.softReset_freq (s : State) : s.softReset.freq = Store.blank s.fresh := rfl
@[simp] theorem State.softReset_node (s : State) : s.softReset.node = Store.blank s.fresh := rfl
@[simp] theorem State.softReset_heap (s : State) : s.softReset.heap = Store.blank s.fresh := rfl
@[simp] theorem State.softReset_hsize (s : State) : s.softReset.hsize = 0#9 := rfl
@[simp] theorem State.softReset_code (s : State) : s.softReset.code = Store.blank s.fresh := rfl
@[simp] theorem State.softReset_trie (s : State) : s.softReset.trie = Store.blank s.fresh := rfl
@[simp] theorem State.softReset_ibuf (s : State) : s.softReset.ibuf = s.ibuf := rfl
@[simp] theorem State.softReset_obuf (s : State) : s.softReset.obuf = s.obuf := rfl
@[simp] theorem State.softReset_fresh (s : State) : s.softReset.fresh = s.fresh + 1 := rfl
@[simp] theorem State.softReset_rdata (s : State) : s.softReset.rdata = s.rdata := rfl
@[simp] theorem State.softReset_script (s : State) : s.softReset.script = s.script := rfl

/-! `hardwareReset`, field by field. -/

@[simp] theorem State.hardwareReset_cfg (s : State) : s.hardwareReset.cfg = s.cfg := rfl
@[simp] theorem State.hardwareReset_status (s : State) : s.hardwareReset.status = Status.zero := rfl
@[simp] theorem State.hardwareReset_err (s : State) : s.hardwareReset.err = 0#32 := rfl
@[simp] theorem State.hardwareReset_errval (s : State) : s.hardwareReset.errval = 0#32 := rfl
@[simp] theorem State.hardwareReset_ilen (s : State) : s.hardwareReset.ilen = 0#32 := rfl
@[simp] theorem State.hardwareReset_ipos (s : State) : s.hardwareReset.ipos = 0#32 := rfl
@[simp] theorem State.hardwareReset_olen (s : State) : s.hardwareReset.olen = 0#32 := rfl
@[simp] theorem State.hardwareReset_count (s : State) : s.hardwareReset.count = 0#32 := rfl
@[simp] theorem State.hardwareReset_nsym (s : State) : s.hardwareReset.nsym = 0#32 := rfl
@[simp] theorem State.hardwareReset_root (s : State) : s.hardwareReset.root = 0#32 := rfl
@[simp] theorem State.hardwareReset_nnode (s : State) : s.hardwareReset.nnode = 0#32 := rfl
@[simp] theorem State.hardwareReset_freq (s : State) : s.hardwareReset.freq = Store.blank s.fresh := rfl
@[simp] theorem State.hardwareReset_node (s : State) : s.hardwareReset.node = Store.blank s.fresh := rfl
@[simp] theorem State.hardwareReset_heap (s : State) : s.hardwareReset.heap = Store.blank s.fresh := rfl
@[simp] theorem State.hardwareReset_hsize (s : State) : s.hardwareReset.hsize = 0#9 := rfl
@[simp] theorem State.hardwareReset_code (s : State) : s.hardwareReset.code = Store.blank s.fresh := rfl
@[simp] theorem State.hardwareReset_trie (s : State) : s.hardwareReset.trie = Store.blank s.fresh := rfl
@[simp] theorem State.hardwareReset_ibuf (s : State) : s.hardwareReset.ibuf = Store.blank s.fresh := rfl
@[simp] theorem State.hardwareReset_obuf (s : State) : s.hardwareReset.obuf = Store.blank s.fresh := rfl
@[simp] theorem State.hardwareReset_fresh (s : State) : s.hardwareReset.fresh = s.fresh + 1 := rfl
@[simp] theorem State.hardwareReset_rdata (s : State) : s.hardwareReset.rdata = s.rdata := rfl
@[simp] theorem State.hardwareReset_script (s : State) : s.hardwareReset.script = s.script := rfl

/-! `withFetchWord`, field by field. -/

@[simp] theorem State.withFetchWord_cfg (s : State) (n w : Nat) : (s.withFetchWord n w).cfg = s.cfg := rfl
@[simp] theorem State.withFetchWord_status (s : State) (n w : Nat) :
    (s.withFetchWord n w).status = s.status := rfl
@[simp] theorem State.withFetchWord_err (s : State) (n w : Nat) : (s.withFetchWord n w).err = s.err := rfl
@[simp] theorem State.withFetchWord_errval (s : State) (n w : Nat) :
    (s.withFetchWord n w).errval = s.errval := rfl
@[simp] theorem State.withFetchWord_ilen (s : State) (n w : Nat) : (s.withFetchWord n w).ilen = s.ilen := rfl
@[simp] theorem State.withFetchWord_ipos (s : State) (n w : Nat) : (s.withFetchWord n w).ipos = s.ipos := rfl
@[simp] theorem State.withFetchWord_olen (s : State) (n w : Nat) : (s.withFetchWord n w).olen = s.olen := rfl
@[simp] theorem State.withFetchWord_count (s : State) (n w : Nat) : (s.withFetchWord n w).count = s.count := rfl
@[simp] theorem State.withFetchWord_nsym (s : State) (n w : Nat) : (s.withFetchWord n w).nsym = s.nsym := rfl
@[simp] theorem State.withFetchWord_root (s : State) (n w : Nat) : (s.withFetchWord n w).root = s.root := rfl
@[simp] theorem State.withFetchWord_nnode (s : State) (n w : Nat) : (s.withFetchWord n w).nnode = s.nnode := rfl
@[simp] theorem State.withFetchWord_freq (s : State) (n w : Nat) : (s.withFetchWord n w).freq = s.freq := rfl
@[simp] theorem State.withFetchWord_node (s : State) (n w : Nat) : (s.withFetchWord n w).node = s.node := rfl
@[simp] theorem State.withFetchWord_heap (s : State) (n w : Nat) : (s.withFetchWord n w).heap = s.heap := rfl
@[simp] theorem State.withFetchWord_hsize (s : State) (n w : Nat) : (s.withFetchWord n w).hsize = s.hsize := rfl
@[simp] theorem State.withFetchWord_code (s : State) (n w : Nat) : (s.withFetchWord n w).code = s.code := rfl
@[simp] theorem State.withFetchWord_trie (s : State) (n w : Nat) : (s.withFetchWord n w).trie = s.trie := rfl
@[simp] theorem State.withFetchWord_ibuf (s : State) (n w : Nat) : (s.withFetchWord n w).ibuf = s.ibuf := rfl
@[simp] theorem State.withFetchWord_obuf (s : State) (n w : Nat) : (s.withFetchWord n w).obuf = s.obuf := rfl
@[simp] theorem State.withFetchWord_fresh (s : State) (n w : Nat) : (s.withFetchWord n w).fresh = s.fresh := rfl
@[simp] theorem State.withFetchWord_rdata (s : State) (n w : Nat) : (s.withFetchWord n w).rdata = s.rdata := rfl
@[simp] theorem State.withFetchWord_script (s : State) (n w : Nat) :
    (s.withFetchWord n w).script = .access (.writeReg 0 (BitVec.ofNat 32 (w % 2 ^ n))) :: s.script := rfl

end Sys2Proof.Machine
end

