-- ==== Sys2Proof/Laws/Store.lean ====
section
/-! SUPPORT. Cell lists and stores: read after write, and the canonical form every write keeps. -/

namespace Sys2Proof.Machine

/-! ## Cell lists -/

section Cells
variable {α : Type}

@[simp] theorem lookupCell_setCell_self (i : Nat) (v : α) (l : List (Nat × α)) :
    lookupCell (setCell i v l) i = some v := by
  induction l with
  | nil => simp [setCell, lookupCell]
  | cons p rest ih =>
    obtain ⟨k, w⟩ := p
    simp only [setCell]
    split
    · simp [lookupCell]
    · split
      · simp [lookupCell]
      · rename_i h1 h2
        simp [lookupCell, ih, show ¬ k = i from fun h => h2 h.symm]

theorem lookupCell_setCell_ne {i j : Nat} (h : j ≠ i) (v : α) (l : List (Nat × α)) :
    lookupCell (setCell i v l) j = lookupCell l j := by
  induction l with
  | nil => simp [setCell, lookupCell, h.symm]
  | cons p rest ih =>
    obtain ⟨k, w⟩ := p
    simp only [setCell]
    split
    · simp [lookupCell, h.symm]
    · split
      · rename_i h1 h2
        subst h2
        simp [lookupCell, h.symm]
      · simp [lookupCell, ih]

theorem lookupCell_setCell (i j : Nat) (v : α) (l : List (Nat × α)) :
    lookupCell (setCell i v l) j = if j = i then some v else lookupCell l j := by
  by_cases h : j = i
  · subst h; simp
  · simp [h, lookupCell_setCell_ne h]

theorem risingFrom_mono {lo lo' : Nat} (h : lo' ≤ lo) {l : List (Nat × α)} (hl : risingFrom lo l = true) :
    risingFrom lo' l = true := by
  cases l with
  | nil => rfl
  | cons p rest =>
    obtain ⟨k, w⟩ := p
    simp only [risingFrom, Bool.and_eq_true, decide_eq_true_eq] at hl ⊢
    exact ⟨by omega, hl.2⟩

theorem risingFrom_setCell {lo i : Nat} (hi : lo ≤ i) (v : α) {l : List (Nat × α)}
    (hl : risingFrom lo l = true) : risingFrom lo (setCell i v l) = true := by
  induction l generalizing lo with
  | nil => simp [setCell, risingFrom, hi]
  | cons p rest ih =>
    obtain ⟨k, w⟩ := p
    simp only [risingFrom, Bool.and_eq_true, decide_eq_true_eq] at hl
    simp only [setCell]
    split
    · rename_i h
      simp only [risingFrom, Bool.and_eq_true, decide_eq_true_eq]
      exact ⟨hi, by omega, hl.2⟩
    · split
      · rename_i h1 h2
        subst h2
        simp only [risingFrom, Bool.and_eq_true, decide_eq_true_eq]
        exact ⟨hi, hl.2⟩
      · simp only [risingFrom, Bool.and_eq_true, decide_eq_true_eq]
        exact ⟨hl.1, ih (by omega) hl.2⟩

/-- Every write keeps addresses strictly rising. -/
theorem rising_setCell (i : Nat) (v : α) {l : List (Nat × α)} (hl : rising l = true) :
    rising (setCell i v l) = true := risingFrom_setCell (Nat.zero_le i) v hl

/-- A write below the bound keeps every address below it. -/
theorem keysBelow_setCell {n i : Nat} (hi : i < n) (v : α) {l : List (Nat × α)}
    (hl : keysBelow n l = true) : keysBelow n (setCell i v l) = true := by
  induction l with
  | nil => simp [setCell, keysBelow, hi]
  | cons p rest ih =>
    obtain ⟨k, w⟩ := p
    simp only [keysBelow, Bool.and_eq_true, decide_eq_true_eq] at hl
    simp only [setCell]
    split
    · simp only [keysBelow, Bool.and_eq_true, decide_eq_true_eq]; exact ⟨hi, hl⟩
    · split
      · simp only [keysBelow, Bool.and_eq_true, decide_eq_true_eq]; exact ⟨hi, hl.2⟩
      · simp only [keysBelow, Bool.and_eq_true, decide_eq_true_eq]; exact ⟨hl.1, ih hl.2⟩

/-- No address at or above the bound is listed. -/
theorem lookupCell_eq_none_of_keysBelow {n i : Nat} {l : List (Nat × α)} (hl : keysBelow n l = true)
    (hi : n ≤ i) : lookupCell l i = none := by
  induction l with
  | nil => rfl
  | cons p rest ih =>
    obtain ⟨k, w⟩ := p
    simp only [keysBelow, Bool.and_eq_true, decide_eq_true_eq] at hl
    simp [lookupCell, show ¬ k = i by omega, ih hl.2]

theorem lookupCell_map_range (f : Nat → α) (l : List Nat) (i : Nat) :
    lookupCell (l.map fun k => (k, f k)) i = if i ∈ l then some (f i) else none := by
  induction l with
  | nil => simp [lookupCell]
  | cons k rest ih =>
    simp only [List.map_cons, lookupCell, ih, List.mem_cons]
    by_cases h : k = i
    · subst h; simp
    · simp [h, show ¬ i = k from fun h' => h h'.symm]

/-- What a tabulated table lists. -/
theorem lookupCell_tabulate (n : Nat) (f : Nat → α) (i : Nat) :
    lookupCell (tabulate n f) i = if i < n then some (f i) else none := by
  simp [tabulate, lookupCell_map_range]

theorem risingFrom_tabulate_aux (f : Nat → α) (lo n : Nat) :
    risingFrom lo ((List.range' lo n).map fun k => (k, f k)) = true := by
  induction n generalizing lo with
  | zero => rfl
  | succ n ih => simp [List.range'_succ, risingFrom, ih]

theorem rising_tabulate (n : Nat) (f : Nat → α) : rising (tabulate n f) = true := by
  simp only [rising, tabulate, List.range_eq_range']
  exact risingFrom_tabulate_aux f 0 n

theorem keysBelow_map (f : Nat → α) {n : Nat} {l : List Nat} (h : ∀ k ∈ l, k < n) :
    keysBelow n (l.map fun k => (k, f k)) = true := by
  induction l with
  | nil => rfl
  | cons k rest ih =>
    simp only [List.mem_cons, forall_eq_or_imp] at h
    simp [keysBelow, h.1, ih h.2]

theorem keysBelow_tabulate (n : Nat) (f : Nat → α) : keysBelow n (tabulate n f) = true :=
  keysBelow_map f fun k hk => by simpa using hk

end Cells

/-! ## Stores -/

section Stores
variable {α : Type}

@[simp] theorem Store.get?_set_self (m : Store α) (i : Nat) (v : α) : (m.set i v).get? i = some v := by
  simp [Store.get?, Store.set]

theorem Store.get?_set_ne (m : Store α) {i j : Nat} (h : j ≠ i) (v : α) : (m.set i v).get? j = m.get? j := by
  simp [Store.get?, Store.set, lookupCell_setCell_ne h]

@[simp] theorem Store.seed_set (m : Store α) (i : Nat) (v : α) : (m.set i v).seed = m.seed := rfl

/-- A read after a write to the same place gives the value written. -/
@[simp] theorem Store.read_set_self (free : Nat → Nat → α) (m : Store α) (i : Nat) (v : α) :
    (m.set i v).read free i = v := by simp [Store.read]

/-- A write leaves every other place alone. -/
theorem Store.read_set_ne (free : Nat → Nat → α) (m : Store α) {i j : Nat} (h : j ≠ i) (v : α) :
    (m.set i v).read free j = m.read free j := by simp [Store.read, Store.get?_set_ne m h]

theorem Store.read_of_get? {free : Nat → Nat → α} {m : Store α} {i : Nat} {v : α} (h : m.get? i = some v) :
    m.read free i = v := by simp [Store.read, h]

/-- A write at a place the store has keeps its canonical form. -/
theorem Store.wf_set {bound i : Nat} (hi : i < bound) (v : α) {m : Store α} (h : m.wf bound = true) :
    (m.set i v).wf bound = true := by
  simp only [Store.wf, Bool.and_eq_true] at h ⊢
  exact ⟨rising_setCell i v h.1, keysBelow_setCell hi v h.2⟩

theorem Store.wf_blank (bound seed : Nat) : (Store.blank seed : Store α).wf bound = true := rfl

/-- A write keeps the canonical form of a byte buffer. -/
theorem Memory.wf_set {bound i : Nat} (hi : i < bound) (b : Byte) {m : Memory} (h : Memory.wf bound m = true) :
    Memory.wf bound (Store.set m i b) = true := Store.wf_set hi b h

theorem Memory.wf_blank (bound seed : Nat) : Memory.wf bound (Store.blank seed) = true := rfl

end Stores

end Sys2Proof.Machine
end

