-- ==== Sys2Proof/Laws/Ops.lean ====
section
/-! SUPPORT. The shared operations: how runs compose, what acceptance and taking a fault do, and Append. -/

namespace Sys2Proof.Machine

/-! ## Runs -/

@[simp] theorem Run.andThen_ok {α β : Type} (a : α) (s : State) (f : α → State → Run β) :
    (Run.ok a s).andThen f = f a s := rfl
@[simp] theorem Run.andThen_raise {α β : Type} (k : FaultKind) (v : Word) (s : State) (f : α → State → Run β) :
    (Run.raise k v s : Run α).andThen f = .raise k v s := rfl
@[simp] theorem Run.andThen_stop {α β : Type} (x : Fault) (f : α → State → Run β) :
    (Run.stop x : Run α).andThen f = .stop x := rfl

theorem Run.andThen_assoc {α β γ : Type} (r : Run α) (f : α → State → Run β) (g : β → State → Run γ) :
    (r.andThen f).andThen g = r.andThen fun a s => (f a s).andThen g := by cases r <;> rfl

@[simp] theorem finish_ok (p : Word) (u : Unit) (s : State) : finish p (.ok u s) = .next s := rfl
@[simp] theorem finish_raise (p : Word) (k : FaultKind) (v : Word) (s : State) :
    finish p (.raise k v s) = .next (takeFault k v p s) := rfl
@[simp] theorem finish_stop (p : Word) (x : Fault) : finish p (.stop x) = .fault x := rfl

/-- How a run ends, by its three ends: one statement that says everything a piece of pseudocode can do. -/
def Run.Ends {α : Type} (r : Run α) (okP : α → State → Prop) (raiseP : FaultKind → Word → State → Prop)
    (stopP : Fault → Prop) : Prop :=
  match r with
  | .ok a s => okP a s
  | .raise k v s => raiseP k v s
  | .stop x => stopP x

theorem Run.Ends.andThen {α β : Type} {r : Run α} {f : α → State → Run β} {okP : α → State → Prop}
    {okQ : β → State → Prop} {raiseP : FaultKind → Word → State → Prop} {stopP : Fault → Prop}
    (h : r.Ends okP raiseP stopP) (hf : ∀ a s, okP a s → (f a s).Ends okQ raiseP stopP) :
    (r.andThen f).Ends okQ raiseP stopP := by
  cases r with
  | ok a s => exact hf a s h
  | raise k v s => exact h
  | stop x => exact h

theorem Run.Ends.mono {α : Type} {r : Run α} {okP okQ : α → State → Prop}
    {raiseP raiseQ : FaultKind → Word → State → Prop} {stopP stopQ : Fault → Prop}
    (h : r.Ends okP raiseP stopP) (h1 : ∀ a s, okP a s → okQ a s) (h2 : ∀ k v s, raiseP k v s → raiseQ k v s)
    (h3 : ∀ x, stopP x → stopQ x) : r.Ends okQ raiseQ stopQ := by
  cases r with
  | ok a s => exact h1 a s h
  | raise k v s => exact h2 k v s h
  | stop x => exact h3 x h

theorem Run.Ends.and {α : Type} {r : Run α} {P P' : α → State → Prop} {Q Q' : FaultKind → Word → State → Prop}
    {R R' : Fault → Prop} (h : r.Ends P Q R) (h' : r.Ends P' Q' R') :
    r.Ends (fun a s => P a s ∧ P' a s) (fun k v s => Q k v s ∧ Q' k v s) (fun x => R x ∧ R' x) := by
  cases r <;> exact ⟨h, h'⟩

/-! ## Acceptance -/

/-- A command that passes the pre-execution checks runs its body (rule R225 step 6). -/
theorem accept_ready {i : Instr} {body : State → Run Unit} {s : State} (he : s.status.err = false)
    (hf : flagsHeld i s.status = true) (hl : lengthsHeld i s = true) :
    accept i body s = finish s.ipos (body s.clearDone) := by simp [accept, he, hf, hl]

/-- Everything acceptance can do (rule R225). -/
theorem accept_cases (i : Instr) (body : State → Run Unit) (s : State) :
    (s.status.err = true ∧ acceptedWhileErr i = false ∧ accept i body s = .next s) ∨
    ((s.status.err = false ∨ acceptedWhileErr i = true) ∧ flagsHeld i s.status = false ∧
      accept i body s = .next (takeFault .sequenceError (encode i) s.ipos s.clearDone)) ∨
    ((s.status.err = false ∨ acceptedWhileErr i = true) ∧ flagsHeld i s.status = true ∧
      lengthsHeld i s = false ∧
      accept i body s = .next (takeFault .lengthError (encode i) s.ipos s.clearDone)) ∨
    ((s.status.err = false ∨ acceptedWhileErr i = true) ∧ flagsHeld i s.status = true ∧
      lengthsHeld i s = true ∧ accept i body s = finish s.ipos (body s.clearDone)) := by
  cases he : s.status.err <;> cases ha : acceptedWhileErr i <;> cases hf : flagsHeld i s.status <;>
    cases hl : lengthsHeld i s <;> simp [accept, *]

theorem accept_ignored {i : Instr} {body : State → Run Unit} {s : State} (he : s.status.err = true)
    (ha : acceptedWhileErr i = false) : accept i body s = .next s := by simp [accept, he, ha]

/-! ## Faults -/

/-- A pre-execution fault writes only the record (rule R239). -/
theorem takeFault_preExecution {k : FaultKind} (hk : k.isExecution = false) (v p : Word) (s : State) :
    takeFault k v p s = s.recordFault k v := by
  cases k <;> first | rfl | (exact absurd hk (by decide))

/-- What an execution fault leaves (rules R238, R240), for the faults that spoil no tree. -/
theorem takeFault_execution {k : FaultKind} (hk : k.isExecution = true) (ht : k.spoilsTree = false)
    (v p : Word) (s : State) : takeFault k v p s = (s.discardOutput p).recordFault k v := by
  cases k <;> first | rfl | (exact absurd hk (by decide)) | (exact absurd ht (by decide))

/-- What a fault in BUILD or TDES leaves (rules R238, R240). -/
theorem takeFault_spoils {k : FaultKind} (ht : k.spoilsTree = true) (v p : Word) (s : State) :
    takeFault k v p s = ((s.discardOutput p).spoilTree).recordFault k v := by
  cases k <;> first | rfl | (exact absurd ht (by decide))

/-- The parts of the state no fault touches. -/
theorem takeFault_kept (k : FaultKind) (v p : Word) (s : State) :
    (takeFault k v p s).cfg = s.cfg ∧ (takeFault k v p s).ilen = s.ilen ∧
    (takeFault k v p s).count = s.count ∧ (takeFault k v p s).nsym = s.nsym ∧
    (takeFault k v p s).freq = s.freq ∧ (takeFault k v p s).code = s.code ∧
    (takeFault k v p s).trie = s.trie ∧ (takeFault k v p s).ibuf = s.ibuf ∧
    (takeFault k v p s).rdata = s.rdata ∧ (takeFault k v p s).script = s.script ∧
    (takeFault k v p s).status = { s.status with done := false, err := true } ∧
    (takeFault k v p s).err = k.errWord ∧ (takeFault k v p s).errval = v := by
  cases k <;> exact ⟨rfl, rfl, rfl, rfl, rfl, rfl, rfl, rfl, rfl, rfl, rfl, rfl, rfl⟩

/-! ## Output -/

/-- The same state but for OBUF and OLEN. -/
def SameButOutput (s t : State) : Prop := t = { s with obuf := t.obuf, olen := t.olen }

theorem SameButOutput.refl (s : State) : SameButOutput s s := rfl

theorem SameButOutput.trans {s t u : State} (h1 : SameButOutput s t) (h2 : SameButOutput t u) :
    SameButOutput s u := by
  unfold SameButOutput at *
  rw [h2, h1]

theorem sameButOutput_pushByte (s : State) (b : Byte) : SameButOutput s (s.pushByte b) := rfl

/-- An execution fault forgets OBUF and OLEN, so it does not matter how far the output had got. -/
theorem takeFault_sameButOutput {k : FaultKind} (hk : k.isExecution = true) {s t : State}
    (h : SameButOutput s t) (v p : Word) : takeFault k v p t = takeFault k v p s := by
  unfold SameButOutput at h
  rw [h]
  cases k <;> first | rfl | (exact absurd hk (by decide))

/-- Append, its two ends (rule R8). -/
theorem append_cases (b : Byte) (s : State) :
    (s.cfg.obufCap ≤ s.olen.toNat ∧ append b s = .raise .outputOverflow 0#32 s) ∨
    (s.olen.toNat < s.cfg.obufCap ∧ append b s = .ok () (s.pushByte b)) := by
  by_cases h : s.cfg.obufCap ≤ s.olen.toNat
  · left; simp [append, h]
  · right; simp [append, h]; omega

/-- The bytes of a list stored one after another. -/
def State.pushAll (s : State) (bs : List Byte) : State := bs.foldl State.pushByte s

@[simp] theorem State.pushAll_nil (s : State) : s.pushAll [] = s := rfl
@[simp] theorem State.pushAll_cons (s : State) (b : Byte) (bs : List Byte) :
    s.pushAll (b :: bs) = (s.pushByte b).pushAll bs := rfl
theorem State.pushAll_append (s : State) (bs cs : List Byte) :
    s.pushAll (bs ++ cs) = (s.pushAll bs).pushAll cs := by simp [State.pushAll]

theorem sameButOutput_pushAll (s : State) (bs : List Byte) : SameButOutput s (s.pushAll bs) := by
  induction bs generalizing s with
  | nil => rfl
  | cons b bs ih => exact (sameButOutput_pushByte s b).trans (ih _)

theorem SameButOutput.cfg {s t : State} (h : SameButOutput s t) : t.cfg = s.cfg := by
  unfold SameButOutput at h; rw [h]

theorem Config.obufCap_lt {c : Config} (h : c.wf = true) : c.obufCap < 2 ^ 32 := by
  simp [Config.wf] at h; omega
theorem Config.ibufCap_lt {c : Config} (h : c.wf = true) : c.ibufCap < 2 ^ 32 := by
  simp [Config.wf] at h; omega

theorem toWord_toNat {n : Nat} (h : n < 2 ^ 32) : (toWord n).toNat = n := by
  simp only [toWord, BitVec.toNat_ofNat]; exact Nat.mod_eq_of_lt h

@[simp] theorem toWord_of_toNat (w : Word) : toWord w.toNat = w := by simp [toWord]

theorem State.olen_pushByte {s : State} (h : s.olen.toNat + 1 < 2 ^ 32) (b : Byte) :
    (s.pushByte b).olen.toNat = s.olen.toNat + 1 := toWord_toNat h

theorem State.obufByte_pushByte_self (s : State) (b : Byte) : (s.pushByte b).obufByte s.olen.toNat = b := by
  simp [State.obufByte, State.pushByte]

theorem State.obufByte_pushByte_ne (s : State) (b : Byte) {a : Nat} (h : a ≠ s.olen.toNat) :
    (s.pushByte b).obufByte a = s.obufByte a := by
  simp [State.obufByte, State.pushByte, Store.read_set_ne _ _ h]

/-- OLEN after storing a list. -/
theorem State.olen_pushAll {s : State} {bs : List Byte} (h : s.olen.toNat + bs.length < 2 ^ 32) :
    (s.pushAll bs).olen.toNat = s.olen.toNat + bs.length := by
  induction bs generalizing s with
  | nil => rfl
  | cons b bs ih =>
    simp only [List.length_cons] at h
    have h1 := State.olen_pushByte (s := s) (by omega) b
    rw [State.pushAll_cons, ih (by omega), h1, List.length_cons]; omega

/-- OBUF outside the stored bytes. -/
theorem State.obufByte_pushAll_ne {s : State} {bs : List Byte} (h : s.olen.toNat + bs.length < 2 ^ 32)
    {a : Nat} (ha : a < s.olen.toNat ∨ s.olen.toNat + bs.length ≤ a) :
    (s.pushAll bs).obufByte a = s.obufByte a := by
  induction bs generalizing s with
  | nil => rfl
  | cons b bs ih =>
    simp only [List.length_cons] at h ha
    have h1 := State.olen_pushByte (s := s) (by omega) b
    rw [State.pushAll_cons, ih (by omega) (by omega), State.obufByte_pushByte_ne s b (by omega)]

/-- The stored bytes of OBUF. -/
theorem State.obufByte_pushAll {s : State} {bs : List Byte} (h : s.olen.toNat + bs.length < 2 ^ 32)
    {k : Nat} {b : Byte} (hk : bs[k]? = some b) : (s.pushAll bs).obufByte (s.olen.toNat + k) = b := by
  induction bs generalizing s k with
  | nil => simp at hk
  | cons c bs ih =>
    simp only [List.length_cons] at h
    have h1 := State.olen_pushByte (s := s) (by omega) c
    rw [State.pushAll_cons]
    cases k with
    | zero =>
      simp only [List.getElem?_cons_zero, Option.some.injEq] at hk
      subst hk
      rw [State.obufByte_pushAll_ne (by omega) (by omega), Nat.add_zero, State.obufByte_pushByte_self]
    | succ k =>
      simp only [List.getElem?_cons_succ] at hk
      have := ih (s := s.pushByte c) (by omega) hk
      rw [h1] at this
      rw [← this]; congr 1; omega

/-- Appending a list: all of it when it fits (an empty list always does), else OutputOverflow. -/
theorem appendAll_cases {s : State} (hw : s.cfg.wf = true) (bs : List Byte) :
    ((bs = [] ∨ s.olen.toNat + bs.length ≤ s.cfg.obufCap) ∧ appendAll bs s = .ok () (s.pushAll bs)) ∨
    ((bs ≠ [] ∧ s.cfg.obufCap < s.olen.toNat + bs.length) ∧
      ∃ t, SameButOutput s t ∧ appendAll bs s = .raise .outputOverflow 0#32 t) := by
  have hc := Config.obufCap_lt hw
  induction bs generalizing s with
  | nil => left; exact ⟨.inl rfl, rfl⟩
  | cons b bs ih =>
    rcases append_cases b s with ⟨h, e⟩ | ⟨h, e⟩
    · right
      refine ⟨⟨by simp, by simp; omega⟩, s, rfl, by simp [appendAll, e]⟩
    · have h1 := State.olen_pushByte (s := s) (by omega) b
      have hcfg : (s.pushByte b).cfg = s.cfg := rfl
      rcases ih (s := s.pushByte b) hw hc with ⟨h2, e2⟩ | ⟨h2, t, ht, e2⟩
      · left
        refine ⟨.inr ?_, by simp [appendAll, e, e2]⟩
        rcases h2 with rfl | h2
        · simp; omega
        · rw [h1, hcfg] at h2; simp; omega
      · right
        rw [h1, hcfg] at h2
        exact ⟨⟨by simp, by simp; omega⟩, t, (sameButOutput_pushByte s b).trans ht, by simp [appendAll, e, e2]⟩

/-- Everything appending a list can do, whatever the instance. -/
theorem appendAll_ends (bs : List Byte) (s : State) :
    (appendAll bs s).Ends (fun _ t => SameButOutput s t)
      (fun k v t => k = .outputOverflow ∧ v = 0#32 ∧ SameButOutput s t) (fun _ => False) := by
  induction bs generalizing s with
  | nil => exact SameButOutput.refl s
  | cons b bs ih =>
    rcases append_cases b s with ⟨_, e⟩ | ⟨_, e⟩
    · simp only [appendAll, e, Run.andThen_raise]; exact ⟨rfl, rfl, rfl⟩
    · simp only [appendAll, e, Run.andThen_ok]
      refine (ih (s.pushByte b)).mono ?_ ?_ ?_
      · intro _ t h; exact (sameButOutput_pushByte s b).trans h
      · intro k v t h; exact ⟨h.1, h.2.1, (sameButOutput_pushByte s b).trans h.2.2⟩
      · intro x h; exact h

end Sys2Proof.Machine
end

