-- ==== Sys2Proof/Laws/Bodies.lean ====
section
/-! SUPPORT. What each command's pseudocode can do: what it writes, what it can raise. -/

namespace Sys2Proof.Machine

/-! ## How each command's pseudocode can end -/

/-- FCNT's body always ends normally (rule R120). -/
theorem bodyFcnt_ends (s : State) :
    (bodyFcnt s).Ends
      (fun _ t => t =
        { s with
          freq := { s.freq with cells := freqCells s.input }
          nsym := toWord (countPresent (freqCells s.input))
          status := { s.status with vFreq := true, vTree := false, vCode := false } })
      (fun _ _ _ => False) (fun _ => False) := rfl

/-- BUILD's body ends normally or in EmptyInput (rule R130). -/
theorem bodyBuild_ends (s : State) :
    (bodyBuild s).Ends
      (fun _ t => t =
        { s with
          node := t.node, nnode := t.nnode, root := t.root, heap := t.heap, hsize := t.hsize
          status := { s.status with vTree := true, vCode := false } })
      (fun k v t => k = .emptyInput ∧ v = 0#32 ∧ t = s.clearTreeFlags) (fun _ => False) := by
  unfold bodyBuild
  simp only
  split
  · exact ⟨rfl, rfl, rfl⟩
  · rfl

/-- DERIVE's body ends normally, or stops when the arena denotes no tree (rule R150). -/
theorem bodyDerive_ends (s : State) :
    (bodyDerive s).Ends
      (fun _ t => ∃ T, s.tree? = some T ∧ t =
        { s with
          code := { s.code with cells := (deriveTables T).code }
          trie := { s.trie with cells := (deriveTables T).trie }
          status := { s.status with vCode := true } })
      (fun _ _ _ => False) (fun x => x = .arenaDenotesNoTree ∧ s.tree? = none) := by
  unfold bodyDerive
  have h : (s.putVCode false).tree? = s.tree? := rfl
  simp only [h]
  cases ht : s.tree? with
  | none => exact ⟨rfl, rfl⟩
  | some T => exact ⟨T, rfl, rfl⟩

/-- TSER's body appends, overflows, or stops when the arena denotes no tree (rule R165). -/
theorem bodyTser_ends (s : State) :
    (bodyTser s).Ends (fun _ t => SameButOutput s t)
      (fun k v t => k = .outputOverflow ∧ v = 0#32 ∧ SameButOutput s t)
      (fun x => x = .arenaDenotesNoTree ∧ s.tree? = none) := by
  unfold bodyTser
  cases ht : s.tree? with
  | none => exact ⟨rfl, rfl⟩
  | some T => exact (appendAll_ends (ser T) s).mono (fun _ _ h => h) (fun _ _ _ h => h) (fun _ h => h.elim)

/-- WCNT's body appends or overflows (rule R205). -/
theorem bodyWcnt_ends (s : State) :
    (bodyWcnt s).Ends (fun _ t => SameButOutput s t)
      (fun k v t => k = .outputOverflow ∧ v = 0#32 ∧ SameButOutput s t) (fun _ => False) :=
  appendAll_ends (countBytes s.ilen) s

theorem append_ends (b : Byte) (s : State) :
    (append b s).Ends (fun _ t => SameButOutput s t)
      (fun k v t => k = .outputOverflow ∧ v = 0#32 ∧ SameButOutput s t) (fun _ => False) := by
  rcases append_cases b s with ⟨_, e⟩ | ⟨_, e⟩ <;> rw [e]
  · exact ⟨rfl, rfl, rfl⟩
  · exact sameButOutput_pushByte s b

theorem packBit_ends (b : Bool) (p : Partial) (s : State) :
    (packBit b p s).Ends (fun _ t => SameButOutput s t)
      (fun k v t => k = .outputOverflow ∧ v = 0#32 ∧ SameButOutput s t) (fun _ => False) := by
  unfold packBit
  split
  · exact (append_ends _ s).andThen fun _ t h => h
  · exact SameButOutput.refl s

theorem packBits_ends (bits : List Bool) (p : Partial) (s : State) :
    (packBits bits p s).Ends (fun _ t => SameButOutput s t)
      (fun k v t => k = .outputOverflow ∧ v = 0#32 ∧ SameButOutput s t) (fun _ => False) := by
  induction bits generalizing p s with
  | nil => exact SameButOutput.refl s
  | cons b rest ih =>
    refine (packBit_ends b p s).andThen fun p' t h => ?_
    exact (ih p' t).mono (fun _ _ h' => h.trans h') (fun _ _ _ h' => ⟨h'.1, h'.2.1, h.trans h'.2.2⟩)
      (fun _ h' => h')

theorem packSymbols_ends (xs : List Byte) (i : Nat) (p : Partial) (s : State) :
    (packSymbols xs i p s).Ends (fun _ t => SameButOutput s t)
      (fun k _ t => (k = .outputOverflow ∨ k = .noCode) ∧ SameButOutput s t) (fun _ => False) := by
  induction xs generalizing i p s with
  | nil => exact SameButOutput.refl s
  | cons x rest ih =>
    unfold packSymbols
    split
    · refine Run.Ends.andThen ((packBits_ends _ p s).mono (fun _ _ h => h)
        (fun _ _ _ h => ⟨.inl h.1, h.2.2⟩) (fun _ h => h)) fun p' t h => ?_
      exact (ih (i + 1) p' t).mono (fun _ _ h' => h.trans h') (fun _ _ _ h' => ⟨h'.1, h.trans h'.2⟩)
        (fun _ h' => h')
    · exact ⟨.inr rfl, SameButOutput.refl s⟩

/-- PACK's body appends, overflows, or meets a symbol without a code (rule R186). -/
theorem bodyPack_ends (s : State) :
    (bodyPack s).Ends (fun _ t => SameButOutput s t)
      (fun k _ t => (k = .outputOverflow ∨ k = .noCode) ∧ SameButOutput s t) (fun _ => False) := by
  refine (packSymbols_ends s.input 0 ⟨0, 0⟩ s).andThen fun p t h => ?_
  unfold packFlush
  split
  · exact (append_ends _ t).mono (fun _ _ h' => h.trans h') (fun _ _ _ h' => ⟨.inl h'.1, h.trans h'.2.2⟩)
      (fun _ h' => h')
  · exact h

/-- The kinds of CorruptContainer a parse of a tree can raise (rule R172). -/
def FaultKind.ofTree (k : FaultKind) : Prop := k = .badMarker ∨ k = .eosTree ∨ k = .treeTooLarge

theorem des_raise_kind {byteAt : Nat → Byte} {ilen fuel : Nat} {p : Parse} {k : FaultKind} {pos : Nat}
    (h : des byteAt ilen fuel p = .raise k pos) : k.ofTree := by
  induction fuel generalizing p k pos with
  | zero => simp only [des, Parsed.raise.injEq] at h; exact .inr (.inr h.1.symm)
  | succ fuel ih =>
    simp only [des] at h
    split at h
    · simp only [Parsed.raise.injEq] at h; exact .inr (.inl h.1.symm)
    · split at h
      · simp only [Parsed.raise.injEq] at h; exact .inl h.1.symm
      · split at h
        · simp only [Parsed.raise.injEq] at h; exact .inr (.inr h.1.symm)
        · split at h
          · split at h
            · simp only [Parsed.raise.injEq] at h; exact .inr (.inl h.1.symm)
            · cases h
          · split at h
            · rename_i e
              simp only [Parsed.raise.injEq] at h
              rw [h.1, h.2] at e
              exact ih e
            · split at h
              · rename_i e
                simp only [Parsed.raise.injEq] at h
                rw [h.1, h.2] at e
                exact ih e
              · cases h

/-- TDES's body rebuilds a tree or raises a CorruptContainer of the tree (rule R169). -/
theorem bodyTdes_ends (s : State) :
    (bodyTdes s).Ends
      (fun _ t => t =
        { s with
          node := t.node, nnode := t.nnode, root := t.root, ipos := t.ipos
          status := { s.status with vTree := true, vCode := false } })
      (fun k _ t => k.ofTree ∧ t = s.clearTreeFlags) (fun _ => False) := by
  unfold bodyTdes
  simp only
  split
  · rename_i k pos h
    exact ⟨des_raise_kind h, rfl⟩
  · rfl

/-- RCNT's body reads the count or raises EOS_COUNT (rule R206). -/
theorem bodyRcnt_ends (s : State) :
    (bodyRcnt s).Ends
      (fun _ t => t =
        { s with count := t.count, ipos := t.ipos, status := { s.status with vCount := true } })
      (fun k v t => k = .eosCount ∧ v = s.ipos ∧ t = { s with status := { s.status with vCount := false } })
      (fun _ => False) := by
  unfold bodyRcnt
  simp only
  split
  · rfl
  · exact ⟨rfl, rfl, rfl⟩

/-- The execution faults of UNPACK (rule R193). -/
def FaultKind.ofPayload (k : FaultKind) : Prop := k = .eosPayload ∨ k = .noMatch ∨ k = .outputOverflow

theorem unpackLoop_ends (fuel : Nat) (c : Cursor) (s : State) :
    (unpackLoop fuel c s).Ends (fun _ t => SameButOutput s t)
      (fun k _ t => k.ofPayload ∧ SameButOutput s t) (fun _ => False) := by
  induction fuel generalizing c s with
  | zero =>
    simp only [unpackLoop]
    split
    · exact ⟨.inl rfl, SameButOutput.refl s⟩
    · exact SameButOutput.refl s
  | succ fuel ih =>
    simp only [unpackLoop]
    split
    · split
      · exact ⟨.inl rfl, SameButOutput.refl s⟩
      · split
        · exact ⟨.inr (.inl rfl), SameButOutput.refl s⟩
        · split
          · refine Run.Ends.andThen ((append_ends _ s).mono (fun _ _ h => h)
              (fun _ _ _ h => ⟨.inr (.inr h.1), h.2.2⟩) (fun _ h => h)) fun _ t h => ?_
            exact (ih _ t).mono (fun _ _ h' => h.trans h') (fun _ _ _ h' => ⟨h'.1, h.trans h'.2⟩)
              (fun _ h' => h')
          · exact ih _ s
    · exact SameButOutput.refl s

/-- UNPACK's body appends and moves IPOS, or raises one of rule R193's faults. -/
theorem bodyUnpack_ends (s : State) :
    (bodyUnpack s).Ends (fun _ t => t = { s with obuf := t.obuf, olen := t.olen, ipos := t.ipos })
      (fun k _ t => k.ofPayload ∧ SameButOutput s t) (fun _ => False) := by
  refine (unpackLoop_ends _ _ s).andThen fun c t h => ?_
  simp only [SameButOutput] at h
  rw [h]
  rfl

/-- COMPRESS's body (rule R208): what it can write and how it can fail. -/
theorem bodyCompress_ends (s : State) :
    (bodyCompress s).Ends
      (fun _ t => t =
        { s with
          freq := t.freq, nsym := t.nsym, node := t.node, nnode := t.nnode, root := t.root
          heap := t.heap, hsize := t.hsize, code := t.code, trie := t.trie, obuf := t.obuf, olen := t.olen
          status := { s.status with vFreq := true, vTree := true, vCode := true } })
      (fun k _ t =>
        (k = .emptyInput ∧ t =
          { s with
            olen := 0#32, freq := t.freq, nsym := t.nsym
            status := { s.status with vFreq := true, vTree := false, vCode := false } }) ∨
        ((k = .outputOverflow ∨ k = .noCode) ∧ t =
          { s with
            freq := t.freq, nsym := t.nsym, node := t.node, nnode := t.nnode, root := t.root
            heap := t.heap, hsize := t.hsize, code := t.code, trie := t.trie, obuf := t.obuf, olen := t.olen
            status := { s.status with vFreq := true, vTree := true, vCode := true } }))
      (fun x => x = .arenaDenotesNoTree) := by
  unfold bodyCompress
  refine Run.Ends.andThen ((bodyFcnt_ends _).mono (fun _ _ h => h) (fun _ _ _ h => h.elim) (fun _ h => h.elim))
    fun _ s1 h1 => ?_
  refine Run.Ends.andThen ((bodyBuild_ends s1).mono (fun _ _ h => h) (fun k v t h => .inl ⟨h.1, ?_⟩)
    (fun _ h => h.elim)) fun _ s2 h2 => ?_
  · rw [h.2.2, h1]; rfl
  refine Run.Ends.andThen ((bodyDerive_ends s2).mono (fun _ _ h => h) (fun _ _ _ h => h.elim)
    (fun _ h => h.1)) fun _ s3 h3 => ?_
  obtain ⟨T, _, h3⟩ := h3
  have h13 : s3 =
      { s with
        olen := 0#32
        freq := s3.freq, nsym := s3.nsym, node := s3.node, nnode := s3.nnode, root := s3.root
        heap := s3.heap, hsize := s3.hsize, code := s3.code, trie := s3.trie
        status := { s.status with vFreq := true, vTree := true, vCode := true } } := by
    rw [h3, h2, h1]
  have key : ∀ t, SameButOutput s3 t → t =
      { s with
        freq := t.freq, nsym := t.nsym, node := t.node, nnode := t.nnode, root := t.root
        heap := t.heap, hsize := t.hsize, code := t.code, trie := t.trie, obuf := t.obuf, olen := t.olen
        status := { s.status with vFreq := true, vTree := true, vCode := true } } := by
    intro t h
    simp only [SameButOutput] at h
    rw [h, h13]
  refine Run.Ends.andThen ((bodyTser_ends s3).mono (fun _ _ h => h)
    (fun k v t h => .inr ⟨.inl h.1, key t h.2.2⟩) (fun _ h => h.1)) fun _ s4 h4 => ?_
  refine Run.Ends.andThen ((bodyWcnt_ends s4).mono (fun _ _ h => h)
    (fun k v t h => .inr ⟨.inl h.1, key t (h4.trans h.2.2)⟩) (fun _ h => h.elim)) fun _ s5 h5 => ?_
  exact (bodyPack_ends s5).mono (fun _ t h => key t ((h4.trans h5).trans h))
    (fun k v t h => .inr ⟨h.1, key t ((h4.trans h5).trans h.2)⟩) (fun _ h => h.elim)

/-- DECOMPRESS's body (rule R210): what it can write and how it can fail. -/
theorem bodyDecompress_ends (s : State) :
    (bodyDecompress s).Ends
      (fun _ t => t =
        { s with
          node := t.node, nnode := t.nnode, root := t.root, code := t.code, trie := t.trie
          count := t.count, ipos := t.ipos, obuf := t.obuf, olen := t.olen
          status := { s.status with vTree := true, vCode := true, vCount := true } })
      (fun k _ t =>
        (k.ofTree ∧ t =
          { s with
            ipos := 0#32, olen := 0#32, status := { s.status with vTree := false, vCode := false } }) ∨
        (k = .eosCount ∧ t =
          { s with
            node := t.node, nnode := t.nnode, root := t.root, ipos := t.ipos, olen := 0#32
            status := { s.status with vTree := true, vCode := false, vCount := false } }) ∨
        (k.ofPayload ∧ t =
          { s with
            node := t.node, nnode := t.nnode, root := t.root, code := t.code, trie := t.trie
            count := t.count, ipos := t.ipos, obuf := t.obuf, olen := t.olen
            status := { s.status with vTree := true, vCode := true, vCount := true } }))
      (fun x => x = .arenaDenotesNoTree) := by
  unfold bodyDecompress
  refine Run.Ends.andThen ((bodyTdes_ends _).mono (fun _ _ h => h) (fun k v t h => .inl ⟨h.1, ?_⟩)
    (fun _ h => h.elim)) fun _ s1 h1 => ?_
  · rw [h.2]; rfl
  refine Run.Ends.andThen ((bodyRcnt_ends s1).mono (fun _ _ h => h) (fun k v t h => .inr (.inl ⟨h.1, ?_⟩))
    (fun _ h => h.elim)) fun _ s2 h2 => ?_
  · rw [h.2.2, h1]
  refine Run.Ends.andThen ((bodyDerive_ends s2).mono (fun _ _ h => h) (fun _ _ _ h => h.elim)
    (fun _ h => h.1)) fun _ s3 h3 => ?_
  obtain ⟨T, _, h3⟩ := h3
  have h13 : s3 =
      { s with
        node := s3.node, nnode := s3.nnode, root := s3.root, code := s3.code, trie := s3.trie
        count := s3.count, ipos := s3.ipos, olen := 0#32
        status := { s.status with vTree := true, vCode := true, vCount := true } } := by
    rw [h3, h2, h1]
  refine (bodyUnpack_ends s3).mono (fun _ t h => ?_) (fun k v t h => .inr (.inr ⟨h.1, ?_⟩)) (fun _ h => h.elim)
  · rw [h, h13]
  · have h := h.2
    simp only [SameButOutput] at h
    rw [h, h13]

end Sys2Proof.Machine
end

