-- ==== Sys2Proof/Laws/Exec.lean ====
section
/-! SUPPORT. Everything a command can do, from any state: one inversion lemma for `exec`. -/

namespace Sys2Proof.Machine

/-- The pseudocode each command runs once accepted. -/
def bodyOf : Instr → State → Run Unit
  | .fcnt => completing bodyFcnt
  | .build => completing bodyBuild
  | .derive => completing bodyDerive
  | .tser => completing bodyTser
  | .wcnt => completing bodyWcnt
  | .pack => completing bodyPack
  | .tdes => completing bodyTdes
  | .rcnt => completing bodyRcnt
  | .unpack => completing bodyUnpack
  | .compress => completing bodyCompress
  | .decompress => completing bodyDecompress
  | .clrerr => completing bodyClrerr
  | .srst => bodySrst

/-- Every command is the shared acceptance around its pseudocode (rule R225). -/
theorem exec_eq_accept (i : Instr) (s : State) : exec i s = accept i (bodyOf i) s := by cases i <;> rfl

/-- What a stage's end is, with DONE set. -/
theorem completing_ends {body : State → Run Unit} {s : State} {okP okQ : Unit → State → Prop}
    {raiseP : FaultKind → Word → State → Prop} {stopP : Fault → Prop} (h : (body s).Ends okP raiseP stopP)
    (hq : ∀ u t, okP u t → okQ u t.setDone) : (completing body s).Ends okQ raiseP stopP :=
  h.andThen fun u t ht => hq u t ht

/-- A command that is accepted and passes the checks: its next state is its body's end. -/
theorem exec_ready {i : Instr} {s : State} (he : s.status.err = false) (hf : flagsHeld i s.status = true)
    (hl : lengthsHeld i s = true) : exec i s = finish s.ipos (bodyOf i s.clearDone) := by
  rw [exec_eq_accept, accept_ready he hf hl]

/-- The fault kinds each command's pseudocode can raise (rule R255). -/
def raisable : Instr → FaultKind → Prop
  | .fcnt, _ => False
  | .build, k => k = .emptyInput
  | .derive, _ => False
  | .tser, k => k = .outputOverflow
  | .wcnt, k => k = .outputOverflow
  | .pack, k => k = .outputOverflow ∨ k = .noCode
  | .tdes, k => k.ofTree
  | .rcnt, k => k = .eosCount
  | .unpack, k => k.ofPayload
  | .compress, k => k = .emptyInput ∨ k = .outputOverflow ∨ k = .noCode
  | .decompress, k => k.ofTree ∨ k = .eosCount ∨ k.ofPayload
  | .clrerr, _ => False
  | .srst, _ => False

/-- The parts of the state no command's pseudocode touches, and the flags a raise leaves in BUILD, TDES, RCNT. -/
structure Kept (i : Instr) (s t : State) : Prop where
  cfg    : t.cfg = s.cfg
  ibuf   : t.ibuf = s.ibuf
  rdata  : t.rdata = s.rdata
  script : t.script = s.script
  ilen   : i ≠ .srst → t.ilen = s.ilen
  busy   : i ≠ .srst → t.status.busy = s.status.busy

/-- Everything a command's pseudocode can do, coarsely: what it keeps, how it reports, what it can raise. -/
theorem bodyOf_ends (i : Instr) (s : State) :
    (bodyOf i s).Ends
      (fun _ t => Kept i s t ∧
        (i ≠ .srst → t.status.done = true) ∧
        (i ≠ .srst → i ≠ .clrerr → t.status.err = s.status.err ∧ t.err = s.err ∧ t.errval = s.errval) ∧
        (i = .clrerr ∨ i = .srst → t.status.err = false ∧ t.err = 0#32 ∧ t.errval = 0#32) ∧
        (i = .srst → t.status = Status.zero))
      (fun k _ t => Kept i s t ∧ raisable i k ∧
        (i = .build ∨ i = .tdes → t.status.vTree = false ∧ t.status.vCode = false) ∧
        (i = .rcnt → t.status.vCount = false ∧ t.count = s.count))
      (fun x => x = .arenaDenotesNoTree) := by
  cases i with
  | fcnt =>
    refine (completing_ends (bodyFcnt_ends s) (okQ := _) ?_).mono (fun _ _ h => h) (fun _ _ _ h => h.elim)
      (fun _ h => h.elim)
    rintro _ t rfl
    refine ⟨⟨rfl, rfl, rfl, rfl, fun _ => rfl, fun _ => rfl⟩, fun _ => rfl, fun _ _ => ⟨rfl, rfl, rfl⟩, by simp, by simp⟩
  | build =>
    refine (completing_ends (bodyBuild_ends s) (okQ := _) ?_).mono (fun _ _ h => h) ?_ (fun _ h => h.elim)
    · intro _ t h
      rw [h]
      exact ⟨⟨rfl, rfl, rfl, rfl, fun _ => rfl, fun _ => rfl⟩, fun _ => rfl, fun _ _ => ⟨rfl, rfl, rfl⟩, by simp, by simp⟩
    · rintro k v t ⟨hk, _, rfl⟩
      exact ⟨⟨rfl, rfl, rfl, rfl, fun _ => rfl, fun _ => rfl⟩, hk, fun _ => ⟨rfl, rfl⟩, by simp⟩
  | derive =>
    refine (completing_ends (bodyDerive_ends s) (okQ := _) ?_).mono (fun _ _ h => h) (fun _ _ _ h => h.elim)
      (fun _ h => h.1)
    rintro _ t ⟨T, _, rfl⟩
    exact ⟨⟨rfl, rfl, rfl, rfl, fun _ => rfl, fun _ => rfl⟩, fun _ => rfl, fun _ _ => ⟨rfl, rfl, rfl⟩, by simp, by simp⟩
  | tser =>
    refine (completing_ends (bodyTser_ends s) (okQ := _) ?_).mono (fun _ _ h => h) ?_ (fun _ h => h.1)
    · intro _ t h
      simp only [SameButOutput] at h
      rw [h]
      exact ⟨⟨rfl, rfl, rfl, rfl, fun _ => rfl, fun _ => rfl⟩, fun _ => rfl, fun _ _ => ⟨rfl, rfl, rfl⟩, by simp, by simp⟩
    · rintro k v t ⟨hk, _, h⟩
      simp only [SameButOutput] at h
      rw [h]
      exact ⟨⟨rfl, rfl, rfl, rfl, fun _ => rfl, fun _ => rfl⟩, hk, by simp, by simp⟩
  | wcnt =>
    refine (completing_ends (bodyWcnt_ends s) (okQ := _) ?_).mono (fun _ _ h => h) ?_ (fun _ h => h.elim)
    · intro _ t h
      simp only [SameButOutput] at h
      rw [h]
      exact ⟨⟨rfl, rfl, rfl, rfl, fun _ => rfl, fun _ => rfl⟩, fun _ => rfl, fun _ _ => ⟨rfl, rfl, rfl⟩, by simp, by simp⟩
    · rintro k v t ⟨hk, _, h⟩
      simp only [SameButOutput] at h
      rw [h]
      exact ⟨⟨rfl, rfl, rfl, rfl, fun _ => rfl, fun _ => rfl⟩, hk, by simp, by simp⟩
  | pack =>
    refine (completing_ends (bodyPack_ends s) (okQ := _) ?_).mono (fun _ _ h => h) ?_ (fun _ h => h.elim)
    · intro _ t h
      simp only [SameButOutput] at h
      rw [h]
      exact ⟨⟨rfl, rfl, rfl, rfl, fun _ => rfl, fun _ => rfl⟩, fun _ => rfl, fun _ _ => ⟨rfl, rfl, rfl⟩, by simp, by simp⟩
    · rintro k v t ⟨hk, h⟩
      simp only [SameButOutput] at h
      rw [h]
      exact ⟨⟨rfl, rfl, rfl, rfl, fun _ => rfl, fun _ => rfl⟩, hk, by simp, by simp⟩
  | tdes =>
    refine (completing_ends (bodyTdes_ends s) (okQ := _) ?_).mono (fun _ _ h => h) ?_ (fun _ h => h.elim)
    · intro _ t h
      rw [h]
      exact ⟨⟨rfl, rfl, rfl, rfl, fun _ => rfl, fun _ => rfl⟩, fun _ => rfl, fun _ _ => ⟨rfl, rfl, rfl⟩, by simp, by simp⟩
    · rintro k v t ⟨hk, rfl⟩
      exact ⟨⟨rfl, rfl, rfl, rfl, fun _ => rfl, fun _ => rfl⟩, hk, fun _ => ⟨rfl, rfl⟩, by simp⟩
  | rcnt =>
    refine (completing_ends (bodyRcnt_ends s) (okQ := _) ?_).mono (fun _ _ h => h) ?_ (fun _ h => h.elim)
    · intro _ t h
      rw [h]
      exact ⟨⟨rfl, rfl, rfl, rfl, fun _ => rfl, fun _ => rfl⟩, fun _ => rfl, fun _ _ => ⟨rfl, rfl, rfl⟩, by simp, by simp⟩
    · rintro k v t ⟨hk, _, rfl⟩
      exact ⟨⟨rfl, rfl, rfl, rfl, fun _ => rfl, fun _ => rfl⟩, hk, by simp, fun _ => ⟨rfl, rfl⟩⟩
  | unpack =>
    refine (completing_ends (bodyUnpack_ends s) (okQ := _) ?_).mono (fun _ _ h => h) ?_ (fun _ h => h.elim)
    · intro _ t h
      rw [h]
      exact ⟨⟨rfl, rfl, rfl, rfl, fun _ => rfl, fun _ => rfl⟩, fun _ => rfl, fun _ _ => ⟨rfl, rfl, rfl⟩, by simp, by simp⟩
    · rintro k v t ⟨hk, h⟩
      simp only [SameButOutput] at h
      rw [h]
      exact ⟨⟨rfl, rfl, rfl, rfl, fun _ => rfl, fun _ => rfl⟩, hk, by simp, by simp⟩
  | compress =>
    refine (completing_ends (bodyCompress_ends s) (okQ := _) ?_).mono (fun _ _ h => h) ?_ (fun _ h => h)
    · intro _ t h
      rw [h]
      exact ⟨⟨rfl, rfl, rfl, rfl, fun _ => rfl, fun _ => rfl⟩, fun _ => rfl, fun _ _ => ⟨rfl, rfl, rfl⟩, by simp, by simp⟩
    · rintro k v t (⟨hk, h⟩ | ⟨hk, h⟩) <;> rw [h]
      · exact ⟨⟨rfl, rfl, rfl, rfl, fun _ => rfl, fun _ => rfl⟩, .inl hk, by simp, by simp⟩
      · exact ⟨⟨rfl, rfl, rfl, rfl, fun _ => rfl, fun _ => rfl⟩, .inr hk, by simp, by simp⟩
  | decompress =>
    refine (completing_ends (bodyDecompress_ends s) (okQ := _) ?_).mono (fun _ _ h => h) ?_ (fun _ h => h)
    · intro _ t h
      rw [h]
      exact ⟨⟨rfl, rfl, rfl, rfl, fun _ => rfl, fun _ => rfl⟩, fun _ => rfl, fun _ _ => ⟨rfl, rfl, rfl⟩, by simp, by simp⟩
    · rintro k v t (⟨hk, h⟩ | ⟨hk, h⟩ | ⟨hk, h⟩) <;> rw [h]
      · exact ⟨⟨rfl, rfl, rfl, rfl, fun _ => rfl, fun _ => rfl⟩, .inl hk, by simp, by simp⟩
      · exact ⟨⟨rfl, rfl, rfl, rfl, fun _ => rfl, fun _ => rfl⟩, .inr (.inl hk), by simp, by simp⟩
      · exact ⟨⟨rfl, rfl, rfl, rfl, fun _ => rfl, fun _ => rfl⟩, .inr (.inr hk), by simp, by simp⟩
  | clrerr =>
    exact ⟨⟨rfl, rfl, rfl, rfl, fun _ => rfl, fun _ => rfl⟩, fun _ => rfl, by simp, fun _ => ⟨rfl, rfl, rfl⟩, by simp⟩
  | srst =>
    exact ⟨⟨rfl, rfl, rfl, rfl, by simp, by simp⟩, by simp, by simp, fun _ => ⟨rfl, rfl, rfl⟩, fun _ => rfl⟩

/-- Everything a command raises is an execution fault (rule R236). -/
theorem raisable_isExecution {i : Instr} {k : FaultKind} (h : raisable i k) : k.isExecution = true := by
  cases i <;> cases k <;> simp [raisable, FaultKind.ofTree, FaultKind.ofPayload] at h <;> rfl

/-- Everything a command can do, from any state (rules R225, R236 to R240). -/
theorem exec_cases (i : Instr) (s : State) :
    (s.status.err = true ∧ acceptedWhileErr i = false ∧ exec i s = .next s) ∨
    ((s.status.err = false ∨ acceptedWhileErr i = true) ∧
      ((flagsHeld i s.status = false ∧
          exec i s = .next (s.clearDone.recordFault .sequenceError (encode i))) ∨
       (flagsHeld i s.status = true ∧ lengthsHeld i s = false ∧
          exec i s = .next (s.clearDone.recordFault .lengthError (encode i))) ∨
       (flagsHeld i s.status = true ∧ lengthsHeld i s = true ∧
          exec i s = finish s.ipos (bodyOf i s.clearDone)))) := by
  rw [exec_eq_accept]
  rcases accept_cases i (bodyOf i) s with h | ⟨h, h1, h2⟩ | ⟨h, h1, h2, h3⟩ | ⟨h, h1, h2, h3⟩
  · exact .inl h
  · exact .inr ⟨h, .inl ⟨h1, by rw [h2, takeFault_preExecution rfl]⟩⟩
  · exact .inr ⟨h, .inr (.inl ⟨h1, h2, by rw [h3, takeFault_preExecution rfl]⟩)⟩
  · exact .inr ⟨h, .inr (.inr ⟨h1, h2, h3⟩)⟩

end Sys2Proof.Machine
end

