-- ==== Sys2Proof/Laws/Tree.lean ====
section
/-! SUPPORT. The serialized tree and Des: parsing inverts ser, and each way a parse fails. -/

namespace Sys2Proof

theorem HuffTree.size_pos (t : HuffTree) : 0 < t.size := by cases t <;> simp [HuffTree.size]
theorem HuffTree.leaves_pos (t : HuffTree) : 0 < t.leaves := by
  induction t with
  | leaf => simp [HuffTree.leaves]
  | node l r ihl ihr => simp [HuffTree.leaves]; omega
theorem HuffTree.depth_lt_size (t : HuffTree) : t.depth < t.size := by
  induction t with
  | leaf => simp [HuffTree.depth, HuffTree.size]
  | node l r ihl ihr => simp [HuffTree.depth, HuffTree.size]; omega
/-- Rule R9: a tree with L leaves has 2 L - 1 nodes. -/
theorem HuffTree.size_eq (t : HuffTree) : t.size + 1 = 2 * t.leaves := by
  induction t with
  | leaf => simp [HuffTree.size, HuffTree.leaves]
  | node l r ihl ihr => simp [HuffTree.size, HuffTree.leaves]; omega

theorem HuffTree.records_length (t : HuffTree) : t.records.length = t.size := by
  induction t with
  | leaf => rfl
  | node l r ihl ihr => simp [HuffTree.records, HuffTree.size, ihl, ihr]; omega

theorem recordBytes_append (rs qs : List TreeRecord) : recordBytes (rs ++ qs) = recordBytes rs ++ recordBytes qs := by
  simp [recordBytes]

theorem recordBytes_cons (r : TreeRecord) (rs : List TreeRecord) : recordBytes (r :: rs) = r.bytes ++ recordBytes rs := rfl

/-- The records of a tree are its serialization (rule R96). -/
theorem recordBytes_records (t : HuffTree) : recordBytes t.records = Machine.ser t := by
  induction t with
  | leaf => rfl
  | node l r ihl ihr =>
    rw [HuffTree.records, recordBytes_cons, recordBytes_append, ihl, ihr]; rfl

/-- The records of a tree are one tree. -/
theorem treesToCome_records (t : HuffTree) (k : Nat) (rs : List TreeRecord) :
    treesToCome (k + 1) (t.records ++ rs) = treesToCome k rs := by
  induction t generalizing k rs with
  | leaf => rfl
  | node l r ihl ihr =>
    rw [HuffTree.records, List.cons_append, List.append_assoc, treesToCome, ihl, ihr]

/-- More trees to come before, no fewer after. -/
theorem treesToCome_succ (k : Nat) (rs : List TreeRecord) (h : 0 < treesToCome k rs) : 0 < treesToCome (k + 1) rs := by
  induction rs generalizing k with
  | nil => simp [treesToCome]
  | cons r rs ih =>
    cases k with
    | zero => simp [treesToCome] at h
    | succ k => cases r <;> exact ih _ h

/-- Records either leave their first tree unfinished or begin with a whole tree. -/
theorem unfinished_or_tree (n : Nat) (rs : List TreeRecord) (hn : rs.length ≤ n) :
    0 < treesToCome 1 rs ∨ ∃ (t : HuffTree) (qs : List TreeRecord), rs = t.records ++ qs := by
  induction n generalizing rs with
  | zero => obtain rfl := List.length_eq_zero_iff.mp (Nat.le_zero.mp hn); left; decide
  | succ n ih =>
    match rs with
    | [] => left; decide
    | .leaf x :: rs => exact .inr ⟨.leaf x, rs, rfl⟩
    | .internal :: rs =>
      simp only [List.length_cons] at hn
      rcases ih rs (by omega) with h | ⟨l, qs, rfl⟩
      · exact .inl (treesToCome_succ 1 rs h)
      · rcases ih qs (by simp at hn; omega) with h | ⟨r, ps, rfl⟩
        · left
          rw [treesToCome, treesToCome_records]; exact h
        · exact .inr ⟨.node l r, ps, by simp [HuffTree.records]⟩

/-- Where a right subtree is still to come, the left one is unfinished or whole. -/
theorem unfinished_two {rs : List TreeRecord} (h : 0 < treesToCome 2 rs) :
    0 < treesToCome 1 rs ∨ ∃ (t : HuffTree) (qs : List TreeRecord), rs = t.records ++ qs ∧ 0 < treesToCome 1 qs := by
  rcases unfinished_or_tree _ rs le_rfl with h1 | ⟨t, qs, rfl⟩
  · exact .inl h1
  · exact .inr ⟨t, qs, rfl, by rwa [treesToCome_records] at h⟩

namespace Machine

theorem ser_length (t : HuffTree) : (ser t).length + 1 = 3 * t.leaves := by
  induction t with
  | leaf => simp [ser, HuffTree.leaves]
  | node l r ihl ihr => simp [ser, HuffTree.leaves]; omega

theorem ser_length_pos (t : HuffTree) : 0 < (ser t).length := by
  have := ser_length t; have := t.leaves_pos; omega

theorem preorderEntries_leaf (x : Byte) (base : Nat) : preorderEntries (.leaf x) base = [desLeaf x] := rfl
theorem preorderEntries_node (l r : HuffTree) (base : Nat) : preorderEntries (.node l r) base =
    desNode (BitVec.ofNat 9 (base + 1)) (BitVec.ofNat 9 (base + 1 + l.size)) ::
      (preorderEntries l (base + 1) ++ preorderEntries r (base + 1 + l.size)) := rfl

@[simp] theorem preorderEntries_length (t : HuffTree) (base : Nat) : (preorderEntries t base).length = t.size := by
  induction t generalizing base with
  | leaf => rfl
  | node l r ihl ihr => simp [preorderEntries_node, ihl, ihr, HuffTree.size]; omega

/-- A list of bytes stands at an address of an input. -/
def BytesAt (byteAt : Nat → Byte) (a : Nat) (bs : List Byte) : Prop :=
  ∀ (k : Nat) (b : Byte), bs[k]? = some b → byteAt (a + k) = b

theorem BytesAt.head {byteAt : Nat → Byte} {a : Nat} {b : Byte} {bs : List Byte} (h : BytesAt byteAt a (b :: bs)) :
    byteAt a = b := h 0 b rfl
theorem BytesAt.tail {byteAt : Nat → Byte} {a : Nat} {b : Byte} {bs : List Byte} (h : BytesAt byteAt a (b :: bs)) :
    BytesAt byteAt (a + 1) bs := fun k c hk => by
  rw [show a + 1 + k = a + (k + 1) by omega]; exact h (k + 1) c hk
theorem BytesAt.left {byteAt : Nat → Byte} {a : Nat} {bs cs : List Byte} (h : BytesAt byteAt a (bs ++ cs)) :
    BytesAt byteAt a bs := fun k c hk => h k c (by
  rw [List.getElem?_append_left]; exact hk
  by_contra hn; rw [List.getElem?_eq_none (by omega)] at hk; cases hk)
theorem BytesAt.right {byteAt : Nat → Byte} {a : Nat} {bs cs : List Byte} (h : BytesAt byteAt a (bs ++ cs)) :
    BytesAt byteAt (a + bs.length) cs := fun k c hk => by
  rw [show a + bs.length + k = a + (bs.length + k) by omega]
  exact h _ c (by rw [List.getElem?_append_right (by omega)]; simpa using hk)

/-- Rule R174: Des on bytes that begin with ser(T) builds T in preorder and stops right after it. -/
theorem des_ser (byteAt : Nat → Byte) (ilen : Nat) (t : HuffTree) :
    ∀ (fuel : Nat) (p : Parse), t.depth < fuel → BytesAt byteAt p.ipos (ser t) →
      p.ipos + (ser t).length ≤ ilen → p.nnode + t.size ≤ 511 →
      ∃ N, des byteAt ilen fuel p =
          .ok p.nnode { ipos := p.ipos + (ser t).length, nnode := p.nnode + t.size, nodes := N } ∧
        (∀ i, i < p.nnode ∨ p.nnode + t.size ≤ i → lookupCell N i = lookupCell p.nodes i) ∧
        (∀ k e, (preorderEntries t p.nnode)[k]? = some e → lookupCell N (p.nnode + k) = some e) := by
  induction t with
  | leaf x =>
    intro fuel p hf hb hl hn
    obtain ⟨fuel, rfl⟩ : ∃ f, fuel = f + 1 := ⟨fuel - 1, by simp [HuffTree.depth] at hf; omega⟩
    simp only [ser, List.length_cons, List.length_nil, HuffTree.size] at hl hn ⊢
    have h0 : byteAt p.ipos = Config.markLeaf := hb.head
    have h1 : byteAt (p.ipos + 1) = x := hb.tail.head
    refine ⟨setCell p.nnode (desLeaf x) p.nodes, ?_, ?_, ?_⟩
    · simp only [des]
      rw [if_neg (by omega), if_neg (by simp [h0]), if_neg (by show ¬ 511 ≤ _; omega), if_pos h0, if_neg (by omega), h1]
    · intro i hi
      rw [lookupCell_setCell_ne (by omega)]
    · intro k e hk
      cases k with
      | zero => simp [preorderEntries_leaf] at hk; subst hk; simp
      | succ k => simp [preorderEntries_leaf] at hk
  | node l r ihl ihr =>
    intro fuel p hf hb hl hn
    obtain ⟨fuel, rfl⟩ : ∃ f, fuel = f + 1 := ⟨fuel - 1, by simp [HuffTree.depth] at hf; omega⟩
    simp only [HuffTree.depth] at hf
    simp only [ser, List.length_cons, List.length_append, HuffTree.size] at hl hn ⊢
    have h0 : byteAt p.ipos = Config.markInt := hb.head
    have hbl : BytesAt byteAt (p.ipos + 1) (ser l) := hb.tail.left
    have hbr : BytesAt byteAt (p.ipos + 1 + (ser l).length) (ser r) := hb.tail.right
    have hpr := r.size_pos
    obtain ⟨N1, e1, f1, g1⟩ := ihl fuel
      { ipos := p.ipos + 1, nnode := p.nnode + 1, nodes := setCell p.nnode (desNode Config.null Config.null) p.nodes }
      (by omega) hbl (by first | omega | (simp; omega)) (by first | omega | (simp; omega))
    obtain ⟨N2, e2, f2, g2⟩ := ihr fuel
      { ipos := p.ipos + 1 + (ser l).length, nnode := p.nnode + 1 + l.size, nodes := N1 }
      (by omega) hbr (by first | omega | (simp; omega)) (by first | omega | (simp; omega))
    simp only at e1 f1 g1 e2 f2 g2
    refine ⟨setCell p.nnode (desNode (BitVec.ofNat 9 (p.nnode + 1)) (BitVec.ofNat 9 (p.nnode + 1 + l.size))) N2, ?_, ?_, ?_⟩
    · simp only [des]
      rw [if_neg (by omega), if_neg (by simp [h0]), if_neg (by show ¬ 511 ≤ _; omega), if_neg (by rw [h0]; decide), e1]
      simp only
      rw [e2]
      simp only [Parsed.ok.injEq, Parse.mk.injEq, true_and, and_true]
      omega
    · intro i hi
      rw [lookupCell_setCell_ne (by omega), f2 i (by omega), f1 i (by omega), lookupCell_setCell_ne (by omega)]
    · intro k e hk
      cases k with
      | zero => simp [preorderEntries_node] at hk; subst hk; simp
      | succ k =>
        simp only [preorderEntries_node, List.getElem?_cons_succ] at hk
        rw [lookupCell_setCell_ne (by omega)]
        by_cases hkl : k < l.size
        · rw [List.getElem?_append_left (by simpa using hkl)] at hk
          rw [f2 _ (by omega), show p.nnode + (k + 1) = p.nnode + 1 + k by omega]
          exact g1 k e hk
        · rw [List.getElem?_append_right (by first | omega | (simp; omega))] at hk
          simp only [preorderEntries_length] at hk
          have := g2 (k - l.size) e hk
          rw [show p.nnode + (k + 1) = p.nnode + 1 + l.size + (k - l.size) by omega]
          exact this

/-- Rule R176: Des on a proper prefix of ser(T) reports EOS_TREE at the end of the input. -/
theorem des_ser_truncated (byteAt : Nat → Byte) (ilen : Nat) (t : HuffTree) :
    ∀ (fuel : Nat) (p : Parse), t.depth < fuel → p.ipos ≤ ilen → ilen < p.ipos + (ser t).length →
      (∀ k b, p.ipos + k < ilen → (ser t)[k]? = some b → byteAt (p.ipos + k) = b) →
      p.nnode + t.size ≤ 511 → des byteAt ilen fuel p = .raise .eosTree ilen := by
  induction t with
  | leaf x =>
    intro fuel p hf hp hl hb hn
    obtain ⟨fuel, rfl⟩ : ∃ f, fuel = f + 1 := ⟨fuel - 1, by simp [HuffTree.depth] at hf; omega⟩
    simp only [ser, List.length_cons, List.length_nil, HuffTree.size] at hl hn hb
    simp only [des]
    by_cases h : ilen ≤ p.ipos
    · rw [if_pos h, show p.ipos = ilen by omega]
    · have h0 : byteAt p.ipos = Config.markLeaf := hb 0 _ (by omega) rfl
      rw [if_neg h, if_neg (by simp [h0]), if_neg (by show ¬ 511 ≤ _; omega), if_pos h0, if_pos (by omega), show p.ipos + 1 = ilen by omega]
  | node l r ihl ihr =>
    intro fuel p hf hp hl hb hn
    obtain ⟨fuel, rfl⟩ : ∃ f, fuel = f + 1 := ⟨fuel - 1, by simp [HuffTree.depth] at hf; omega⟩
    simp only [HuffTree.depth] at hf
    simp only [ser, List.length_cons, List.length_append, HuffTree.size] at hl hn hb
    have hpr := r.size_pos
    simp only [des]
    by_cases h : ilen ≤ p.ipos
    · rw [if_pos h, show p.ipos = ilen by omega]
    · have h0 : byteAt p.ipos = Config.markInt := hb 0 _ (by omega) rfl
      rw [if_neg h, if_neg (by simp [h0]), if_neg (by show ¬ 511 ≤ _; omega), if_neg (by rw [h0]; decide)]
      have hbl : ∀ k b, p.ipos + 1 + k < ilen → (ser l)[k]? = some b → byteAt (p.ipos + 1 + k) = b := by
        intro k b hk hs
        rw [show p.ipos + 1 + k = p.ipos + (k + 1) by omega]
        refine hb (k + 1) b (by omega) ?_
        rw [List.getElem?_cons_succ, List.getElem?_append_left]
        · exact hs
        · by_contra hh; rw [List.getElem?_eq_none (by omega)] at hs; cases hs
      by_cases hll : ilen < p.ipos + 1 + (ser l).length
      · rw [ihl fuel _ (by omega) (by simp; omega) hll hbl (by first | omega | (simp; omega))]
      · obtain ⟨N1, e1, -, -⟩ := des_ser byteAt ilen l fuel
          { ipos := p.ipos + 1, nnode := p.nnode + 1, nodes := setCell p.nnode (desNode Config.null Config.null) p.nodes }
          (by omega) (fun k b hk => by
            by_cases hkk : k < (ser l).length
            · exact hbl k b (by omega) hk
            · rw [List.getElem?_eq_none (by omega)] at hk; cases hk) (by first | omega | (simp; omega)) (by first | omega | (simp; omega))
        rw [e1]
        simp only
        rw [ihr fuel _ (by omega) (by first | omega | (simp; omega)) (by first | omega | (simp; omega)) ?_ (by first | omega | (simp; omega))]
        intro k b hk hs
        simp only at hk ⊢
        rw [show p.ipos + 1 + (ser l).length + k = p.ipos + ((ser l).length + k + 1) by omega]
        refine hb _ b (by omega) ?_
        rw [List.getElem?_cons_succ, List.getElem?_append_right (by omega)]
        simpa using hs

/-- Rule R244: the end of the input where a tree must begin. -/
theorem des_eosTree {byteAt : Nat → Byte} {ilen fuel : Nat} {p : Parse} (hl : ilen ≤ p.ipos) :
    des byteAt ilen (fuel + 1) p = .raise .eosTree p.ipos := by
  simp only [des]
  rw [if_pos hl]

/-- Rule R244: the end of the input where a leaf's symbol must stand. -/
theorem des_eosTree_symbol {byteAt : Nat → Byte} {ilen fuel : Nat} {p : Parse} (hl : ilen = p.ipos + 1)
    (hn : p.nnode < 511) (h1 : byteAt p.ipos = Config.markLeaf) :
    des byteAt ilen (fuel + 1) p = .raise .eosTree (p.ipos + 1) := by
  simp only [des]
  rw [if_neg (by omega), if_neg (by simp [h1]), if_neg (by show ¬ 511 ≤ _; omega), if_pos h1, if_pos (by omega)]

/-- Rules R98, R243: a byte that is no marker where a tree must begin. -/
theorem des_badMarker {byteAt : Nat → Byte} {ilen fuel : Nat} {p : Parse} (hl : p.ipos < ilen)
    (h0 : byteAt p.ipos ≠ Config.markInt) (h1 : byteAt p.ipos ≠ Config.markLeaf) :
    des byteAt ilen (fuel + 1) p = .raise .badMarker p.ipos := by
  simp only [des]
  rw [if_neg (by omega), if_pos ⟨h0, h1⟩]

/-- Des on records that leave its tree unfinished goes on to the marker after them: it ends as a level that
begins there does, when that is a fault (rule R170). -/
theorem des_unfinished (byteAt : Nat → Byte) (ilen : Nat) (n : Nat) :
    ∀ (rs : List TreeRecord) (fuel : Nat) (p : Parse) (k : FaultKind) (pos : Nat), rs.length ≤ n → rs.length < fuel →
      0 < treesToCome 1 rs → BytesAt byteAt p.ipos (recordBytes rs) →
      p.ipos + (recordBytes rs).length ≤ ilen → p.nnode + rs.length ≤ 511 →
      (∀ (fuel' : Nat) (nodes : List (Nat × NodeEntry)),
        des byteAt ilen (fuel' + 1) ⟨p.ipos + (recordBytes rs).length, p.nnode + rs.length, nodes⟩ = .raise k pos) →
      des byteAt ilen fuel p = .raise k pos := by
  induction n with
  | zero =>
    intro rs fuel p k pos hn hf _ _ _ _ he
    obtain rfl := List.length_eq_zero_iff.mp (Nat.le_zero.mp hn)
    obtain ⟨fuel, rfl⟩ : ∃ f, fuel = f + 1 := ⟨fuel - 1, by omega⟩
    exact he fuel p.nodes
  | succ n ih =>
    intro rs fuel p k pos hn hf ht hb hl hm he
    obtain ⟨fuel, rfl⟩ : ∃ f, fuel = f + 1 := ⟨fuel - 1, by omega⟩
    match rs with
    | [] => exact he fuel p.nodes
    | .leaf x :: rs => cases rs <;> simp [treesToCome] at ht
    | .internal :: rs =>
      simp only [List.length_cons] at hn hf hm he
      rw [recordBytes_cons] at hb hl he
      simp only [TreeRecord.bytes, List.singleton_append, List.length_cons] at hb hl he
      have h0 : byteAt p.ipos = Config.markInt := hb.head
      simp only [des]
      rw [if_neg (by omega), if_neg (by simp [h0]), if_neg (by show ¬ 511 ≤ _; omega), if_neg (by rw [h0]; decide)]
      rcases unfinished_two ht with h1 | ⟨t, qs, rfl, h1⟩
      · rw [ih rs fuel _ k pos (by omega) (by omega) h1 hb.tail (by show p.ipos + 1 + _ ≤ _; omega)
          (by show p.nnode + 1 + _ ≤ _; omega) fun f N => by
            have := he f N
            rwa [show p.ipos + ((recordBytes rs).length + 1) = p.ipos + 1 + (recordBytes rs).length by omega,
              show p.nnode + (rs.length + 1) = p.nnode + 1 + rs.length by omega] at this]
      · rw [recordBytes_append, recordBytes_records] at hb hl he
        simp only [List.length_append, t.records_length] at hn hf hl hm he
        have hd := t.depth_lt_size
        obtain ⟨N, e, -, -⟩ := des_ser byteAt ilen t fuel
          { ipos := p.ipos + 1, nnode := p.nnode + 1, nodes := setCell p.nnode (desNode Config.null Config.null) p.nodes }
          (by omega) hb.tail.left (by show p.ipos + 1 + _ ≤ _; omega) (by show p.nnode + 1 + _ ≤ _; omega)
        rw [e]
        simp only
        rw [ih qs fuel _ k pos (by omega) (by omega) h1 hb.tail.right (by show p.ipos + 1 + _ + _ ≤ _; omega)
          (by show p.nnode + 1 + _ + _ ≤ _; omega) fun f N => by
            have := he f N
            rwa [show p.ipos + ((ser t).length + (recordBytes qs).length + 1) = p.ipos + 1 + (ser t).length + (recordBytes qs).length by omega,
              show p.nnode + (t.size + qs.length + 1) = p.nnode + 1 + t.size + qs.length by omega] at this]

/-- Rule R245: a marker where 511 nodes exist. -/
theorem des_tooLarge {byteAt : Nat → Byte} {ilen fuel : Nat} {p : Parse} (hl : p.ipos < ilen) (hn : 511 ≤ p.nnode)
    (hm : byteAt p.ipos = Config.markInt ∨ byteAt p.ipos = Config.markLeaf) :
    des byteAt ilen (fuel + 1) p = .raise .treeTooLarge p.ipos := by
  simp only [des]
  rw [if_neg (by omega), if_neg (by rcases hm with h | h <;> simp [h]), if_pos (by show 511 ≤ _; exact hn)]

theorem ofNat9_toNat {n : Nat} (h : n < 512) : (BitVec.ofNat 9 n).toNat = n := by
  simp only [BitVec.toNat_ofNat]; exact Nat.mod_eq_of_lt h

/-- An arena that lists a tree's preorder entries denotes the tree there (rule R37). -/
theorem treeAt_preorder (nodes : List (Nat × NodeEntry)) (t : HuffTree) :
    ∀ (fuel base : Nat), t.depth < fuel → base + t.size ≤ 511 →
      (∀ k e, (preorderEntries t base)[k]? = some e → lookupCell nodes (base + k) = some e) →
      treeAt nodes fuel base = some t ∧ indicesAt nodes fuel base = List.range' base t.size := by
  induction t with
  | leaf x =>
    intro fuel base hf hn h
    obtain ⟨fuel, rfl⟩ : ∃ f, fuel = f + 1 := ⟨fuel - 1, by simp [HuffTree.depth] at hf; omega⟩
    have h0 := h 0 _ rfl
    rw [Nat.add_zero] at h0
    simp [treeAt, indicesAt, h0, HuffTree.size]
  | node l r ihl ihr =>
    intro fuel base hf hn h
    obtain ⟨fuel, rfl⟩ : ∃ f, fuel = f + 1 := ⟨fuel - 1, by simp [HuffTree.depth] at hf; omega⟩
    simp only [HuffTree.depth, HuffTree.size] at hf hn
    have h0 := h 0 _ rfl
    rw [Nat.add_zero] at h0
    have hpr := r.size_pos
    have hl := ihl fuel (base + 1) (by omega) (by omega) (fun k e hk => by
      rw [show base + 1 + k = base + (k + 1) by omega]
      refine h (k + 1) e ?_
      rw [preorderEntries_node, List.getElem?_cons_succ, List.getElem?_append_left]
      · exact hk
      · by_contra hh; rw [List.getElem?_eq_none (by omega)] at hk; cases hk)
    have hr := ihr fuel (base + 1 + l.size) (by omega) (by omega) (fun k e hk => by
      rw [show base + 1 + l.size + k = base + (l.size + k + 1) by omega]
      refine h _ e ?_
      rw [preorderEntries_node, List.getElem?_cons_succ, List.getElem?_append_right (by simp)]
      simpa using hk)
    simp only [treeAt, indicesAt, h0, ofNat9_toNat (show base + 1 < 512 by omega),
      ofNat9_toNat (show base + 1 + l.size < 512 by omega), hl, hr]
    refine ⟨by simp, ?_⟩
    simp only [HuffTree.size, Bool.false_eq_true, if_false]
    rw [show 1 + l.size + r.size = (l.size + r.size) + 1 by omega, List.range'_succ, ← List.range'_append_1]

theorem preorderEntries_entry (t : HuffTree) (base k : Nat) (e : NodeEntry) (hb : base + t.size ≤ 511)
    (h : (preorderEntries t base)[k]? = some e) : e.freq = 0#32 ∧ (e.leaf = false → e.left.toNat = base + k + 1) := by
  induction t generalizing base k with
  | leaf x => cases k <;> simp [preorderEntries_leaf] at h; subst h; simp [desLeaf]
  | node l r ihl ihr =>
    simp only [HuffTree.size] at hb
    have hpr := r.size_pos
    cases k with
    | zero =>
      simp [preorderEntries_node] at h; subst h
      refine ⟨rfl, fun _ => ?_⟩
      rw [Nat.add_zero]; exact ofNat9_toNat (by omega)
    | succ k =>
      rw [preorderEntries_node, List.getElem?_cons_succ] at h
      by_cases hk : k < l.size
      · rw [List.getElem?_append_left (by simpa using hk)] at h
        have := ihl (base + 1) k (by omega) h
        exact ⟨this.1, fun hh => by have := this.2 hh; omega⟩
      · rw [List.getElem?_append_right (by first | omega | (simp; omega))] at h
        simp only [preorderEntries_length] at h
        have := ihr (base + 1 + l.size) (k - l.size) (by omega) h
        exact ⟨this.1, fun hh => by have := this.2 hh; omega⟩

/-- Rule R175: the byte grammar is prefix-free on trees. -/
theorem ser_append_inj (t u : HuffTree) (xs ys : List Byte) (h : ser t ++ xs = ser u ++ ys) : t = u ∧ xs = ys := by
  induction t generalizing u xs ys with
  | leaf x =>
    cases u with
    | leaf y => simp [ser] at h; exact ⟨by rw [h.1], h.2⟩
    | node l r => simp [ser] at h; exact absurd h.1 (by decide)
  | node l r ihl ihr =>
    cases u with
    | leaf y => simp [ser] at h; exact absurd h.1 (by decide)
    | node l' r' =>
      simp only [ser, List.cons_append, List.append_assoc, List.cons.injEq, true_and] at h
      obtain ⟨rfl, h1⟩ := ihl _ _ _ h
      obtain ⟨rfl, h2⟩ := ihr _ _ _ h1
      exact ⟨rfl, h2⟩

/-- A tree's records are unfinished until the last (rule R175). -/
theorem unfinished_take (t : HuffTree) {n : Nat} (h : n < t.size) : 0 < treesToCome 1 (t.records.take n) := by
  rcases unfinished_or_tree _ (t.records.take n) le_rfl with h1 | ⟨u, qs, e⟩
  · exact h1
  · exfalso
    have h2 : ser u ++ recordBytes (qs ++ t.records.drop n) = ser t ++ [] := by
      rw [← recordBytes_records, ← recordBytes_append, ← List.append_assoc, ← e, List.take_append_drop,
        recordBytes_records, List.append_nil]
    obtain ⟨rfl, h3⟩ := ser_append_inj _ _ _ _ h2
    have := congrArg List.length e
    rw [List.length_take, List.length_append, u.records_length] at this
    omega

end Machine
end Sys2Proof
end

