-- ==== Sys2Proof/Laws/Heap.lean ====
section
/-! SUPPORT. The priority queue: its order, HeapInsert and HeapExtract. -/

namespace Sys2Proof.Machine

/-! ## The queue order (rule R131) -/

theorem Arena.less_iff (A : Arena) (a b : Index) :
    A.less a b = true ↔ (A.freqOf a).toNat < (A.freqOf b).toNat ∨
      ((A.freqOf a).toNat = (A.freqOf b).toNat ∧ a.toNat < b.toNat) := by
  simp [Arena.less, BitVec.lt_def, BitVec.toNat_eq]

theorem Arena.less_asymm {A : Arena} {a b : Index} (h : A.less a b = true) : A.less b a = false := by
  rw [Bool.eq_false_iff, ne_eq, Arena.less_iff]
  rw [Arena.less_iff] at h
  omega

theorem Arena.less_trans {A : Arena} {a b c : Index} (h1 : A.less a b = true) (h2 : A.less b c = true) :
    A.less a c = true := by
  rw [Arena.less_iff] at *
  omega

theorem Arena.not_less_trans {A : Arena} {a b c : Index} (h1 : A.less a b = false) (h2 : A.less b c = false) :
    A.less a c = false := by
  rw [Bool.eq_false_iff, ne_eq, Arena.less_iff] at *
  omega

/-- The order is total on distinct indices (rule R131). -/
theorem Arena.less_total {A : Arena} {a b : Index} (h : a ≠ b) (h1 : A.less b a = false) : A.less a b = true := by
  have h' : a.toNat ≠ b.toNat := fun e => h (BitVec.eq_of_toNat_eq e)
  rw [Bool.eq_false_iff, ne_eq, Arena.less_iff] at h1
  rw [Arena.less_iff]
  omega

theorem Arena.less_congr {A B : Arena} (h : A.nodes = B.nodes) (a b : Index) : A.less a b = B.less a b := by
  have hf : A.freqOf = B.freqOf := by
    funext i
    rw [Arena.freqOf, Arena.freqOf, h]
  rw [Arena.less, Arena.less, hf]

/-! ## Heap positions -/

theorem heapAt_set (A : Arena) (p q : Nat) (x : Index) :
    ({ A with heap := setCell p x A.heap } : Arena).heapAt q = if q = p then x else A.heapAt q := by
  simp only [Arena.heapAt, lookupCell_setCell]
  by_cases h : q = p <;> simp [h]

theorem heapAt_swap (A : Arena) (p q r : Nat) :
    (A.swap p q).heapAt r = if r = p then A.heapAt q else if r = q then A.heapAt p else A.heapAt r := by
  simp only [Arena.swap, Arena.heapAt, lookupCell_setCell]
  by_cases h : r = p
  · simp [h]
  · by_cases h' : r = q
    · have h'' : ¬ q = p := fun e => h (h'.trans e)
      simp [h', h'']
    · simp [h, h']

@[simp] theorem swap_nodes (A : Arena) (p q : Nat) : (A.swap p q).nodes = A.nodes := rfl
@[simp] theorem swap_nnode (A : Arena) (p q : Nat) : (A.swap p q).nnode = A.nnode := rfl
@[simp] theorem swap_hsize (A : Arena) (p q : Nat) : (A.swap p q).hsize = A.hsize := rfl

theorem swap_less (A : Arena) (p q : Nat) (a b : Index) : (A.swap p q).less a b = A.less a b :=
  Arena.less_congr rfl a b

theorem siftUp_kept (fuel p : Nat) (A : Arena) :
    (Arena.siftUp fuel p A).nodes = A.nodes ∧ (Arena.siftUp fuel p A).nnode = A.nnode ∧
    (Arena.siftUp fuel p A).hsize = A.hsize := by
  induction fuel generalizing p A with
  | zero => exact ⟨rfl, rfl, rfl⟩
  | succ fuel ih =>
    simp only [Arena.siftUp]
    split
    · have := ih ((p - 1) / 2) (A.swap p ((p - 1) / 2)); simpa using this
    · exact ⟨rfl, rfl, rfl⟩

theorem siftDown_kept (fuel p : Nat) (A : Arena) :
    (Arena.siftDown fuel p A).nodes = A.nodes ∧ (Arena.siftDown fuel p A).nnode = A.nnode ∧
    (Arena.siftDown fuel p A).hsize = A.hsize := by
  induction fuel generalizing p A with
  | zero => exact ⟨rfl, rfl, rfl⟩
  | succ fuel ih =>
    simp only [Arena.siftDown]
    split
    · exact ⟨rfl, rfl, rfl⟩
    · have := ih (A.leastOf p) (A.swap p (A.leastOf p)); simpa using this

theorem swap_queue (A : Arena) {p q : Nat} (hp : p < A.hsize) (hq : q < A.hsize) :
    (A.swap p q).queue.Perm A.queue := by
  have h1 : (A.swap p q).queue = ((List.range A.hsize).map (Equiv.swap p q)).map A.heapAt := by
    simp only [Arena.queue, swap_hsize, List.map_map]
    apply List.map_congr_left
    intro r _
    rw [heapAt_swap, Function.comp, Equiv.swap_apply_def]
    split
    · rfl
    · split <;> rfl
  rw [h1]
  refine List.Perm.map _ ?_
  rw [List.perm_ext_iff_of_nodup (List.nodup_range.map (Equiv.injective _)) List.nodup_range]
  intro r
  simp only [List.mem_map, List.mem_range]
  constructor
  · rintro ⟨a, ha, rfl⟩
    rw [Equiv.swap_apply_def]; split
    · omega
    · split <;> omega
  · intro hr
    refine ⟨Equiv.swap p q r, ?_, Equiv.swap_apply_self _ _ _⟩
    rw [Equiv.swap_apply_def]; split
    · omega
    · split <;> omega

/-! ## Sift up (rule R133) -/

/-- The heap property but for one position, which may be too small for its parent. -/
structure Arena.UpAt (A : Arena) (p : Nat) : Prop where
  rest : ∀ q, 0 < q → q < A.hsize → q ≠ p → A.less (A.heapAt q) (A.heapAt ((q - 1) / 2)) = false
  skip : ∀ q, 0 < q → q < A.hsize → (q - 1) / 2 = p → 0 < p → A.less (A.heapAt q) (A.heapAt ((p - 1) / 2)) = false

theorem siftUp_ordered (fuel p : Nat) (A : Arena) (hf : p ≤ fuel) (hp : p < A.hsize) (h : A.UpAt p) :
    (Arena.siftUp fuel p A).heapOrdered ∧ (Arena.siftUp fuel p A).queue.Perm A.queue := by
  induction fuel generalizing p A with
  | zero =>
    obtain rfl : p = 0 := by omega
    exact ⟨fun q h0 hq => h.rest q h0 hq (by omega), List.Perm.refl _⟩
  | succ fuel ih =>
    simp only [Arena.siftUp]
    split
    · rename_i hc
      simp only [Bool.and_eq_true, decide_eq_true_eq] at hc
      obtain ⟨hp0, hl⟩ := hc
      have hpar : (p - 1) / 2 < p := by omega
      have key := ih ((p - 1) / 2) (A.swap p ((p - 1) / 2)) (by omega) (by simp; omega) ?_
      · exact ⟨key.1, key.2.trans (swap_queue A hp (by omega))⟩
      · refine ⟨fun q h0 hq hne => ?_, fun q h0 hq hch hpp => ?_⟩
        · simp only [swap_hsize] at hq
          rw [swap_less, heapAt_swap, heapAt_swap, if_neg hne]
          by_cases h1 : q = p
          · subst h1
            rw [if_pos rfl, if_neg (by omega), if_pos rfl]
            exact Arena.less_asymm hl
          · rw [if_neg h1]
            by_cases h2 : (q - 1) / 2 = p
            · rw [if_pos h2]; exact h.skip q h0 hq h2 hp0
            · rw [if_neg h2]
              by_cases h3 : (q - 1) / 2 = (p - 1) / 2
              · rw [if_pos h3]
                by_contra hh
                rw [Bool.not_eq_false] at hh
                have := h.rest q h0 hq h1
                rw [h3, Arena.less_trans hh hl] at this
                cases this
              · rw [if_neg h3]; exact h.rest q h0 hq h1
        · simp only [swap_hsize] at hq
          rw [swap_less, heapAt_swap, heapAt_swap, if_neg (show ((p - 1) / 2 - 1) / 2 ≠ p by omega),
            if_neg (show ((p - 1) / 2 - 1) / 2 ≠ (p - 1) / 2 by omega)]
          have hpp' := h.rest ((p - 1) / 2) hpp (by omega) (by omega)
          by_cases h1 : q = p
          · rw [if_pos h1]; exact hpp'
          · rw [if_neg h1, if_neg (by omega)]
            have h2 := h.rest q h0 hq h1
            rw [hch] at h2
            exact Arena.not_less_trans h2 hpp'
    · rename_i hc
      simp only [Bool.and_eq_true, decide_eq_true_eq, not_and, Bool.not_eq_true] at hc
      refine ⟨fun q h0 hq => ?_, List.Perm.refl _⟩
      by_cases h1 : q = p
      · subst h1; exact hc h0
      · exact h.rest q h0 hq h1

/-- HeapInsert leaves NODE and NNODE and counts one more entry (rule R133). -/
theorem heapInsert_kept (A : Arena) (x : Index) :
    (A.heapInsert x).hsize = A.hsize + 1 ∧ (A.heapInsert x).nodes = A.nodes ∧
    (A.heapInsert x).nnode = A.nnode := by
  have hk := siftUp_kept A.hsize A.hsize { A with heap := setCell A.hsize x A.heap, hsize := A.hsize + 1 }
  exact ⟨hk.2.2, hk.1, hk.2.1⟩

/-- HeapInsert keeps the heap property, and its argument joins the queue (rule R133). -/
theorem heapInsert_queue (A : Arena) (x : Index) (h : A.heapOrdered) :
    (A.heapInsert x).heapOrdered ∧ (A.heapInsert x).queue.Perm (x :: A.queue) := by
  have hat : ∀ q, ({ A with heap := setCell A.hsize x A.heap, hsize := A.hsize + 1 } : Arena).heapAt q =
      if q = A.hsize then x else A.heapAt q := fun q => heapAt_set A A.hsize q x
  have hs := siftUp_ordered A.hsize A.hsize { A with heap := setCell A.hsize x A.heap, hsize := A.hsize + 1 }
    (Nat.le_refl _) (Nat.lt_succ_self _) (by
      refine ⟨fun q h0 hq hne => ?_, fun q h0 hq hch _ => ?_⟩
      · simp only at hq
        rw [hat, hat, if_neg hne, if_neg (by omega)]
        exact (Arena.less_congr (B := A) rfl _ _).trans (h q h0 (by omega))
      · simp only at hq; omega)
  refine ⟨hs.1, hs.2.trans ?_⟩
  have : ({ A with heap := setCell A.hsize x A.heap, hsize := A.hsize + 1 } : Arena).queue = A.queue ++ [x] := by
    simp only [Arena.queue, List.range_succ, List.map_append, List.map_cons, List.map_nil]
    rw [hat, if_pos rfl]
    congr 1
    apply List.map_congr_left
    intro q hq
    rw [hat, if_neg (by simp at hq; omega)]
  rw [this]
  exact List.perm_append_singleton x A.queue

/-! ## Sift down (rule R134) -/

/-- The heap property but for one position, which may be too large for its children. -/
structure Arena.DownAt (A : Arena) (p : Nat) : Prop where
  rest : ∀ q, 0 < q → q < A.hsize → (q - 1) / 2 ≠ p → A.less (A.heapAt q) (A.heapAt ((q - 1) / 2)) = false
  skip : ∀ q, 0 < q → q < A.hsize → (q - 1) / 2 = p → 0 < p → A.less (A.heapAt q) (A.heapAt ((p - 1) / 2)) = false

theorem leastOf_spec (A : Arena) (p : Nat) :
    (A.leastOf p = p ∧ ∀ q, 0 < q → q < A.hsize → (q - 1) / 2 = p → A.less (A.heapAt q) (A.heapAt p) = false) ∨
    (0 < A.leastOf p ∧ A.leastOf p < A.hsize ∧ (A.leastOf p - 1) / 2 = p ∧ p < A.leastOf p ∧
      A.less (A.heapAt (A.leastOf p)) (A.heapAt p) = true ∧
      ∀ q, 0 < q → q < A.hsize → (q - 1) / 2 = p → A.less (A.heapAt q) (A.heapAt (A.leastOf p)) = false) := by
  have hch : ∀ q, 0 < q → (q - 1) / 2 = p → q = 2 * p + 1 ∨ q = 2 * p + 2 := by omega
  have irr : ∀ a, A.less a a = false := fun a => by
    cases hh : A.less a a
    · rfl
    · rw [Arena.less_asymm hh] at hh; cases hh
  by_cases h1 : 2 * p + 1 < A.hsize ∧ A.less (A.heapAt (2 * p + 1)) (A.heapAt p) = true
  · by_cases h2 : 2 * p + 2 < A.hsize ∧ A.less (A.heapAt (2 * p + 2)) (A.heapAt (2 * p + 1)) = true
    · have e : A.leastOf p = 2 * p + 2 := by simp [Arena.leastOf, h1, h2]
      right
      rw [e]
      refine ⟨by omega, h2.1, by omega, by omega, Arena.less_trans h2.2 h1.2, fun q h0 hq hp => ?_⟩
      rcases hch q h0 hp with rfl | rfl
      · exact Arena.less_asymm h2.2
      · exact irr _
    · have e : A.leastOf p = 2 * p + 1 := by
        simp only [Arena.leastOf, h1, decide_true, Bool.and_self, if_true]
        rw [if_neg]; simpa using h2
      right
      rw [e]
      refine ⟨by omega, h1.1, by omega, by omega, h1.2, fun q h0 hq hp => ?_⟩
      rcases hch q h0 hp with rfl | rfl
      · exact irr _
      · simpa [hq] using h2
  · have e1 : (if (decide (2 * p + 1 < A.hsize) && A.less (A.heapAt (2 * p + 1)) (A.heapAt p)) = true then 2 * p + 1 else p) = p := by
      rw [if_neg]; simpa using h1
    by_cases h2 : 2 * p + 2 < A.hsize ∧ A.less (A.heapAt (2 * p + 2)) (A.heapAt p) = true
    · have e : A.leastOf p = 2 * p + 2 := by simp only [Arena.leastOf, e1]; simp [h2]
      right
      rw [e]
      refine ⟨by omega, h2.1, by omega, by omega, h2.2, fun q h0 hq hp => ?_⟩
      rcases hch q h0 hp with rfl | rfl
      · have h3 : A.less (A.heapAt (2 * p + 1)) (A.heapAt p) = false := by simpa [hq] using h1
        cases hh : A.less (A.heapAt (2 * p + 1)) (A.heapAt (2 * p + 2))
        · rfl
        · rw [Arena.less_trans hh h2.2] at h3; cases h3
      · exact irr _
    · have e : A.leastOf p = p := by
        simp only [Arena.leastOf, e1]; rw [if_neg]; simpa using h2
      left
      refine ⟨e, fun q h0 hq hp => ?_⟩
      rcases hch q h0 hp with rfl | rfl
      · simpa [hq] using h1
      · simpa [hq] using h2

theorem siftDown_ordered (fuel p : Nat) (A : Arena) (hf : A.hsize ≤ p + fuel) (h : A.DownAt p) :
    (Arena.siftDown fuel p A).heapOrdered ∧ (Arena.siftDown fuel p A).queue.Perm A.queue := by
  induction fuel generalizing p A with
  | zero =>
    refine ⟨fun q h0 hq => ?_, List.Perm.refl _⟩
    have hq : q < A.hsize := hq
    exact h.rest q h0 hq (by omega)
  | succ fuel ih =>
    simp only [Arena.siftDown]
    rcases leastOf_spec A p with ⟨e, hl⟩ | ⟨hm0, hmn, hmp, hpm, hlt, hmin⟩
    · rw [if_pos e]
      refine ⟨fun q h0 hq => ?_, List.Perm.refl _⟩
      by_cases h1 : (q - 1) / 2 = p
      · rw [h1]; exact hl q h0 hq h1
      · exact h.rest q h0 hq h1
    · rw [if_neg (by omega)]
      generalize A.leastOf p = m at *
      have key := ih m (A.swap p m) (by simp; omega) ?_
      · exact ⟨key.1, key.2.trans (swap_queue A (by omega) hmn)⟩
      · refine ⟨fun q h0 hq hne => ?_, fun q h0 hq hch _ => ?_⟩
        · simp only [swap_hsize] at hq
          rw [swap_less, heapAt_swap, heapAt_swap]
          by_cases h1 : q = p
          · subst h1
            rw [if_pos rfl, if_neg (by omega), if_neg (by omega)]
            exact h.skip m hm0 hmn hmp h0
          · rw [if_neg h1]
            by_cases h2 : q = m
            · subst h2
              rw [if_pos rfl, if_pos hmp]
              exact Arena.less_asymm hlt
            · rw [if_neg h2]
              by_cases h3 : (q - 1) / 2 = p
              · rw [if_pos h3]; exact hmin q h0 hq h3
              · rw [if_neg h3, if_neg hne]; exact h.rest q h0 hq h3
        · simp only [swap_hsize] at hq
          rw [swap_less, heapAt_swap, heapAt_swap, if_neg (by omega), if_neg (by omega), if_pos hmp]
          have := h.rest q h0 hq (by omega)
          rw [hch] at this
          exact this

/-- The root is the least entry of a heap. -/
theorem heapOrdered_root {A : Arena} (h : A.heapOrdered) (p : Nat) (hp : p < A.hsize) :
    A.less (A.heapAt p) (A.heapAt 0) = false := by
  induction p using Nat.strong_induction_on with
  | _ p ih =>
    by_cases h0 : p = 0
    · subst h0
      cases hh : A.less (A.heapAt 0) (A.heapAt 0)
      · rfl
      · rw [Arena.less_asymm hh] at hh; cases hh
    · exact Arena.not_less_trans (h p (by omega) hp) (ih ((p - 1) / 2) (by omega) (by omega))

/-- HeapExtract returns HEAP[0] (rule R134). -/
@[simp] theorem heapExtract_fst (A : Arena) : A.heapExtract.1 = A.heapAt 0 := by
  simp only [Arena.heapExtract]; split <;> rfl

/-- No entry of a heap comes before HEAP[0] (rule R134). -/
theorem heapAt_zero_least {A : Arena} (h : A.heapOrdered) {x : Index} (hx : x ∈ A.queue) (hne : x ≠ A.heapAt 0) :
    A.less (A.heapAt 0) x = true := by
  simp only [Arena.queue, List.mem_map, List.mem_range] at hx
  obtain ⟨p, hp, rfl⟩ := hx
  exact Arena.less_total (Ne.symm hne) (heapOrdered_root h p hp)

/-- HeapExtract leaves NODE and NNODE and counts one entry less (rule R134). -/
theorem heapExtract_kept (A : Arena) :
    A.heapExtract.2.hsize = A.hsize - 1 ∧ A.heapExtract.2.nodes = A.nodes ∧
    A.heapExtract.2.nnode = A.nnode := by
  simp only [Arena.heapExtract]
  split
  · have hk := siftDown_kept (A.hsize - 1) 0
      { A with hsize := A.hsize - 1, heap := setCell 0 (A.heapAt (A.hsize - 1)) A.heap }
    exact ⟨hk.2.2, hk.1, hk.2.1⟩
  · exact ⟨rfl, rfl, rfl⟩

/-- HeapExtract keeps the heap property, and what it returns leaves the queue (rule R134). -/
theorem heapExtract_queue (A : Arena) (h : A.heapOrdered) (h1 : 1 ≤ A.hsize) :
    A.heapExtract.2.heapOrdered ∧ A.queue.Perm (A.heapExtract.1 :: A.heapExtract.2.queue) := by
  obtain ⟨n, hn⟩ : ∃ n, A.hsize = n + 1 := ⟨A.hsize - 1, by omega⟩
  by_cases h0 : 0 < n
  · have e : A.heapExtract = (A.heapAt 0,
        Arena.siftDown n 0 { A with hsize := n, heap := setCell 0 (A.heapAt n) A.heap }) := by
      simp [Arena.heapExtract, hn, h0]
    rw [e]
    have hat : ∀ q, ({ A with hsize := n, heap := setCell 0 (A.heapAt n) A.heap } : Arena).heapAt q =
        if q = 0 then A.heapAt n else A.heapAt q := fun q => heapAt_set A 0 q _
    have hs := siftDown_ordered n 0 { A with hsize := n, heap := setCell 0 (A.heapAt n) A.heap } (by simp) (by
      refine ⟨fun q h0 hq hne => ?_, fun q _ _ _ hp => absurd hp (by omega)⟩
      simp only at hq
      rw [hat, hat, if_neg (by omega), if_neg hne]
      exact (Arena.less_congr (B := A) rfl _ _).trans (h q h0 (by omega)))
    refine ⟨hs.1, ?_⟩
    refine List.Perm.trans ?_ ((hs.2.symm).cons _)
    obtain ⟨m, rfl⟩ : ∃ m, n = m + 1 := ⟨n - 1, by omega⟩
    have e1 : A.queue = A.heapAt 0 :: ((List.range m).map fun k => A.heapAt (k + 1)) ++ [A.heapAt (m + 1)] := by
      simp only [Arena.queue, hn]
      rw [List.range_succ, List.map_append, List.range_succ_eq_map]
      simp [Function.comp_def]
    have e2 : ({ A with hsize := m + 1, heap := setCell 0 (A.heapAt (m + 1)) A.heap } : Arena).queue =
        A.heapAt (m + 1) :: ((List.range m).map fun k => A.heapAt (k + 1)) := by
      simp only [Arena.queue]
      rw [List.range_succ_eq_map, List.map_cons, hat, if_pos rfl, List.map_map]
      congr 1
      apply List.map_congr_left
      intro k _
      simp only [Function.comp]
      rw [hat, if_neg (by omega)]
    rw [e1, e2, List.cons_append]
    exact (List.perm_append_singleton _ _).cons _
  · obtain rfl : n = 0 := by omega
    have e : A.heapExtract = (A.heapAt 0, { A with hsize := 0 }) := by simp [Arena.heapExtract, hn]
    rw [e]
    refine ⟨fun q _ hq => absurd hq (by simp), ?_⟩
    simp [Arena.queue, hn]

end Sys2Proof.Machine
end

