-- ==== Sys2Proof/Laws/Build.lean ====
section
/-! SUPPORT. BUILD: the arena and the queue represent a list of items, and each round is one greedy round. -/

namespace Sys2Proof.Machine

/-! ## What an arena denotes (rule R37) -/

/-- An arena entry denotes a tree, said by the tree. -/
def Denotes (nodes : List (Nat × NodeEntry)) : HuffTree → Nat → Prop
  | .leaf x, i => ∃ e, lookupCell nodes i = some e ∧ e.leaf = true ∧ e.sym = x
  | .node l r, i => ∃ e, lookupCell nodes i = some e ∧ e.leaf = false ∧
      Denotes nodes l e.left.toNat ∧ Denotes nodes r e.right.toNat

theorem Denotes.treeAt {nodes : List (Nat × NodeEntry)} {t : HuffTree} {i fuel : Nat} (h : Denotes nodes t i)
    (hf : t.depth < fuel) : treeAt nodes fuel i = some t := by
  induction t generalizing i fuel with
  | leaf x =>
    obtain ⟨fuel, rfl⟩ : ∃ f, fuel = f + 1 := ⟨fuel - 1, by omega⟩
    obtain ⟨e, he, hl, rfl⟩ := h
    simp [Machine.treeAt, he, hl]
  | node l r ihl ihr =>
    obtain ⟨fuel, rfl⟩ : ∃ f, fuel = f + 1 := ⟨fuel - 1, by omega⟩
    simp only [HuffTree.depth] at hf
    obtain ⟨e, he, hl, h1, h2⟩ := h
    simp [Machine.treeAt, he, hl, ihl h1 (by omega : l.depth < fuel), ihr h2 (by omega : r.depth < fuel)]

/-- One arena lists everything another does. -/
def Extends (nodes nodes' : List (Nat × NodeEntry)) : Prop :=
  ∀ i e, lookupCell nodes i = some e → lookupCell nodes' i = some e

theorem Denotes.extend {nodes nodes' : List (Nat × NodeEntry)} (hx : Extends nodes nodes') {t : HuffTree} {i : Nat}
    (h : Denotes nodes t i) : Denotes nodes' t i := by
  induction t generalizing i with
  | leaf x => obtain ⟨e, he, hl⟩ := h; exact ⟨e, hx i e he, hl⟩
  | node l r ihl ihr => obtain ⟨e, he, hl, h1, h2⟩ := h; exact ⟨e, hx i e he, hl, ihl h1, ihr h2⟩

theorem Denotes.indicesAt {nodes nodes' : List (Nat × NodeEntry)} (hx : Extends nodes nodes') {t : HuffTree}
    {i f f' : Nat} (h : Denotes nodes t i) (hf : t.depth < f) (hf' : t.depth < f') :
    indicesAt nodes' f' i = indicesAt nodes f i := by
  induction t generalizing i f f' with
  | leaf x =>
    obtain ⟨f, rfl⟩ : ∃ g, f = g + 1 := ⟨f - 1, by omega⟩
    obtain ⟨f', rfl⟩ : ∃ g, f' = g + 1 := ⟨f' - 1, by omega⟩
    obtain ⟨e, he, hl, -⟩ := h
    simp [Machine.indicesAt, he, hl, hx i e he]
  | node l r ihl ihr =>
    obtain ⟨f, rfl⟩ : ∃ g, f = g + 1 := ⟨f - 1, by omega⟩
    obtain ⟨f', rfl⟩ : ∃ g, f' = g + 1 := ⟨f' - 1, by omega⟩
    simp only [HuffTree.depth] at hf hf'
    obtain ⟨e, he, hl, h1, h2⟩ := h
    simp [Machine.indicesAt, he, hl, hx i e he, ihl h1 (by omega : l.depth < f) (by omega : l.depth < f'),
      ihr h2 (by omega : r.depth < f) (by omega : r.depth < f')]

theorem Extends.setCell {nodes : List (Nat × NodeEntry)} {n : Nat} (h : lookupCell nodes n = none) (e : NodeEntry) :
    Extends nodes (setCell n e nodes) := by
  intro i e' he
  rw [lookupCell_setCell_ne]
  · exact he
  · rintro rfl; rw [h] at he; cases he

/-! ## The queue as a plain list of items -/

/-- What rules R135 and R37 say of an internal entry of BUILD's arena: its children have smaller indices, the left
one comes first in the queue's order, and its frequency is the sum of theirs. -/
def Joins (nodes : List (Nat × NodeEntry)) (i : Nat) (e : NodeEntry) : Prop :=
  ∃ l r, lookupCell nodes e.left.toNat = some l ∧ lookupCell nodes e.right.toNat = some r ∧
    e.freq = l.freq + r.freq ∧ e.sym = 0#8 ∧ e.left.toNat < i ∧ e.right.toNat < i ∧
    (l.freq < r.freq ∨ l.freq = r.freq ∧ e.left < e.right)

theorem Joins.extend {nodes nodes' : List (Nat × NodeEntry)} (hx : Extends nodes nodes') {i : Nat} {e : NodeEntry}
    (h : Joins nodes i e) : Joins nodes' i e := by
  obtain ⟨l, r, k1, k2, k3⟩ := h
  exact ⟨l, r, hx _ _ k1, hx _ _ k2, k3⟩

/-- An arena represents a list of items: its queue is a heap of their indices, each index denotes the item's
tree, and the whole arena is what hangs below them. -/
structure Rep (f : Nat → Word) (A : Arena) (items : List QueueItem) : Prop where
  ord    : A.heapOrdered
  count  : A.nnode + items.length ≤ 512
  queue  : A.queue.Perm (items.map fun q => BitVec.ofNat 9 q.index)
  lt     : ∀ q ∈ items, q.index < A.nnode
  nodup  : (items.map QueueItem.index).Nodup
  den    : ∀ q ∈ items, Denotes A.nodes q.tree q.index
  freq   : ∀ q ∈ items, (A.freqOf (BitVec.ofNat 9 q.index)).toNat = q.freq
  fresh  : ∀ i, A.nnode ≤ i → lookupCell A.nodes i = none
  cover  : (items.flatMap fun q => indicesAt A.nodes 511 q.index).Perm (List.range A.nnode)
  size   : (items.map fun q => q.tree.size).sum = A.nnode
  last   : items ≠ [] → ∃ q ∈ items, q.index + 1 = A.nnode
  leafE  : ∀ i e, lookupCell A.nodes i = some e → e.leaf = true →
    e.freq = f e.sym.toNat ∧ e.left = Config.null ∧ e.right = Config.null
  nodeE  : ∀ i e, lookupCell A.nodes i = some e → e.leaf = false → Joins A.nodes i e

theorem Rep.hsize {f : Nat → Word} {A : Arena} {items : List QueueItem} (h : Rep f A items) :
    A.hsize = items.length := by
  have := h.queue.length_eq
  simpa [Arena.queue] using this

theorem freqOf_listed {A : Arena} {i : Nat} {e : NodeEntry} (hi : i < 512) (h : lookupCell A.nodes i = some e) :
    A.freqOf (BitVec.ofNat 9 i) = e.freq := by
  simp only [Arena.freqOf, ofNat9_toNat hi, h]

theorem Denotes.listed {nodes : List (Nat × NodeEntry)} {t : HuffTree} {i : Nat} (h : Denotes nodes t i) :
    ∃ e, lookupCell nodes i = some e := by
  cases t with
  | leaf x => obtain ⟨e, he, _⟩ := h; exact ⟨e, he⟩
  | node l r => obtain ⟨e, he, _⟩ := h; exact ⟨e, he⟩

theorem Rep.mem_queue {f : Nat → Word} {A : Arena} {items : List QueueItem} (h : Rep f A items) {x : Index} :
    x ∈ A.queue ↔ ∃ q ∈ items, x = BitVec.ofNat 9 q.index := by
  rw [h.queue.mem_iff]
  simp only [List.mem_map]
  exact ⟨fun ⟨q, hq, e⟩ => ⟨q, hq, e.symm⟩, fun ⟨q, hq, e⟩ => ⟨q, hq, e.symm⟩⟩

theorem heapAt_mem_queue {A : Arena} {p : Nat} (hp : p < A.hsize) : A.heapAt p ∈ A.queue := by
  simp only [Arena.queue, List.mem_map, List.mem_range]; exact ⟨p, hp, rfl⟩

/-- A new entry joins the arena and the queue (rules R132, R135). -/
theorem Rep.addNode {f : Nat → Word} {A : Arena} {items : List QueueItem} {e : NodeEntry} {t : HuffTree}
    (ord : A.heapOrdered) (hn : A.nnode + items.length ≤ 510)
    (queue : A.queue.Perm (items.map fun q => BitVec.ofNat 9 q.index))
    (lt : ∀ q ∈ items, q.index < A.nnode) (nodup : (items.map QueueItem.index).Nodup)
    (den : ∀ q ∈ items, Denotes A.nodes q.tree q.index)
    (freq : ∀ q ∈ items, (A.freqOf (BitVec.ofNat 9 q.index)).toNat = q.freq)
    (fresh : ∀ i, A.nnode ≤ i → lookupCell A.nodes i = none)
    (leafE : ∀ i e, lookupCell A.nodes i = some e → e.leaf = true →
      e.freq = f e.sym.toNat ∧ e.left = Config.null ∧ e.right = Config.null)
    (nodeE : ∀ i e, lookupCell A.nodes i = some e → e.leaf = false → Joins A.nodes i e)
    (hden : Denotes (setCell A.nnode e A.nodes) t A.nnode)
    (he : e.leaf = true → e.freq = f e.sym.toNat ∧ e.left = Config.null ∧ e.right = Config.null)
    (he' : e.leaf = false → Joins A.nodes A.nnode e)
    (hsize : t.size + (items.map fun q => q.tree.size).sum = A.nnode + 1)
    (hcover : (indicesAt (setCell A.nnode e A.nodes) 511 A.nnode ++
      items.flatMap fun q => indicesAt A.nodes 511 q.index).Perm (List.range (A.nnode + 1)))
    {items' : List QueueItem}
    (hitems : items'.Perm ({ freq := e.freq.toNat, index := A.nnode, tree := t } :: items)) :
    Rep f (A.addNode e) items' := by
  have hnone := fresh A.nnode (Nat.le_refl _)
  have hext : Extends A.nodes (setCell A.nnode e A.nodes) := Extends.setCell hnone e
  set q0 : QueueItem := { freq := e.freq.toNat, index := A.nnode, tree := t } with hq0
  set B : Arena := { A with nodes := setCell A.nnode e A.nodes, nnode := A.nnode + 1 } with hB
  have hBq : B.queue = A.queue := rfl
  have hfreq : ∀ q ∈ items, B.freqOf (BitVec.ofNat 9 q.index) = A.freqOf (BitVec.ofNat 9 q.index) := by
    intro q hq
    obtain ⟨e', he'⟩ := (den q hq).listed
    have := lt q hq
    rw [freqOf_listed (A := A) (by omega) he', freqOf_listed (A := B) (by omega) (hext _ _ he')]
  have hless : ∀ p q, p < A.hsize → q < A.hsize → B.less (B.heapAt p) (B.heapAt q) = A.less (A.heapAt p) (A.heapAt q) := by
    intro p q hp hq
    have hfp : ∀ p, p < A.hsize → B.freqOf (A.heapAt p) = A.freqOf (A.heapAt p) := by
      intro p hp
      have := heapAt_mem_queue hp
      rw [queue.mem_iff, List.mem_map] at this
      obtain ⟨q, hq, e⟩ := this
      rw [← e]; exact hfreq q hq
    show B.less (A.heapAt p) (A.heapAt q) = _
    simp only [Arena.less, hfp p hp, hfp q hq]
  have hBord : B.heapOrdered := fun p h0 hp => by
    have hp : p < A.hsize := hp
    rw [hless p _ hp (by omega)]; exact ord p h0 hp
  obtain ⟨i1, i2⟩ := heapInsert_queue B (BitVec.ofNat 9 A.nnode) hBord
  obtain ⟨i3, i4, i5⟩ := heapInsert_kept B (BitVec.ofNat 9 A.nnode)
  have hmem : ∀ q, q ∈ items' ↔ q = q0 ∨ q ∈ items := fun q => by rw [hitems.mem_iff]; simp
  have hnodes : (A.addNode e).nodes = setCell A.nnode e A.nodes := i4
  have hnnode : (A.addNode e).nnode = A.nnode + 1 := i5
  have hsz : ∀ q ∈ items, q.tree.size ≤ (items.map fun q => q.tree.size).sum := fun q hq =>
    List.single_le_sum (by simp) _ (List.mem_map_of_mem hq)
  constructor
  · exact i1
  · rw [hnnode, hitems.length_eq]; simp; omega
  · refine i2.trans ?_
    rw [hBq]
    refine ((queue.cons _).trans ?_)
    exact ((hitems.map fun q => BitVec.ofNat 9 q.index)).symm
  · intro q hq
    rw [hnnode]
    rcases (hmem q).mp hq with rfl | hq
    · simp [hq0]
    · have := lt q hq; omega
  · rw [(hitems.map QueueItem.index).nodup_iff, List.map_cons, List.nodup_cons]
    refine ⟨fun hh => ?_, nodup⟩
    obtain ⟨q, hq, hqe⟩ := List.mem_map.mp hh
    have := lt q hq
    simp [hq0] at hqe; omega
  · intro q hq
    rw [hnodes]
    rcases (hmem q).mp hq with rfl | hq
    · exact hden
    · exact (den q hq).extend hext
  · intro q hq
    have hfo : ∀ i, (A.addNode e).freqOf i = B.freqOf i := fun i => by
      simp only [Arena.freqOf, hnodes, hB]
    rw [hfo]
    rcases (hmem q).mp hq with rfl | hq
    · rw [freqOf_listed (A := B) (i := A.nnode) (e := e) (by omega) (by simp [hB])]
    · rw [hfreq q hq]; exact freq q hq
  · intro i hi
    rw [hnnode] at hi
    rw [hnodes, lookupCell_setCell_ne (by omega)]
    exact fresh i (by omega)
  · rw [hnnode, hnodes]
    refine (hitems.flatMap_right _).trans ?_
    rw [List.flatMap_cons]
    have : (items.flatMap fun q => indicesAt (setCell A.nnode e A.nodes) 511 q.index) =
        items.flatMap fun q => indicesAt A.nodes 511 q.index := by
      apply List.flatMap_congr
      intro q hq
      have h1 := hsz q hq
      have h2 := q.tree.depth_lt_size
      exact (den q hq).indicesAt hext (by omega) (by omega)
    rw [this]
    exact hcover
  · rw [hnnode, (hitems.map fun q => q.tree.size).sum_eq]
    simpa [hq0] using hsize
  · intro _
    exact ⟨q0, (hmem q0).mpr (.inl rfl), by rw [hnnode]⟩
  · intro i e1 h1 h2
    rw [hnodes, lookupCell_setCell] at h1
    split at h1
    · cases h1; exact he h2
    · exact leafE i e1 h1 h2
  · intro i e1 h1 h2
    rw [hnodes, lookupCell_setCell] at h1
    rw [hnodes]
    refine Joins.extend hext ?_
    split at h1
    · rename_i hi; cases h1; rw [hi]; exact he' h2
    · exact nodeE i e1 h1 h2

/-! ## What an arena lists, index 0 first -/

/-- NNODE entries, and NODE[i] is the i-th of them. -/
def Arena.Holds (A : Arena) (es : List NodeEntry) : Prop :=
  A.nnode = es.length ∧ ∀ i, lookupCell A.nodes i = es[i]?

theorem Arena.Holds.push {A B : Arena} {es : List NodeEntry} {e : NodeEntry} (h : A.Holds es)
    (hn : B.nodes = setCell A.nnode e A.nodes) (hc : B.nnode = A.nnode + 1) : B.Holds (es ++ [e]) := by
  refine ⟨by rw [hc, h.1, List.length_append, List.length_singleton], fun i => ?_⟩
  rw [hn, lookupCell_setCell, h.1, List.getElem?_append]
  rcases Nat.lt_trichotomy i es.length with hi | rfl | hi
  · rw [if_neg (by omega), if_pos hi, h.2]
  · simp
  · rw [if_neg (by omega), if_neg (by omega), h.2, List.getElem?_eq_none (by omega), List.getElem?_eq_none (by simp; omega)]

theorem Arena.Holds.addNode {A : Arena} {es : List NodeEntry} (h : A.Holds es) (e : NodeEntry) :
    (A.addNode e).Holds (es ++ [e]) :=
  h.push (siftUp_kept _ _ _).1 (siftUp_kept _ _ _).2.1

/-! ## The leaves (rule R132) -/

/-- The items of the symbols of a list, numbered from an index on. -/
def itemsFrom (f : Nat → Word) (ks : List Nat) (base : Nat) : List QueueItem :=
  ((ks.filter fun k => (f k).toNat != 0).zipIdx base).map fun p =>
    { freq := (f p.1).toNat, index := p.2, tree := .leaf (BitVec.ofNat 8 p.1) }

theorem initLeaves_rep (f : Nat → Word) (ks : List Nat) (A : Arena) (items : List QueueItem)
    (hk : ∀ k ∈ ks, k < 256) (h : Rep f A items) (hn : A.nnode + items.length + 2 * ks.length ≤ 512) :
    Rep f (initLeaves f ks A) (items ++ itemsFrom f ks A.nnode) := by
  induction ks generalizing A items with
  | nil => simpa [initLeaves, itemsFrom] using h
  | cons k ks ih =>
    simp only [List.mem_cons, forall_eq_or_imp] at hk
    simp only [List.length_cons] at hn
    simp only [initLeaves]
    by_cases h0 : f k = 0#32
    · rw [if_pos h0]
      have : itemsFrom f (k :: ks) A.nnode = itemsFrom f ks A.nnode := by simp [itemsFrom, h0]
      rw [this]
      exact ih A items hk.2 h (by omega)
    · rw [if_neg h0]
      have h0' : (f k).toNat ≠ 0 := fun e => h0 (BitVec.eq_of_toNat_eq (by simpa using e))
      have e1 : itemsFrom f (k :: ks) A.nnode =
          { freq := (f k).toNat, index := A.nnode, tree := .leaf (BitVec.ofNat 8 k) } :: itemsFrom f ks (A.nnode + 1) := by
        simp [itemsFrom, h0', List.zipIdx_cons]
      have hr : Rep f (A.addNode (buildLeaf k (f k)))
          (items ++ [{ freq := (f k).toNat, index := A.nnode, tree := .leaf (BitVec.ofNat 8 k) }]) := by
        refine Rep.addNode (t := .leaf (BitVec.ofNat 8 k)) h.ord (by omega) h.queue h.lt h.nodup h.den h.freq h.fresh
          h.leafE h.nodeE ?_ ?_ ?_ ?_ ?_ ?_
        · exact ⟨buildLeaf k (f k), by simp, rfl, rfl⟩
        · intro _
          refine ⟨?_, rfl, rfl⟩
          have : (BitVec.ofNat 8 k).toNat = k := by simp [BitVec.toNat_ofNat]; omega
          show f k = f (BitVec.ofNat 8 k).toNat
          rw [this]
        · intro hh; cases hh
        · rw [h.size]; simp [HuffTree.size]; omega
        · have : indicesAt (setCell A.nnode (buildLeaf k (f k)) A.nodes) 511 A.nnode = [A.nnode] := by
            rw [show (511 : Nat) = 510 + 1 from rfl, indicesAt, lookupCell_setCell_self]
            simp [buildLeaf]
          rw [this, List.range_succ]
          refine (List.perm_append_comm).trans ?_
          exact h.cover.append_right _
        · exact List.perm_append_singleton _ _
      have := ih (A.addNode (buildLeaf k (f k))) _ hk.2 hr (by
        have : (A.addNode (buildLeaf k (f k))).nnode = A.nnode + 1 := (siftUp_kept _ _ _).2.1
        rw [this]; simp; omega)
      have hnn : (A.addNode (buildLeaf k (f k))).nnode = A.nnode + 1 := (siftUp_kept _ _ _).2.1
      rw [hnn] at this
      rw [e1]
      simpa using this

/-- InitLeaves appends one leaf for each symbol of the list that occurs, in its order (rule R132). -/
theorem initLeaves_holds (f : Nat → Word) (ks : List Nat) {A : Arena} {es : List NodeEntry} (h : A.Holds es) :
    (initLeaves f ks A).Holds
      (es ++ (ks.filter fun k => (f k).toNat != 0).map fun k => leafEntry (fun k => (f k).toNat) k) := by
  induction ks generalizing A es with
  | nil => simpa [initLeaves] using h
  | cons k ks ih =>
    simp only [initLeaves]
    by_cases h0 : f k = 0#32
    · rw [if_pos h0]
      simpa [h0] using ih h
    · have h0' : (f k).toNat ≠ 0 := fun e => h0 (BitVec.eq_of_toNat_eq (by simpa using e))
      have e1 : buildLeaf k (f k) = leafEntry (fun k => (f k).toNat) k := by
        rw [buildLeaf, leafEntry, toWord_of_toNat]
      rw [if_neg h0, e1]
      simpa [h0'] using ih (h.addNode (leafEntry (fun k => (f k).toNat) k))

theorem start_rep (f : Nat → Word) (s : State) : Rep f (Arena.start s) [] := by
  constructor <;> simp [Arena.start, Arena.heapOrdered, Arena.queue, lookupCell]

/-- After InitLeaves the arena represents the leaf items in ascending order (rule R132). -/
theorem leavesArena_rep (s : State) :
    Rep s.freqAt s.leavesArena (leafItems fun k => (s.freqAt k).toNat) := by
  have := initLeaves_rep s.freqAt (List.range 256) (Arena.start s) [] (by simp) (start_rep s.freqAt s)
    (by simp [Arena.start])
  simpa [State.leavesArena, leafItems, presentSymbols, itemsFrom, Arena.start] using this

/-- After InitLeaves the arena lists the leaves in ascending symbol value (rule R132). -/
theorem leavesArena_holds (s : State) :
    s.leavesArena.Holds
      ((presentSymbols fun k => (s.freqAt k).toNat).map (leafEntry fun k => (s.freqAt k).toNat)) := by
  have := initLeaves_holds s.freqAt (List.range 256) (A := Arena.start s) (es := []) ⟨rfl, fun i => by simp [Arena.start, lookupCell]⟩
  simpa [State.leavesArena, presentSymbols] using this

/-! ## Combining (rule R135) -/

theorem leastItem_spec (a : QueueItem) (rest : List QueueItem) (hnd : ((a :: rest).map QueueItem.index).Nodup) :
    leastItem a rest ∈ a :: rest ∧ ∀ q ∈ a :: rest, q ≠ leastItem a rest → (leastItem a rest).before q = true := by
  induction rest generalizing a with
  | nil => simp [leastItem]
  | cons b rest ih =>
    have hab : a.index ≠ b.index := by
      simp only [List.map_cons, List.nodup_cons, List.mem_cons, not_or] at hnd; exact hnd.1.1
    simp only [leastItem]
    have tr : ∀ x y z : QueueItem, x.before y = true → y.before z = true → x.before z = true := by
      intro x y z; simp only [QueueItem.before, Bool.or_eq_true, Bool.and_eq_true, decide_eq_true_eq]; omega
    by_cases hb : b.before a = true
    · rw [if_pos hb]
      have hnd' : ((b :: rest).map QueueItem.index).Nodup := by
        simp only [List.map_cons, List.nodup_cons] at hnd ⊢; exact hnd.2
      obtain ⟨h1, h2⟩ := ih b hnd'
      refine ⟨List.mem_cons_of_mem _ h1, fun q hq hne => ?_⟩
      rcases List.mem_cons.mp hq with rfl | hq
      · by_cases he : b = leastItem b rest
        · rw [← he]; exact hb
        · exact tr _ _ _ (h2 b (by simp) he) hb
      · exact h2 q hq hne
    · rw [if_neg hb]
      have hnd' : ((a :: rest).map QueueItem.index).Nodup := by
        simp only [List.map_cons, List.nodup_cons, List.mem_cons, not_or] at hnd ⊢
        exact ⟨hnd.1.2, hnd.2.2⟩
      obtain ⟨h1, h2⟩ := ih a hnd'
      have hba : a.before b = true := by
        simp only [QueueItem.before, Bool.or_eq_true, Bool.and_eq_true, decide_eq_true_eq, not_or, not_and] at hb ⊢
        omega
      refine ⟨?_, fun q hq hne => ?_⟩
      · rcases List.mem_cons.mp h1 with h | h
        · rw [h]; simp
        · exact List.mem_cons_of_mem _ (List.mem_cons_of_mem _ h)
      · rcases List.mem_cons.mp hq with rfl | hq
        · exact h2 q (by simp) hne
        · rcases List.mem_cons.mp hq with rfl | hq
          · by_cases he : a = leastItem a rest
            · rw [← he]; exact hba
            · exact tr _ _ _ (h2 a (by simp) he) hba
          · exact h2 q (List.mem_cons_of_mem _ hq) hne

/-- The facts of a representation that extraction needs. -/
structure QRep (A : Arena) (items : List QueueItem) : Prop where
  ord   : A.heapOrdered
  bound : A.nnode ≤ 512
  queue : A.queue.Perm (items.map fun q => BitVec.ofNat 9 q.index)
  lt    : ∀ q ∈ items, q.index < A.nnode
  nodup : (items.map QueueItem.index).Nodup
  freq  : ∀ q ∈ items, (A.freqOf (BitVec.ofNat 9 q.index)).toNat = q.freq

theorem QRep.hsize {A : Arena} {items : List QueueItem} (h : QRep A items) : A.hsize = items.length := by
  have := h.queue.length_eq
  simpa [Arena.queue] using this

/-- HeapExtract takes the least item (rules R131, R134). -/
theorem QRep.extract {A : Arena} {q : QueueItem} {rest : List QueueItem} (h : QRep A (q :: rest)) :
    A.heapExtract.1 = BitVec.ofNat 9 (leastItem q rest).index ∧
    QRep A.heapExtract.2 ((q :: rest).erase (leastItem q rest)) ∧
    A.heapExtract.2.nodes = A.nodes ∧ A.heapExtract.2.nnode = A.nnode := by
  have hsz := h.hsize
  simp only [List.length_cons] at hsz
  obtain ⟨e1, e2⟩ := heapExtract_queue A h.ord (by omega)
  obtain ⟨e4, e5, e6⟩ := heapExtract_kept A
  have e3 : ∀ x : Index, x ∈ A.queue → x ≠ A.heapExtract.1 → A.less A.heapExtract.1 x = true := fun x hx hne => by
    rw [heapExtract_fst] at hne ⊢
    exact heapAt_zero_least h.ord hx hne
  obtain ⟨m1, m2⟩ := leastItem_spec q rest h.nodup
  set m := leastItem q rest
  have hfo : ∀ i, A.heapExtract.2.freqOf i = A.freqOf i := fun i => by simp only [Arena.freqOf, e5]
  have key : A.heapExtract.1 = BitVec.ofNat 9 m.index := by
    by_contra hne
    have hmq : BitVec.ofNat 9 m.index ∈ A.queue := by
      rw [h.queue.mem_iff]; exact List.mem_map_of_mem (f := fun q : QueueItem => BitVec.ofNat 9 q.index) m1
    have h1 := e3 _ hmq (Ne.symm hne)
    have hr : A.heapExtract.1 ∈ A.queue := by rw [e2.mem_iff]; simp
    rw [h.queue.mem_iff, List.mem_map] at hr
    obtain ⟨p, hp, hpe⟩ := hr
    rw [← hpe] at h1 hne
    have hpm : p ≠ m := fun e => hne (by rw [e])
    have h2 := m2 p hp hpm
    have l1 := h.lt p hp
    have l2 := h.lt m m1
    have hb := h.bound
    rw [Arena.less_iff, h.freq p hp, h.freq m m1, ofNat9_toNat (by omega), ofNat9_toNat (by omega)] at h1
    simp only [QueueItem.before, Bool.or_eq_true, Bool.and_eq_true, decide_eq_true_eq] at h2
    omega
  refine ⟨key, ?_, e5, e6⟩
  have hperm : (q :: rest).Perm (m :: (q :: rest).erase m) := List.perm_cons_erase m1
  have hsub : ∀ p, p ∈ (q :: rest).erase m → p ∈ q :: rest := fun p hp => List.mem_of_mem_erase hp
  constructor
  · exact e1
  · rw [e6]; exact h.bound
  · have h1 := e2.symm.trans (h.queue.trans (hperm.map fun q => BitVec.ofNat 9 q.index))
    rw [List.map_cons, key] at h1
    exact (List.perm_cons _).mp h1
  · intro p hp; rw [e6]; exact h.lt p (hsub p hp)
  · have := h.nodup
    rw [(hperm.map QueueItem.index).nodup_iff, List.map_cons, List.nodup_cons] at this
    exact this.2
  · intro p hp; rw [hfo]; exact h.freq p (hsub p hp)

/-- One Combine is one greedy round (rule R135). -/
theorem combine_rep {f : Nat → Word} {A : Arena} {q q' : QueueItem} {rest rest' : List QueueItem}
    (h : Rep f A (q :: rest)) (he : (q :: rest).erase (leastItem q rest) = q' :: rest')
    (hsum : ((q :: rest).map QueueItem.freq).sum < 2 ^ 32) :
    Rep f A.combine
      ({ freq := (leastItem q rest).freq + (leastItem q' rest').freq, index := A.nnode,
         tree := .node (leastItem q rest).tree (leastItem q' rest').tree } ::
        (q' :: rest').erase (leastItem q' rest')) ∧
    A.combine.nodes = setCell A.nnode (combinedEntry (leastItem q rest) (leastItem q' rest')) A.nodes ∧
    A.combine.nnode = A.nnode + 1 := by
  have hc := h.count
  obtain ⟨x1, x2, x3, x4⟩ := QRep.extract (A := A) (q := q) (rest := rest)
    ⟨h.ord, by omega, h.queue, h.lt, h.nodup, h.freq⟩
  rw [he] at x2
  obtain ⟨y1, y2, y3, y4⟩ := x2.extract
  have ma := (leastItem_spec q rest h.nodup).1
  have mb := (leastItem_spec q' rest' x2.nodup).1
  set a := leastItem q rest
  set b := leastItem q' rest'
  set A2 := A.heapExtract.2.heapExtract.2 with hA2
  have hnodes : A2.nodes = A.nodes := y3.trans x3
  have hnnode : A2.nnode = A.nnode := y4.trans x4
  have pa : (q :: rest).Perm (a :: q' :: rest') := by rw [← he]; exact List.perm_cons_erase ma
  have pb : (q' :: rest').Perm (b :: (q' :: rest').erase b) := List.perm_cons_erase mb
  have pall : (q :: rest).Perm (a :: b :: (q' :: rest').erase b) := pa.trans (pb.cons a)
  set rem := (q' :: rest').erase b with hrem
  have hmem : ∀ p, p ∈ q :: rest ↔ p = a ∨ p = b ∨ p ∈ rem := fun p => by rw [pall.mem_iff]; simp
  have hba : b ∈ q :: rest := (hmem b).mpr (.inr (.inl rfl))
  have hlen := pall.length_eq
  simp only [List.length_cons] at hlen hc
  have la := h.lt a ma
  have lb := h.lt b hba
  have fa := h.freq a ma
  have fb := h.freq b hba
  have hfo : ∀ i, A2.freqOf i = A.freqOf i := fun i => by simp only [Arena.freqOf, hnodes]
  have hs := (pall.map QueueItem.freq).sum_eq
  simp only [List.map_cons, List.sum_cons] at hs
  rw [List.map_cons, List.sum_cons] at hsum
  have hadd : (A2.freqOf (BitVec.ofNat 9 a.index) + A2.freqOf (BitVec.ofNat 9 b.index)).toNat = a.freq + b.freq := by
    rw [BitVec.toNat_add, hfo, hfo, fa, fb]
    exact Nat.mod_eq_of_lt (by omega)
  set E : NodeEntry := ⟨false, 0#8, BitVec.ofNat 9 a.index, BitVec.ofNat 9 b.index,
    A2.freqOf (BitVec.ofNat 9 a.index) + A2.freqOf (BitVec.ofNat 9 b.index)⟩ with hE
  have e0 : A.combine = A2.addNode E := by
    have e1 : E = ⟨false, 0#8, A.heapExtract.1, A.heapExtract.2.heapExtract.1,
        A2.freqOf A.heapExtract.1 + A2.freqOf A.heapExtract.2.heapExtract.1⟩ := by rw [hE, x1, y1]
    rw [e1]; rfl
  have hEl : E.left.toNat = a.index := ofNat9_toNat (by omega)
  have hEr : E.right.toNat = b.index := ofNat9_toNat (by omega)
  have hEf : E.leaf = false := rfl
  rw [e0]
  obtain ⟨ea, hea⟩ := (h.den a ma).listed
  obtain ⟨eb, heb⟩ := (h.den b hba).listed
  have hext : Extends A.nodes (setCell A.nnode E A.nodes) :=
    Extends.setCell (h.fresh _ (Nat.le_refl _)) _
  have hsizes := (pall.map fun q => q.tree.size).sum_eq
  rw [h.size] at hsizes
  simp only [List.map_cons, List.sum_cons] at hsizes
  have da := a.tree.depth_lt_size
  have db := b.tree.depth_lt_size
  have hEc : E = combinedEntry a b := by
    rw [hE, combinedEntry]
    congr 1
    rw [← hadd, toWord_of_toNat]
  refine ⟨?_, by rw [← hEc, ← hnodes, ← hnnode]; exact (siftUp_kept _ _ _).1, by
    rw [← hnnode]; exact (siftUp_kept _ _ _).2.1⟩
  have hbef : a.before b = true := by
    have hnd := h.nodup
    rw [(pall.map QueueItem.index).nodup_iff] at hnd
    simp only [List.map_cons, List.nodup_cons, List.mem_cons, not_or] at hnd
    exact (leastItem_spec q rest h.nodup).2 b hba fun e => hnd.1.1 (by rw [e])
  refine Rep.addNode (items := rem) (t := .node a.tree b.tree) y2.ord (by rw [hnnode]; omega) y2.queue y2.lt y2.nodup ?_ y2.freq ?_ ?_ ?_ ?_ ?_ ?_ ?_ ?_ ?_
  · intro p hp; rw [hnodes]; exact h.den p ((hmem p).mpr (.inr (.inr hp)))
  · intro i hi; rw [hnodes]; rw [hnnode] at hi; exact h.fresh i hi
  · rw [hnodes]; exact h.leafE
  · rw [hnodes]; exact h.nodeE
  · rw [hnodes, hnnode]
    refine ⟨_, lookupCell_setCell_self _ _ _, rfl, ?_, ?_⟩
    · rw [hEl]; exact (h.den a ma).extend hext
    · rw [hEr]; exact (h.den b hba).extend hext
  · intro hh; cases hh
  · intro _
    rw [hnodes, hnnode]
    have ha' := freqOf_listed (A := A) (by omega) hea
    have hb' := freqOf_listed (A := A) (by omega) heb
    refine ⟨ea, eb, by rw [hEl]; exact hea, by rw [hEr]; exact heb, ?_, rfl, by rw [hEl]; exact la, by rw [hEr]; exact lb, ?_⟩
    · show A2.freqOf _ + A2.freqOf _ = _
      rw [hfo, hfo, ha', hb']
    · rw [ha'] at fa
      rw [hb'] at fb
      simp only [QueueItem.before, Bool.or_eq_true, Bool.and_eq_true, decide_eq_true_eq] at hbef
      rw [BitVec.lt_def, BitVec.lt_def, hEl, hEr, fa, fb]
      refine hbef.imp id fun hh => ⟨BitVec.eq_of_toNat_eq (by rw [fa, fb]; exact hh.1), hh.2⟩
  · rw [hnnode]; simp only [HuffTree.size]; omega
  · rw [hnodes, hnnode]
    have e1 : indicesAt (setCell A.nnode E A.nodes) 511 A.nnode =
        A.nnode :: (indicesAt A.nodes 511 a.index ++ indicesAt A.nodes 511 b.index) := by
      conv_lhs => rw [show (511 : Nat) = 510 + 1 from rfl, indicesAt, lookupCell_setCell_self]
      simp only [hEf, Bool.false_eq_true, if_false]
      rw [hEl, hEr, (h.den a ma).indicesAt (f := 511) hext (by omega) (by omega),
        (h.den b hba).indicesAt (f := 511) hext (by omega) (by omega)]
    rw [e1]
    have hcov := ((pall.flatMap_right fun q => indicesAt A.nodes 511 q.index).symm).trans h.cover
    rw [List.flatMap_cons, List.flatMap_cons] at hcov
    rw [List.range_succ]
    rw [List.cons_append]
    refine List.Perm.trans ?_ (List.perm_append_singleton _ _).symm
    refine List.Perm.cons _ ?_
    rw [List.append_assoc]
    exact hcov
  · rw [hnnode, ← hadd]

/-- The loop of rule R130 computes the greedy tree, and appends the greedy rounds' entries. -/
theorem combineAll_rep {f : Nat → Word} (fuel : Nat) :
    ∀ (A : Arena) (q : QueueItem) (rest : List QueueItem) (es : List NodeEntry), Rep f A (q :: rest) →
      A.Holds es → rest.length ≤ fuel → ((q :: rest).map QueueItem.freq).sum < 2 ^ 32 →
      ∃ p : QueueItem, greedy fuel A.nnode (q :: rest) = some p.tree ∧ Rep f (combineAll fuel A) [p] ∧
        p.freq = ((q :: rest).map QueueItem.freq).sum ∧
        p.tree.symbols.Perm ((q :: rest).flatMap fun q => q.tree.symbols) ∧
        (combineAll fuel A).Holds (es ++ greedyEntries fuel A.nnode (q :: rest)) := by
  induction fuel with
  | zero =>
    intro A q rest es h hes hl hs
    obtain rfl : rest = [] := List.length_eq_zero_iff.mp (by omega)
    exact ⟨q, by simp [greedy], h, by simp, by simp, by simpa [combineAll, greedyEntries] using hes⟩
  | succ fuel ih =>
    intro A q rest es h hes hl hs
    cases rest with
    | nil =>
      have hz := h.hsize
      simp only [combineAll]
      rw [if_neg (by simp at hz; omega)]
      exact ⟨q, by simp [greedy], h, by simp, by simp, by simpa [greedyEntries] using hes⟩
    | cons r rest =>
      have ma := (leastItem_spec q (r :: rest) h.nodup).1
      have hlen := (List.perm_cons_erase ma).length_eq
      cases he : (q :: r :: rest).erase (leastItem q (r :: rest)) with
      | nil => rw [he] at hlen; simp at hlen
      | cons q' rest' =>
        obtain ⟨hr, hcn, hnn⟩ := combine_rep h he hs
        rw [he] at hlen
        simp only [List.length_cons] at hlen hl
        have hQ := (QRep.extract (A := A) ⟨h.ord, by have := h.count; omega, h.queue, h.lt, h.nodup, h.freq⟩).2.1
        rw [he] at hQ
        have mb := (leastItem_spec q' rest' hQ.nodup).1
        have pa : (q :: r :: rest).Perm (leastItem q (r :: rest) :: q' :: rest') := by
          rw [← he]; exact List.perm_cons_erase ma
        have pb := List.perm_cons_erase mb
        have hlen2 := pb.length_eq
        simp only [List.length_cons] at hlen2
        have pall := pa.trans (pb.cons _)
        have hs' := (pall.map QueueItem.freq).sum_eq
        obtain ⟨p, p1, p2, p3, p4, p5⟩ := ih A.combine _ _ _ hr (hes.push hcn hnn) (by omega) (by
          simp only [List.map_cons, List.sum_cons] at hs' hs ⊢; omega)
        have hz := h.hsize
        simp only [combineAll]
        rw [if_pos (by simp at hz; omega)]
        refine ⟨p, ?_, p2, ?_, ?_, ?_⟩
        · rw [greedy]
          · simp only [he]
            rw [← hnn]; exact p1
          · simp
        · rw [p3, hs']; simp only [List.map_cons, List.sum_cons]; omega
        · refine p4.trans ?_
          refine List.Perm.trans ?_ (pall.flatMap_right fun q => q.tree.symbols).symm
          simp [List.flatMap_cons, HuffTree.symbols]
        · rw [greedyEntries]
          · simp only [he]
            rw [← hnn]
            simpa using p5
          · simp

/-- The rounds of rule R135 make internal entries only. -/
theorem greedyEntries_internal (fuel : Nat) : ∀ (next : Nat) (items : List QueueItem), ∀ e ∈ greedyEntries fuel next items,
    e.leaf = false := by
  induction fuel with
  | zero => intro next items e he; match items with | [] | [_] | _ :: _ :: _ => cases he
  | succ fuel ih =>
    intro next items e he
    match items with
    | [] | [_] => cases he
    | q :: q1 :: rest =>
      simp only [greedyEntries] at he
      split at he
      · cases he
      · exact (List.mem_cons.mp he).elim (fun h => by rw [h]; rfl) (ih _ _ e)

/-- Entry k of BUILD's arena is the leaf of the k-th smallest symbol that occurs (rule R132). -/
theorem buildEntries_leaf {f : Nat → Nat} {k x : Nat} (h : (presentSymbols f)[k]? = some x) :
    (buildEntries f)[k]? = some (leafEntry f x) := by
  obtain ⟨hk, -⟩ := List.getElem?_eq_some_iff.mp h
  rw [buildEntries, List.getElem?_append_left (by simpa using hk), List.getElem?_map, h]; rfl

/-- The leaves of BUILD's arena stand below its internal entries (rules R132, R135). -/
theorem buildEntries_leaf_iff {f : Nat → Nat} {i : Nat} {e : NodeEntry} (h : (buildEntries f)[i]? = some e) :
    e.leaf = true ↔ i < (presentSymbols f).length := by
  by_cases hi : i < (presentSymbols f).length
  · rw [buildEntries_leaf (List.getElem?_eq_getElem hi)] at h
    cases h
    exact ⟨fun _ => hi, fun _ => rfl⟩
  · rw [buildEntries, List.getElem?_append_right (by simpa using hi)] at h
    rw [greedyEntries_internal _ _ _ e (List.mem_of_getElem? h)]
    simp [hi]

/-! ## Two arenas that agree but for stale heap entries -/

/-- The same arena and the same queue, whatever HEAP holds at and above HSIZE (rule R137). -/
structure Alike (A B : Arena) : Prop where
  nodes : A.nodes = B.nodes
  nnode : A.nnode = B.nnode
  hsize : A.hsize = B.hsize
  heapAt : ∀ p, p < A.hsize → A.heapAt p = B.heapAt p

theorem Alike.less {A B : Arena} (h : Alike A B) (a b : Index) : A.less a b = B.less a b := Arena.less_congr h.nodes a b

theorem Alike.swap {A B : Arena} (h : Alike A B) {p q : Nat} (hp : p < A.hsize) (hq : q < A.hsize) : Alike (A.swap p q) (B.swap p q) := by
  refine ⟨h.nodes, h.nnode, h.hsize, fun r hr => ?_⟩
  rw [heapAt_swap, heapAt_swap, h.heapAt p hp, h.heapAt q hq, h.heapAt r hr]

theorem Alike.siftUp (n p : Nat) {A B : Arena} (h : Alike A B) (hp : p < A.hsize) : Alike (Arena.siftUp n p A) (Arena.siftUp n p B) := by
  induction n generalizing p A B with
  | zero => exact h
  | succ n ih =>
    simp only [Arena.siftUp]
    rw [h.heapAt p hp, h.heapAt ((p - 1) / 2) (by omega), h.less]
    split
    · exact ih _ (h.swap hp (by omega)) (by simp; omega)
    · exact h

theorem Alike.leastOf {A B : Arena} (h : Alike A B) {p : Nat} (hp : p < A.hsize) : A.leastOf p = B.leastOf p := by
  have hm : ∀ q, (decide (q < A.hsize) && A.less (A.heapAt q) (A.heapAt p)) = (decide (q < B.hsize) && B.less (B.heapAt q) (B.heapAt p)) := by
    intro q
    rw [← h.hsize]
    by_cases hq : q < A.hsize
    · rw [h.heapAt q hq, h.heapAt p hp, h.less]
    · simp [hq]
  simp only [Arena.leastOf]
  rw [hm]
  by_cases h1 : (decide (2 * p + 1 < B.hsize) && B.less (B.heapAt (2 * p + 1)) (B.heapAt p)) = true
  · simp only [h1, if_true]
    simp only [Bool.and_eq_true, decide_eq_true_eq] at h1
    rw [← h.hsize]
    by_cases h2 : 2 * p + 2 < A.hsize
    · rw [h.heapAt _ h2, h.heapAt (2 * p + 1) (by rw [h.hsize]; exact h1.1), h.less]
    · simp [h2]
  · rw [if_neg h1, hm]

theorem Alike.siftDown (n p : Nat) {A B : Arena} (h : Alike A B) (hp : p < A.hsize) : Alike (Arena.siftDown n p A) (Arena.siftDown n p B) := by
  induction n generalizing p A B with
  | zero => exact h
  | succ n ih =>
    simp only [Arena.siftDown]
    rw [← h.leastOf hp]
    rcases leastOf_spec A p with ⟨e, _⟩ | ⟨_, hm, _, hpm, _⟩
    · rw [if_pos e, if_pos e]; exact h
    · rw [if_neg (by omega), if_neg (by omega)]
      exact ih _ (h.swap hp hm) (by simpa using hm)

theorem Alike.extract {A B : Arena} (h : Alike A B) (h0 : 0 < A.hsize) : A.heapExtract.1 = B.heapExtract.1 ∧ Alike A.heapExtract.2 B.heapExtract.2 := by
  have e0 := h.heapAt 0 h0
  obtain ⟨n, hn⟩ : ∃ n, A.hsize = n + 1 := ⟨A.hsize - 1, by omega⟩
  have hn' : B.hsize = n + 1 := by rw [← h.hsize]; exact hn
  simp only [Arena.heapExtract, hn, hn', Nat.add_sub_cancel]
  by_cases hp : 0 < n
  · rw [if_pos hp, if_pos hp]
    refine ⟨e0, Alike.siftDown _ _ ⟨h.nodes, h.nnode, rfl, ?_⟩ hp⟩
    intro p hp'
    have hp' : p < n := hp'
    have ea := heapAt_set A 0 p (A.heapAt n)
    have eb := heapAt_set B 0 p (B.heapAt n)
    have ea' : ({ nodes := A.nodes, nnode := A.nnode, heap := setCell 0 (A.heapAt n) A.heap, hsize := n } : Arena).heapAt p = _ := ea
    have eb' : ({ nodes := B.nodes, nnode := B.nnode, heap := setCell 0 (B.heapAt n) B.heap, hsize := n } : Arena).heapAt p = _ := eb
    rw [ea', eb', h.heapAt n (by omega), h.heapAt p (by omega)]
  · rw [if_neg hp, if_neg hp]
    refine ⟨e0, h.nodes, h.nnode, rfl, ?_⟩
    intro p hp'; have hp' : p < n := hp'; omega

theorem Alike.addNode {A B : Arena} (h : Alike A B) (e : NodeEntry) : Alike (A.addNode e) (B.addNode e) := by
  simp only [Arena.addNode, Arena.heapInsert]
  rw [← h.hsize, ← h.nnode, ← h.nodes]
  refine Alike.siftUp _ _ ⟨rfl, rfl, rfl, ?_⟩ (Nat.lt_succ_self _)
  intro p hp
  have hp : p < A.hsize + 1 := hp
  have ea := heapAt_set A A.hsize p (BitVec.ofNat 9 A.nnode)
  have eb := heapAt_set B A.hsize p (BitVec.ofNat 9 A.nnode)
  refine (show _ = _ from ea).trans ?_
  refine Eq.trans ?_ (show _ = _ from eb.symm)
  by_cases hh : p = A.hsize
  · rw [if_pos hh, if_pos hh]
  · rw [if_neg hh, if_neg hh, h.heapAt p (by omega)]

theorem Alike.freqOf {A B : Arena} (h : Alike A B) (i : Index) : A.freqOf i = B.freqOf i := by
  rw [Arena.freqOf, Arena.freqOf, h.nodes]

theorem extract_hsize (A : Arena) : A.heapExtract.2.hsize = A.hsize - 1 := by
  simp only [Arena.heapExtract]
  split
  · exact (siftDown_kept _ _ _).2.2
  · rfl

theorem Alike.combine {A B : Arena} (h : Alike A B) (h1 : 1 < A.hsize) : Alike A.combine B.combine := by
  obtain ⟨e1, h2⟩ := h.extract (by omega)
  have := extract_hsize A
  obtain ⟨e2, h3⟩ := h2.extract (by omega)
  simp only [Arena.combine]
  rw [← e1, ← e2, ← h3.freqOf, ← h3.freqOf]
  exact h3.addNode _

theorem Alike.combineAll (n : Nat) {A B : Arena} (h : Alike A B) : Alike (combineAll n A) (combineAll n B) := by
  induction n generalizing A B with
  | zero => exact h
  | succ n ih =>
    simp only [Machine.combineAll]
    rw [← h.hsize]
    split
    · rename_i h1; exact ih (h.combine h1)
    · exact h

theorem Alike.initLeaves {f g : Nat → Word} (ks : List Nat) (hfg : ∀ k ∈ ks, f k = g k) {A B : Arena} (h : Alike A B) : Alike (initLeaves f ks A) (initLeaves g ks B) := by
  induction ks generalizing A B with
  | nil => exact h
  | cons k ks ih =>
    simp only [List.mem_cons, forall_eq_or_imp] at hfg
    simp only [Machine.initLeaves, ← hfg.1]
    split
    · exact ih hfg.2 h
    · exact ih hfg.2 (h.addNode _)

theorem addNode_hsize (A : Arena) (e : NodeEntry) : (A.addNode e).hsize = A.hsize + 1 := (siftUp_kept _ _ _).2.2

theorem combineAll_pos (n : Nat) (A : Arena) (h : 0 < A.hsize) : 0 < (Machine.combineAll n A).hsize := by
  induction n generalizing A with
  | zero => exact h
  | succ n ih =>
    simp only [Machine.combineAll]
    split
    · apply ih; show 0 < (Arena.addNode _ _).hsize; rw [addNode_hsize]; omega
    · exact h

theorem initLeaves_pos (f : Nat → Word) (ks : List Nat) (A : Arena) (h : A.nnode = A.hsize) : (initLeaves f ks A).nnode = (initLeaves f ks A).hsize := by
  induction ks generalizing A with
  | nil => exact h
  | cons k ks ih =>
    simp only [Machine.initLeaves]
    split
    · exact ih A h
    · apply ih; rw [addNode_hsize]; rw [show (A.addNode (buildLeaf k (f k))).nnode = A.nnode + 1 from (siftUp_kept _ _ _).2.1, h]

end Sys2Proof.Machine
end

