-- ==== Sys2Proof/Laws/Code.lean ====
section
/-! SUPPORT. DERIVE: what Visit writes, and what TRIE denotes. -/

namespace Sys2Proof.Machine

/-! ## What DERIVE writes (rules R150 to R156) -/

theorem trieEntries_leaf (x : Byte) (base : Nat) : trieEntries (.leaf x) base = [trieLeaf x] := rfl
theorem trieEntries_node (l r : HuffTree) (base : Nat) : trieEntries (.node l r) base =
    trieNode (BitVec.ofNat 9 (base + 1)) (BitVec.ofNat 9 (base + 1 + l.size)) ::
      (trieEntries l (base + 1) ++ trieEntries r (base + 1 + l.size)) := rfl

@[simp] theorem trieEntries_length (t : HuffTree) (base : Nat) : (trieEntries t base).length = t.size := by
  induction t generalizing base with
  | leaf => rfl
  | node l r ihl ihr => simp [trieEntries_node, ihl, ihr, HuffTree.size]; omega

/-- One write of CODE per leaf, in visiting order (rule R156). -/
def writeCodes (path : List Bool) (codes : List (List Bool × Byte)) (c : List (Nat × CodeEntry)) :
    List (Nat × CodeEntry) :=
  codes.foldl (fun c p => setCell p.2.toNat { valid := true, bits := path ++ p.1 } c) c

theorem writeCodes_append (path : List Bool) (xs ys : List (List Bool × Byte)) (c : List (Nat × CodeEntry)) :
    writeCodes path (xs ++ ys) c = writeCodes path ys (writeCodes path xs c) := by simp [writeCodes]

theorem writeCodes_map (path : List Bool) (b : Bool) (xs : List (List Bool × Byte)) (c : List (Nat × CodeEntry)) :
    writeCodes path (xs.map fun p => (b :: p.1, p.2)) c = writeCodes (path ++ [b]) xs c := by
  simp [writeCodes, List.foldl_map]

/-- Everything Visit does (rule R151). -/
theorem visit_spec (t : HuffTree) (path : List Bool) (d : Derived) :
    (visit t path d).1 = d.tn ∧ (visit t path d).2.tn = d.tn + t.size ∧
    (visit t path d).2.code = writeCodes path t.codes d.code ∧
    (∀ i, i < d.tn ∨ d.tn + t.size ≤ i → lookupCell (visit t path d).2.trie i = lookupCell d.trie i) ∧
    (∀ k e, (trieEntries t d.tn)[k]? = some e → lookupCell (visit t path d).2.trie (d.tn + k) = some e) := by
  induction t generalizing path d with
  | leaf x =>
    refine ⟨rfl, rfl, by simp [visit, HuffTree.codes, writeCodes], fun i hi => ?_, fun k e hk => ?_⟩
    · simp only [HuffTree.size] at hi
      exact lookupCell_setCell_ne (by omega) _ _
    · cases k with
      | zero => simp [trieEntries_leaf] at hk; subst hk; exact lookupCell_setCell_self _ _ _
      | succ k => simp [trieEntries_leaf] at hk
  | node l r ihl ihr =>
    obtain ⟨l1, l2, l3, l4, l5⟩ := ihl (path ++ [false])
      { d with tn := d.tn + 1, trie := setCell d.tn (trieNode Config.null Config.null) d.trie }
    set v0 := visit l (path ++ [false])
      { d with tn := d.tn + 1, trie := setCell d.tn (trieNode Config.null Config.null) d.trie } with hv0
    obtain ⟨r1, r2, r3, r4, r5⟩ := ihr (path ++ [true]) v0.2
    set v1 := visit r (path ++ [true]) v0.2 with hv1
    have e : visit (.node l r) path d = (d.tn,
        { v1.2 with trie := setCell d.tn (trieNode (BitVec.ofNat 9 v0.1) (BitVec.ofNat 9 v1.1)) v1.2.trie }) := rfl
    simp only at l1 l2 l3 l4 l5
    rw [e]
    have hpr := r.size_pos
    refine ⟨rfl, ?_, ?_, fun i hi => ?_, fun k e hk => ?_⟩
    · simp only [HuffTree.size]; omega
    · simp only [HuffTree.codes, writeCodes_append, writeCodes_map]
      rw [r3, l3]
    · simp only [HuffTree.size] at hi
      simp only
      rw [lookupCell_setCell_ne (by omega), r4 i (by omega), l4 i (by omega), lookupCell_setCell_ne (by omega)]
    · simp only
      cases k with
      | zero =>
        simp [trieEntries_node] at hk
        rw [Nat.add_zero, lookupCell_setCell_self, ← hk, l1, r1, l2]
      | succ k =>
        simp only [trieEntries_node, List.getElem?_cons_succ] at hk
        rw [lookupCell_setCell_ne (by omega)]
        by_cases hkl : k < l.size
        · rw [List.getElem?_append_left (by simpa using hkl)] at hk
          rw [r4 _ (by omega), show d.tn + (k + 1) = d.tn + 1 + k by omega]
          exact l5 k e hk
        · rw [List.getElem?_append_right (by simp; omega)] at hk
          simp only [trieEntries_length] at hk
          rw [l2] at r5
          have := r5 (k - l.size) e hk
          rw [show d.tn + (k + 1) = d.tn + 1 + l.size + (k - l.size) by omega]
          exact this

/-- CODE after writes, at a symbol: the last of its writes, or what was there. -/
theorem lookup_writeCodes_last (path b : List Bool) (x : Byte) (xs ys : List (List Bool × Byte))
    (c : List (Nat × CodeEntry)) (h : ∀ p, p ∈ ys → p.2 ≠ x) :
    lookupCell (writeCodes path (xs ++ (b, x) :: ys) c) x.toNat = some { valid := true, bits := path ++ b } := by
  rw [writeCodes_append]
  generalize writeCodes path xs c = c'
  have : ∀ c'', lookupCell (writeCodes path ys c'') x.toNat = lookupCell c'' x.toNat := by
    clear xs c c'
    induction ys with
    | nil => intro _; rfl
    | cons p ys ih =>
      intro c''
      simp only [List.mem_cons, forall_eq_or_imp] at h
      show lookupCell (writeCodes path ys _) _ = _
      rw [ih h.2, lookupCell_setCell_ne]
      intro e; exact h.1 (BitVec.eq_of_toNat_eq e.symm)
  show lookupCell (writeCodes path ys _) _ = _
  rw [this, lookupCell_setCell_self]

theorem lookup_writeCodes_none (path : List Bool) (x : Byte) (ys : List (List Bool × Byte))
    (c : List (Nat × CodeEntry)) (h : ∀ p, p ∈ ys → p.2 ≠ x) :
    lookupCell (writeCodes path ys c) x.toNat = lookupCell c x.toNat := by
  induction ys generalizing c with
  | nil => rfl
  | cons p ys ih =>
    simp only [List.mem_cons, forall_eq_or_imp] at h
    show lookupCell (writeCodes path ys _) _ = _
    rw [ih _ h.2, lookupCell_setCell_ne]
    intro e; exact h.1 (BitVec.eq_of_toNat_eq e.symm)

/-- Every symbol that occurs in a list of pairs has a last occurrence. -/
theorem exists_last (x : Byte) (l : List (List Bool × Byte)) (h : ∃ p ∈ l, p.2 = x) :
    ∃ xs b ys, l = xs ++ (b, x) :: ys ∧ ∀ p ∈ ys, p.2 ≠ x := by
  induction l with
  | nil => obtain ⟨p, hp, _⟩ := h; cases hp
  | cons q l ih =>
    by_cases hl : ∃ p ∈ l, p.2 = x
    · obtain ⟨xs, b, ys, rfl, hy⟩ := ih hl
      exact ⟨q :: xs, b, ys, rfl, hy⟩
    · obtain ⟨p, hp, hpx⟩ := h
      rcases List.mem_cons.mp hp with rfl | hp
      · exact ⟨[], p.1, l, by rw [← hpx]; rfl, fun p' hp' e => hl ⟨p', hp', e⟩⟩
      · exact absurd ⟨p, hp, hpx⟩ hl

theorem deriveTables_code (t : HuffTree) :
    (deriveTables t).code = writeCodes [] t.codeTable Derived.start.code := by
  cases t with
  | leaf x => rfl
  | node l r => exact (visit_spec (.node l r) [] Derived.start).2.2.1

theorem start_code (x : Byte) : lookupCell Derived.start.code x.toNat = some { valid := false, bits := [] } := by
  simp only [Derived.start, lookupCell_tabulate]
  rw [if_pos x.isLt]

/-- CODE after DERIVE, at a symbol of the tree. -/
theorem derive_code_some (t : HuffTree) (x : Byte) (h : ∃ p ∈ t.codeTable, p.2 = x) :
    ∃ xs b ys, t.codeTable = xs ++ (b, x) :: ys ∧ (∀ p ∈ ys, p.2 ≠ x) ∧
      lookupCell (deriveTables t).code x.toNat = some { valid := true, bits := b } := by
  obtain ⟨xs, b, ys, e, hy⟩ := exists_last x _ h
  refine ⟨xs, b, ys, e, hy, ?_⟩
  rw [deriveTables_code, e, lookup_writeCodes_last _ _ _ _ _ _ hy]; rfl

/-- CODE after DERIVE, at a symbol the tree has not. -/
theorem derive_code_none (t : HuffTree) (x : Byte) (h : ¬ ∃ p ∈ t.codeTable, p.2 = x) :
    lookupCell (deriveTables t).code x.toNat = some { valid := false, bits := [] } := by
  rw [deriveTables_code, lookup_writeCodes_none _ _ _ _ (fun p hp e => h ⟨p, hp, e⟩), start_code]

theorem codes_symbols (t : HuffTree) : t.codes.map Prod.snd = t.symbols := by
  induction t with
  | leaf x => rfl
  | node l r ihl ihr => simp [HuffTree.codes, HuffTree.symbols, ← ihl, ← ihr, Function.comp_def]

theorem codeTable_symbols (t : HuffTree) : t.codeTable.map Prod.snd = t.symbols := by
  cases t with
  | leaf x => rfl
  | node l r => exact codes_symbols _

theorem codeTable_unique {t : HuffTree} (h : t.symbols.Nodup) {b b' : List Bool} {x : Byte}
    (h1 : (b, x) ∈ t.codeTable) (h2 : (b', x) ∈ t.codeTable) : b = b' := by
  rw [← codeTable_symbols] at h
  have := List.inj_on_of_nodup_map h h1 h2 rfl
  exact congrArg Prod.fst this

/-! ## Walking TRIE (rule R40) -/

/-- A tree's trie stands at an index of a state's TRIE. -/
def TrieAt (s : State) (t : HuffTree) (base : Nat) : Prop :=
  ∀ k e, (trieEntries t base)[k]? = some e → s.trieAt (base + k) = e

theorem TrieAt.left {s : State} {l r : HuffTree} {base : Nat} (h : TrieAt s (.node l r) base) :
    TrieAt s l (base + 1) := fun k e hk => by
  rw [show base + 1 + k = base + (k + 1) by omega]
  refine h (k + 1) e ?_
  rw [trieEntries_node, List.getElem?_cons_succ, List.getElem?_append_left]
  · exact hk
  · by_contra hh; rw [List.getElem?_eq_none (by omega)] at hk; cases hk

theorem TrieAt.right {s : State} {l r : HuffTree} {base : Nat} (h : TrieAt s (.node l r) base) :
    TrieAt s r (base + 1 + l.size) := fun k e hk => by
  rw [show base + 1 + l.size + k = base + (l.size + k + 1) by omega]
  refine h _ e ?_
  rw [trieEntries_node, List.getElem?_cons_succ, List.getElem?_append_right (by simp)]
  simpa using hk

theorem TrieAt.root_node {s : State} {l r : HuffTree} {base : Nat} (h : TrieAt s (.node l r) base) :
    s.trieAt base = trieNode (BitVec.ofNat 9 (base + 1)) (BitVec.ofNat 9 (base + 1 + l.size)) := h 0 _ rfl

theorem TrieAt.root_leaf {s : State} {x : Byte} {base : Nat} (h : TrieAt s (.leaf x) base) :
    s.trieAt base = trieLeaf x := h 0 _ rfl

theorem ofNat9_ne_null {n : Nat} (h : n < 511) : BitVec.ofNat 9 n ≠ Config.null := by
  intro e
  have := congrArg BitVec.toNat e
  rw [ofNat9_toNat (by omega)] at this
  simp at this; omega

/-- The walk in a tree's trie reaches a leaf exactly along the tree's codes. -/
theorem trieWalk_iff {s : State} (t : HuffTree) (base : Nat) (h : TrieAt s t base) (hb : base + t.size ≤ 511)
    (bits : List Bool) (x : Byte) :
    (∃ u, trieWalk s base bits = some u ∧ (s.trieAt u).leaf = true ∧ (s.trieAt u).sym = x) ↔
      (bits, x) ∈ t.codes := by
  induction t generalizing base bits with
  | leaf y =>
    have h0 := h.root_leaf
    cases bits with
    | nil => simp [trieWalk, h0, trieLeaf, HuffTree.codes]; exact eq_comm
    | cons b bits => simp [trieWalk, h0, trieLeaf, HuffTree.codes]
  | node l r ihl ihr =>
    simp only [HuffTree.size] at hb
    have hpr := r.size_pos
    have h0 := h.root_node
    cases bits with
    | nil => simp [trieWalk, h0, trieNode, HuffTree.codes]
    | cons b bits =>
      cases b
      · have hn := ofNat9_ne_null (show base + 1 < 511 by omega)
        have e : trieWalk s base (false :: bits) = trieWalk s (base + 1) bits := by
          rw [trieWalk, h0]
          simp only [trieNode, Bool.false_eq_true, if_false, if_neg hn]
          rw [ofNat9_toNat (by omega)]
        rw [e, ihl (base + 1) h.left (by omega)]
        simp [HuffTree.codes]
      · have hn := ofNat9_ne_null (show base + 1 + l.size < 511 by omega)
        have e : trieWalk s base (true :: bits) = trieWalk s (base + 1 + l.size) bits := by
          rw [trieWalk, h0]
          simp only [trieNode, Bool.false_eq_true, if_false, if_true, if_neg hn]
          rw [ofNat9_toNat (by omega)]
        rw [e, ihr (base + 1 + l.size) h.right (by omega)]
        simp [HuffTree.codes]

theorem trieAt_listed {s : State} {i : Nat} {e : TrieEntry} (h : lookupCell s.trie.cells i = some e) :
    s.trieAt i = e := by simp [State.trieAt, Store.read, Store.get?, h]

/-- A state whose TRIE is a tree's tables has the tree's trie at 0 (a tree of two leaves or more). -/
theorem trieAt_derived {s : State} {l r : HuffTree} (h : s.trie.cells = (deriveTables (.node l r)).trie) :
    TrieAt s (.node l r) 0 := fun k e hk => by
  have := (visit_spec (.node l r) [] Derived.start).2.2.2.2 k e hk
  apply trieAt_listed
  rw [h]; exact this

/-- TRIE after DERIVE on a one-leaf tree (rule R153). -/
theorem trieAt_derived_leaf {s : State} {x : Byte} (h : s.trie.cells = (deriveTables (.leaf x)).trie) :
    s.trieAt 0 = trieNode 1#9 Config.null ∧ s.trieAt 1 = trieLeaf x := by
  constructor <;> (apply trieAt_listed; rw [h]; simp [deriveTables, singleLeaf, lookupCell_setCell])

/-- The mapping TRIE denotes is table(T) (rules R40, R154). -/
theorem trieMaps_iff {s : State} {t : HuffTree} (ht : t.size ≤ 511) (h : s.trie.cells = (deriveTables t).trie)
    (bits : List Bool) (x : Byte) : trieMaps s bits x ↔ (bits, x) ∈ t.codeTable := by
  cases t with
  | leaf y =>
    obtain ⟨h0, h1⟩ := trieAt_derived_leaf h
    unfold trieMaps
    have hn : (1#9 : Index) ≠ Config.null := by decide
    match bits with
    | [] => simp [trieWalk, h0, trieNode, HuffTree.codeTable]
    | [false] => simp [trieWalk, h0, h1, trieNode, trieLeaf, HuffTree.codeTable, hn]; exact eq_comm
    | false :: b :: rest => simp [trieWalk, h0, h1, trieNode, trieLeaf, HuffTree.codeTable, hn]
    | true :: rest => simp [trieWalk, h0, trieNode, HuffTree.codeTable]
  | node l r => exact trieWalk_iff (.node l r) 0 (trieAt_derived h) (by simpa using ht) bits x

end Sys2Proof.Machine
end

