-- ==== Sys2Proof/Laws/Pack.lean ====
section
/-! SUPPORT. PACK and UNPACK: the payload bytes, and the walk through the trie that inverts them. -/

namespace Sys2Proof.Machine

/-! ## Bytes of bits (rules R62, R100) -/

/-- The number a bit string stands for, first bit most significant. -/
def bitsValue (g : List Bool) : Nat := g.foldl (fun acc b => 2 * acc + b.toNat) 0

theorem bitsValue_append_singleton (g : List Bool) (b : Bool) : bitsValue (g ++ [b]) = 2 * bitsValue g + b.toNat := by
  simp [bitsValue]

theorem bitsValue_append_zeros (g : List Bool) (k : Nat) :
    bitsValue (g ++ List.replicate k false) = bitsValue g * 2 ^ k := by
  induction k with
  | zero => simp
  | succ k ih =>
    rw [List.replicate_succ', ← List.append_assoc, bitsValue_append_singleton, ih]
    simp [Nat.pow_succ]; ring

theorem byteOfBits_eq (g : List Bool) : byteOfBits g = BitVec.ofNat 8 (bitsValue g) := rfl

/-- Bit 7 - i of a byte is the i-th of its eight bits (rule R62). -/
theorem byteOfBits_bit (g : List Bool) (hg : g.length = 8) (i : Nat) (hi : i < 8) :
    g[i]? = some ((byteOfBits g).getLsbD (7 - i)) := by
  match g, hg with
  | [b0, b1, b2, b3, b4, b5, b6, b7], _ =>
    have h : i = 0 ∨ i = 1 ∨ i = 2 ∨ i = 3 ∨ i = 4 ∨ i = 5 ∨ i = 6 ∨ i = 7 := by omega
    rcases h with rfl | rfl | rfl | rfl | rfl | rfl | rfl | rfl <;>
      (revert b0 b1 b2 b3 b4 b5 b6 b7; decide)

theorem paddedBits_length (bits : List Bool) : (paddedBits bits).length = 8 * ((bits.length + 7) / 8) := by
  simp only [paddedBits, List.length_append, List.length_replicate]; omega

theorem payload_length (bits : List Bool) : (payload bits).length = (bits.length + 7) / 8 := by
  simp only [payload, List.length_map, List.length_range, paddedBits_length]; omega

@[simp] theorem payload_nil : payload [] = [] := rfl

/-- The first whole byte of a payload. -/
theorem payload_cons (g rest : List Bool) (hg : g.length = 8) :
    payload (g ++ rest) = byteOfBits g :: payload rest := by
  have hp : paddedBits (g ++ rest) = g ++ paddedBits rest := by
    simp only [paddedBits, List.length_append, List.append_assoc]
    rw [show (8 - (g.length + rest.length) % 8) % 8 = (8 - rest.length % 8) % 8 by omega]
  have hl : (paddedBits (g ++ rest)).length / 8 = (paddedBits rest).length / 8 + 1 := by
    rw [hp, List.length_append]; omega
  simp only [payload]
  rw [hl, List.range_succ_eq_map, List.map_cons, List.map_map, hp]
  congr 1
  · simp [hg]
  · apply List.map_congr_left
    intro j _
    simp only [Function.comp]
    rw [List.drop_append, List.drop_eq_nil_of_le (by omega), List.nil_append,
      show 8 * (j + 1) - g.length = 8 * j by omega]

theorem payload_short (g : List Bool) (h0 : 0 < g.length) (h8 : g.length < 8) :
    payload g = [BitVec.ofNat 8 (bitsValue g * 2 ^ (8 - g.length))] := by
  have hp : paddedBits g = g ++ List.replicate (8 - g.length) false := by
    simp only [paddedBits]; rw [show (8 - g.length % 8) % 8 = 8 - g.length by omega]
  have hl : (paddedBits g).length / 8 = 1 := by rw [paddedBits_length]; omega
  have hlen : (paddedBits g).length = 8 := by rw [paddedBits_length]; omega
  simp only [payload, hl, List.range_one, List.map_cons, List.map_nil, Nat.mul_zero, List.drop_zero]
  rw [List.take_of_length_le (by omega), byteOfBits_eq, hp, bitsValue_append_zeros]

/-- A bit of a bit string stands in its payload, bit 7 first. -/
theorem payload_bit (bits : List Bool) (j : Nat) (hj : j < bits.length) :
    ∃ b, (payload bits)[j / 8]? = some b ∧ bits[j]? = some (b.getLsbD (7 - j % 8)) := by
  have hpl := paddedBits_length bits
  have hlen : ((((paddedBits bits).drop (8 * (j / 8))).take 8)).length = 8 := by
    simp only [List.length_take, List.length_drop]; omega
  refine ⟨byteOfBits (((paddedBits bits).drop (8 * (j / 8))).take 8), ?_, ?_⟩
  · simp only [payload, List.getElem?_map]
    rw [List.getElem?_range (by omega)]; rfl
  · rw [← byteOfBits_bit _ hlen (j % 8) (by omega)]
    rw [List.getElem?_take_of_lt (by omega), List.getElem?_drop, show 8 * (j / 8) + j % 8 = j by omega]
    simp only [paddedBits]
    rw [List.getElem?_append_left hj]

theorem bitsOfBytes_length (bs : List Byte) : (bitsOfBytes bs).length = 8 * bs.length := by
  induction bs with
  | nil => rfl
  | cons b bs ih =>
    simp only [bitsOfBytes] at ih
    simp [bitsOfBytes, ih]; omega

theorem bitsOfBytes_get (bs : List Byte) (j : Nat) :
    (bitsOfBytes bs)[j]? = bs[j / 8]?.map fun b => b.getLsbD (7 - j % 8) := by
  induction bs generalizing j with
  | nil => rfl
  | cons b bs ih =>
    rw [bitsOfBytes, List.flatMap_cons]
    by_cases h : j < 8
    · rw [List.getElem?_append_left (by simpa using h), List.getElem?_map, List.getElem?_range h,
        show j / 8 = 0 by omega, show j % 8 = j by omega]; rfl
    · rw [List.getElem?_append_right (by simp; omega)]
      simp only [List.length_map, List.length_range]
      have := ih (j - 8)
      rw [bitsOfBytes] at this
      rw [this, show j / 8 = (j - 8) / 8 + 1 by omega, List.getElem?_cons_succ, show (j - 8) % 8 = j % 8 by omega]

theorem input_length (s : State) : s.input.length = s.ilen.toNat := by simp [State.input, State.ibufSlice]

theorem input_getElem? (s : State) {k : Nat} (hk : k < s.ilen.toNat) : s.input[k]? = some (s.ibufByte k) := by
  simp only [State.input, State.ibufSlice, List.getElem?_map, Nat.zero_add]
  rw [List.getElem?_range hk]; rfl

/-! ## PACK (rule R186) -/

/-- A byte being filled holds exactly the pending bits. -/
def Partial.holds (p : Partial) (pend : List Bool) : Prop :=
  p.acc = bitsValue pend ∧ p.nb = pend.length ∧ pend.length < 8

/-- Packing bits is appending whole bytes; what stays pending is a short rest. -/
theorem packBits_spec (bits : List Bool) (p : Partial) (pend : List Bool) (hp : p.holds pend) :
    ∃ (full : List Byte) (p' : Partial) (pend' : List Bool), p'.holds pend' ∧
      8 * full.length + pend'.length = pend.length + bits.length ∧
      (∀ rest, payload (pend ++ bits ++ rest) = full ++ payload (pend' ++ rest)) ∧
      ∀ s, packBits bits p s = (appendAll full s).andThen fun _ s' => .ok p' s' := by
  induction bits generalizing p pend with
  | nil =>
    exact ⟨[], p, pend, hp, by simp, by simp, fun s => rfl⟩
  | cons b bits ih =>
    obtain ⟨h1, h2, h3⟩ := hp
    by_cases h8 : p.nb + 1 = 8
    · obtain ⟨full, p', pend', q1, q2, q3, q4⟩ := ih { acc := 0, nb := 0 } [] ⟨rfl, rfl, by simp⟩
      refine ⟨byteOfBits (pend ++ [b]) :: full, p', pend', q1, ?_, fun rest => ?_, fun s => ?_⟩
      · simp only [List.length_cons, List.length_nil] at q2 ⊢; omega
      · have := payload_cons (pend ++ [b]) (bits ++ rest) (by simp; omega)
        have q3 := q3 rest
        simp only [List.nil_append] at q3
        rw [show pend ++ b :: bits ++ rest = pend ++ [b] ++ (bits ++ rest) by simp, this, q3]; rfl
      · have hb : BitVec.ofNat 8 (2 * p.acc + b.toNat) = byteOfBits (pend ++ [b]) := by
          rw [byteOfBits_eq, bitsValue_append_singleton, h1]
        simp only [packBits, packBit, h8, if_true, hb]
        rw [Run.andThen_assoc]
        simp only [appendAll, Run.andThen_assoc, Run.andThen_ok]
        congr 1
        funext _ t
        exact q4 t
    · obtain ⟨full, p', pend', q1, q2, q3, q4⟩ := ih { acc := 2 * p.acc + b.toNat, nb := p.nb + 1 } (pend ++ [b])
        ⟨by rw [bitsValue_append_singleton, h1], by simp [h2], by simp; omega⟩
      refine ⟨full, p', pend', q1, ?_, fun rest => ?_, fun s => ?_⟩
      · simp only [List.length_append, List.length_cons, List.length_nil] at q2 ⊢; omega
      · rw [← q3 rest]; simp
      · simp only [packBits, packBit, h8, if_false, Run.andThen_ok]
        exact q4 s

theorem packFlush_spec (p : Partial) (pend : List Bool) (hp : p.holds pend) (s : State) :
    packFlush p s = appendAll (payload pend) s := by
  obtain ⟨h1, h2, h3⟩ := hp
  by_cases h0 : 0 < pend.length
  · rw [payload_short pend h0 h3]
    simp only [packFlush, h2, h0, if_true, appendAll, h1]
    cases append (BitVec.ofNat 8 (bitsValue pend * 2 ^ (8 - pend.length))) s <;> rfl
  · obtain rfl : pend = [] := List.length_eq_zero_iff.mp (by omega)
    simp [packFlush, h2, appendAll]

theorem appendAll_append (xs ys : List Byte) (s : State) :
    appendAll (xs ++ ys) s = (appendAll xs s).andThen fun _ t => appendAll ys t := by
  induction xs generalizing s with
  | nil => rfl
  | cons x xs ih =>
    simp only [List.cons_append, appendAll, Run.andThen_assoc]
    congr 1
    funext _ t
    exact ih t

theorem sameButOutput_codeAt {s t : State} (h : SameButOutput s t) (k : Nat) : t.codeAt k = s.codeAt k := by
  simp only [SameButOutput] at h; rw [h]; rfl

theorem Run.Ends.congr_andThen {α β : Type} {r : Run α} {f g : α → State → Run β} {okP : α → State → Prop}
    {raiseP : FaultKind → Word → State → Prop} {stopP : Fault → Prop} (h : r.Ends okP raiseP stopP)
    (hfg : ∀ a s, okP a s → f a s = g a s) : r.andThen f = r.andThen g := by
  cases r with
  | ok a s => exact hfg a s h
  | raise k v s => rfl
  | stop x => rfl

/-- Packing symbols that all have codes, in a state with the same CODE. -/
theorem packSymbols_spec (s : State) (xs : List Byte) (i : Nat) (p : Partial) (pend : List Bool) (hp : p.holds pend)
    (hv : ∀ x ∈ xs, (s.codeAt x.toNat).valid = true) (more : List Byte) :
    ∃ (full : List Byte) (p' : Partial) (pend' : List Bool), p'.holds pend' ∧
      8 * full.length + pend'.length = pend.length + (bitsOf (fun x => (s.codeAt x.toNat).bits) xs).length ∧
      payload (pend ++ bitsOf (fun x => (s.codeAt x.toNat).bits) xs) = full ++ payload pend' ∧
      ∀ t, SameButOutput s t → packSymbols (xs ++ more) i p t =
        (appendAll full t).andThen fun _ u => packSymbols more (i + xs.length) p' u := by
  induction xs generalizing i p pend with
  | nil =>
    exact ⟨[], p, pend, hp, by simp [bitsOf], by simp [bitsOf], fun t _ => by simp [appendAll]⟩
  | cons x xs ih =>
    simp only [List.mem_cons, forall_eq_or_imp] at hv
    obtain ⟨f1, p1, pend1, a1, a2, a3, a4⟩ := packBits_spec (s.codeAt x.toNat).bits p pend hp
    obtain ⟨f2, p2, pend2, b1, b2, b3, b4⟩ := ih (i + 1) p1 pend1 a1 hv.2
    have hbits : bitsOf (fun x => (s.codeAt x.toNat).bits) (x :: xs) =
        (s.codeAt x.toNat).bits ++ bitsOf (fun x => (s.codeAt x.toNat).bits) xs := by simp [bitsOf]
    refine ⟨f1 ++ f2, p2, pend2, b1, ?_, ?_, fun t ht => ?_⟩
    · rw [hbits, List.length_append, List.length_append]
      omega
    · rw [hbits, ← List.append_assoc, a3, b3, List.append_assoc]
    · have hc := sameButOutput_codeAt ht x.toNat
      simp only [List.cons_append, packSymbols, hc, hv.1, if_true, a4, Run.andThen_assoc, Run.andThen_ok,
        appendAll_append]
      refine Run.Ends.congr_andThen (appendAll_ends f1 t) fun _ u hu => ?_
      rw [b4 u (ht.trans hu)]
      simp only [List.length_cons]
      rw [show i + 1 + xs.length = i + (xs.length + 1) by omega]

/-- PACK's body when every symbol has a code: the payload is appended (rules R100, R186). -/
theorem bodyPack_spec (s : State) (hv : ∀ x ∈ s.input, (s.codeAt x.toNat).valid = true) :
    bodyPack s = appendAll (payload (bitsOf (fun x => (s.codeAt x.toNat).bits) s.input)) s := by
  obtain ⟨full, p, pend, h1, h2, h3, h4⟩ :=
    packSymbols_spec s s.input 0 { acc := 0, nb := 0 } [] ⟨rfl, rfl, by simp⟩ hv []
  have h4 := h4 s (SameButOutput.refl s)
  simp only [List.append_nil] at h4
  simp only [List.nil_append] at h3
  rw [h3, appendAll_append]
  unfold bodyPack
  rw [h4, Run.andThen_assoc]
  congr 1
  funext _ t
  exact packFlush_spec p pend h1 t

/-- PACK's body at the first symbol without a code: the whole bytes of the codes before it are appended, then
NoCode is raised (rules R189, R256). -/
theorem bodyPack_noCode (s : State) (pre post : List Byte) (x : Byte)
    (hs : s.input = pre ++ x :: post) (hx : (s.codeAt x.toNat).valid = false)
    (hv : ∀ y ∈ pre, (s.codeAt y.toNat).valid = true) :
    ∃ full : List Byte, full.length = (bitsOf (fun y => (s.codeAt y.toNat).bits) pre).length / 8 ∧
      bodyPack s = (appendAll full s).andThen fun _ t => .raise .noCode (toWord pre.length) t := by
  obtain ⟨full, p, pend, h1, h2, h3, h4⟩ :=
    packSymbols_spec s pre 0 { acc := 0, nb := 0 } [] ⟨rfl, rfl, by simp⟩ hv (x :: post)
  have h4 := h4 s (SameButOutput.refl s)
  simp only [List.length_nil, Nat.zero_add] at h2 h4
  have h5 := h1.2.2
  refine ⟨full, by omega, ?_⟩
  unfold bodyPack
  rw [hs, h4, Run.andThen_assoc]
  refine Run.Ends.congr_andThen (appendAll_ends full s) fun _ t ht => ?_
  simp only [packSymbols, sameButOutput_codeAt ht, hx]
  rfl

/-! ## UNPACK (rules R190 to R196) -/

/-- A cursor standing after `n` bits of IBUF. -/
def cursorAt (n cur em : Nat) : Cursor := { a := n / 8, k := n % 8, cur := cur, em := em }

/-- Bit number `n` of IBUF, bit 7 of each byte first (rule R62). -/
def State.inputBit (s : State) (n : Nat) : Bool := (s.ibufByte (n / 8)).getLsbD (7 - n % 8)

theorem cursorAt_advance (n cur em : Nat) : (cursorAt n cur em).advance = cursorAt (n + 1) cur em := by
  by_cases h : n % 8 + 1 = 8
  · simp only [cursorAt, Cursor.advance, h, if_true]
    rw [show (n + 1) / 8 = n / 8 + 1 by omega, show (n + 1) % 8 = 0 by omega]
  · simp only [cursorAt, Cursor.advance, h, if_false]
    rw [show (n + 1) / 8 = n / 8 by omega, show (n + 1) % 8 = n % 8 + 1 by omega]

/-- Bits stand in IBUF from bit number `n` on, below ILEN. -/
def BitsAt (s : State) (n : Nat) (bits : List Bool) : Prop :=
  n + bits.length ≤ 8 * s.ilen.toNat ∧ ∀ j b, bits[j]? = some b → s.inputBit (n + j) = b

theorem BitsAt.cons {s : State} {n : Nat} {b : Bool} {bits : List Bool} (h : BitsAt s n (b :: bits)) :
    n / 8 < s.ilen.toNat ∧ s.inputBit n = b ∧ BitsAt s (n + 1) bits := by
  have h1 := h.1
  simp only [List.length_cons] at h1
  refine ⟨by omega, h.2 0 b rfl, by omega, fun j c hj => ?_⟩
  rw [show n + 1 + j = n + (j + 1) by omega]; exact h.2 (j + 1) c hj

theorem BitsAt.append {s : State} {n : Nat} {xs ys : List Bool} (h : BitsAt s n (xs ++ ys)) :
    BitsAt s n xs ∧ BitsAt s (n + xs.length) ys := by
  have h1 := h.1
  simp only [List.length_append] at h1
  refine ⟨⟨by omega, fun j b hj => h.2 j b ?_⟩, by omega, fun j b hj => ?_⟩
  · rw [List.getElem?_append_left]
    · exact hj
    · by_contra hh; rw [List.getElem?_eq_none (by omega)] at hj; cases hj
  · rw [show n + xs.length + j = n + (xs.length + j) by omega]
    exact h.2 _ b (by rw [List.getElem?_append_right (by omega)]; simpa using hj)

theorem nextIndex_cursorAt (s : State) (n cur em : Nat) :
    nextIndex (cursorAt n cur em) s = if s.inputBit n then (s.trieAt cur).c1 else (s.trieAt cur).c0 := rfl

/-- One bit to an internal entry. -/
theorem unpackLoop_inner {s : State} {n cur em fuel : Nat} {nx : Index} (hem : em < s.count.toNat)
    (hn : n / 8 < s.ilen.toNat) (hx : nextIndex (cursorAt n cur em) s = nx) (hnull : nx ≠ Config.null)
    (hl : (s.trieAt nx.toNat).leaf = false) :
    unpackLoop (fuel + 1) (cursorAt n cur em) s = unpackLoop fuel (cursorAt (n + 1) nx.toNat em) s := by
  simp only [unpackLoop]
  rw [if_pos (by exact hem), if_neg (by show ¬ _ ≤ n / 8; omega), hx, if_neg hnull, if_neg (by simp [hl])]
  rw [cursorAt_advance]; rfl

/-- One bit to a leaf. -/
theorem unpackLoop_leaf {s : State} {n cur em fuel : Nat} {nx : Index} (hem : em < s.count.toNat)
    (hn : n / 8 < s.ilen.toNat) (hx : nextIndex (cursorAt n cur em) s = nx) (hnull : nx ≠ Config.null)
    (hl : (s.trieAt nx.toNat).leaf = true) :
    unpackLoop (fuel + 1) (cursorAt n cur em) s =
      (append (s.trieAt nx.toNat).sym s).andThen fun _ s' => unpackLoop fuel (cursorAt (n + 1) 0 (em + 1)) s' := by
  simp only [unpackLoop]
  rw [if_pos (by exact hem), if_neg (by show ¬ _ ≤ n / 8; omega), hx, if_neg hnull, if_pos hl]
  rw [cursorAt_advance]; rfl

/-- The code of a symbol, walked from an internal entry of a tree's trie. -/
theorem unpackLoop_walk (s : State) (l r : HuffTree) (code : List Bool) (x : Byte) :
    ∀ (base n em fuel : Nat), TrieAt s (.node l r) base → base + (HuffTree.node l r).size ≤ 511 →
      (code, x) ∈ (HuffTree.node l r).codes → BitsAt s n code → em < s.count.toNat →
      unpackLoop (fuel + code.length) (cursorAt n base em) s =
        (append x s).andThen fun _ s' => unpackLoop fuel (cursorAt (n + code.length) 0 (em + 1)) s' := by
  have side : ∀ (t : HuffTree), (∀ l r, t = .node l r → ∀ (code : List Bool) (base n em fuel : Nat), TrieAt s (.node l r) base →
      base + (HuffTree.node l r).size ≤ 511 → (code, x) ∈ (HuffTree.node l r).codes → BitsAt s n code → em < s.count.toNat →
      unpackLoop (fuel + code.length) (cursorAt n base em) s =
        (append x s).andThen fun _ s' => unpackLoop fuel (cursorAt (n + code.length) 0 (em + 1)) s') := by
    intro t
    induction t with
    | leaf y => intro l r h; cases h
    | node l0 r0 ihl ihr =>
      intro l r h code base n em fuel ht hb hc hbits hem
      cases h
      simp only [HuffTree.size] at hb
      have hpr := r0.size_pos
      have h0 := ht.root_node
      simp only [HuffTree.codes, List.mem_append, List.mem_map] at hc
      rcases hc with ⟨⟨c, y⟩, hm, he⟩ | ⟨⟨c, y⟩, hm, he⟩
      · simp only [Prod.mk.injEq] at he
        obtain ⟨rfl, rfl⟩ := he
        obtain ⟨b1, b2, b3⟩ := hbits.cons
        have hx : nextIndex (cursorAt n base em) s = BitVec.ofNat 9 (base + 1) := by
          rw [nextIndex_cursorAt, b2, h0]; rfl
        have hn := ofNat9_ne_null (show base + 1 < 511 by omega)
        have hN : (BitVec.ofNat 9 (base + 1)).toNat = base + 1 := ofNat9_toNat (by omega)
        have hT := ht.left
        cases l0 with
        | leaf z =>
          simp [HuffTree.codes] at hm
          obtain ⟨rfl, rfl⟩ := hm
          have hz := hT.root_leaf
          rw [List.length_singleton, unpackLoop_leaf hem b1 hx hn (by rw [hN, hz]; rfl), hN, hz]; rfl
        | node l' r' =>
          have hz := hT.root_node
          rw [List.length_cons, ← Nat.add_assoc, unpackLoop_inner hem b1 hx hn (by rw [hN, hz]; rfl), hN]
          rw [ihl l' r' rfl c (base + 1) (n + 1) em fuel hT (by omega) hm b3 hem]
          rw [show n + 1 + c.length = n + (c.length + 1) by omega]
      · simp only [Prod.mk.injEq] at he
        obtain ⟨rfl, rfl⟩ := he
        obtain ⟨b1, b2, b3⟩ := hbits.cons
        have hx : nextIndex (cursorAt n base em) s = BitVec.ofNat 9 (base + 1 + l0.size) := by
          rw [nextIndex_cursorAt, b2, h0]; rfl
        have hn := ofNat9_ne_null (show base + 1 + l0.size < 511 by omega)
        have hN : (BitVec.ofNat 9 (base + 1 + l0.size)).toNat = base + 1 + l0.size := ofNat9_toNat (by omega)
        have hT := ht.right
        cases r0 with
        | leaf z =>
          simp [HuffTree.codes] at hm
          obtain ⟨rfl, rfl⟩ := hm
          have hz := hT.root_leaf
          rw [List.length_singleton, unpackLoop_leaf hem b1 hx hn (by rw [hN, hz]; rfl), hN, hz]; rfl
        | node l' r' =>
          have hz := hT.root_node
          rw [List.length_cons, ← Nat.add_assoc, unpackLoop_inner hem b1 hx hn (by rw [hN, hz]; rfl), hN]
          rw [ihr l' r' rfl c (base + 1 + l0.size) (n + 1) em fuel hT (by omega) hm b3 hem]
          rw [show n + 1 + c.length = n + (c.length + 1) by omega]
  intro base n em fuel
  exact side (.node l r) l r rfl code base n em fuel

/-- One whole symbol under a tree's tables (rule R191). -/
theorem unpackLoop_symbol (s : State) (T : HuffTree) (hT : T.size ≤ 511) (htr : s.trie.cells = (deriveTables T).trie)
    (code : List Bool) (x : Byte) (hc : (code, x) ∈ T.codeTable) (n em fuel : Nat) (hb : BitsAt s n code)
    (hem : em < s.count.toNat) :
    unpackLoop (fuel + code.length) (cursorAt n 0 em) s =
      (append x s).andThen fun _ s' => unpackLoop fuel (cursorAt (n + code.length) 0 (em + 1)) s' := by
  cases T with
  | leaf y =>
    obtain ⟨h0, h1⟩ := trieAt_derived_leaf htr
    simp [HuffTree.codeTable] at hc
    obtain ⟨rfl, rfl⟩ := hc
    obtain ⟨b1, b2, b3⟩ := hb.cons
    have hx : nextIndex (cursorAt n 0 em) s = 1#9 := by rw [nextIndex_cursorAt, b2, h0]; rfl
    rw [List.length_singleton, unpackLoop_leaf hem b1 hx (by decide) (by show (s.trieAt 1).leaf = true; rw [h1]; rfl)]
    rw [show (1#9 : Index).toNat = 1 from rfl, h1]; rfl
  | node l r =>
    exact unpackLoop_walk s l r code x 0 n em fuel (trieAt_derived htr) (by simpa using hT) hc hb hem

theorem codeOf_mem {T : HuffTree} {x : Byte} (hx : x ∈ T.symbols) : (T.codeOf x, x) ∈ T.codeTable := by
  rw [← codeTable_symbols] at hx
  obtain ⟨p, hp, rfl⟩ := List.mem_map.mp hx
  unfold HuffTree.codeOf
  cases hf : T.codeTable.find? (fun q => q.2 == p.2) with
  | none => rw [List.find?_eq_none] at hf; exact absurd (hf p hp) (by simp)
  | some q =>
    have h1 := List.mem_of_find?_eq_some hf
    have h2 := List.find?_some hf
    simp only [beq_iff_eq] at h2
    rw [← h2]; exact h1

theorem sameButOutput_bitsAt {s t : State} (h : SameButOutput s t) {n : Nat} {bits : List Bool}
    (hb : BitsAt s n bits) : BitsAt t n bits := by
  simp only [SameButOutput] at h; rw [h]; exact hb

/-- UNPACK's loop over whole codes of a tree, one after another (rule R191). -/
theorem unpackLoop_codes (T : HuffTree) (hT : T.size ≤ 511) (ps : List (List Bool × Byte)) :
    ∀ (s : State) (n em fuel : Nat), s.trie.cells = (deriveTables T).trie → (∀ p ∈ ps, p ∈ T.codeTable) →
      BitsAt s n (ps.flatMap Prod.fst) → em + ps.length ≤ s.count.toNat →
      unpackLoop (fuel + (ps.flatMap Prod.fst).length) (cursorAt n 0 em) s =
        (appendAll (ps.map Prod.snd) s).andThen fun _ s' =>
          unpackLoop fuel (cursorAt (n + (ps.flatMap Prod.fst).length) 0 (em + ps.length)) s' := by
  induction ps with
  | nil => intro s n em fuel _ _ _ _; simp [appendAll]
  | cons p ps ih =>
    intro s n em fuel htr hps hb hem
    simp only [List.mem_cons, forall_eq_or_imp] at hps
    simp only [List.length_cons] at hem
    rw [List.flatMap_cons] at hb ⊢
    obtain ⟨b1, b2⟩ := hb.append
    rw [List.length_append, show fuel + (p.1.length + (ps.flatMap Prod.fst).length) =
      fuel + (ps.flatMap Prod.fst).length + p.1.length by omega]
    rw [unpackLoop_symbol s T hT htr _ p.2 hps.1 n em _ b1 (by omega)]
    simp only [List.map_cons, appendAll, Run.andThen_assoc]
    refine Run.Ends.congr_andThen (append_ends p.2 s) fun _ t ht => ?_
    have hc : t.count = s.count := by simp only [SameButOutput] at ht; rw [ht]
    have htr' : t.trie.cells = (deriveTables T).trie := by simp only [SameButOutput] at ht; rw [ht]; exact htr
    rw [ih t _ (em + 1) fuel htr' hps.2 (sameButOutput_bitsAt ht b2) (by rw [hc]; omega)]
    congr 1
    funext _ u
    rw [List.length_cons, Nat.add_assoc, show em + 1 + ps.length = em + (ps.length + 1) by omega]

theorem unpackLoop_done {s : State} {c : Cursor} (h : s.count.toNat ≤ c.em) (fuel : Nat) :
    unpackLoop fuel c s = .ok c s := by
  cases fuel <;> simp only [unpackLoop] <;> rw [if_neg (by omega)]

/-- Bits whose payload bytes stand in IBUF stand in IBUF. -/
theorem bitsAt_payload {s : State} {a : Nat} {bits : List Bool} (hl : a + (payload bits).length ≤ s.ilen.toNat)
    (h : BytesAt s.ibufByte a (payload bits)) : BitsAt s (8 * a) bits := by
  rw [payload_length] at hl
  refine ⟨by omega, fun j b hj => ?_⟩
  have hjl : j < bits.length := by by_contra hh; rw [List.getElem?_eq_none (by omega)] at hj; cases hj
  obtain ⟨c, h1, h2⟩ := payload_bit bits j hjl
  rw [hj, Option.some.injEq] at h2
  simp only [State.inputBit]
  rw [show (8 * a + j) / 8 = a + j / 8 by omega, show (8 * a + j) % 8 = j % 8 by omega, h _ c h1, h2]

/-- The bits of the input from a byte on stand in IBUF there. -/
theorem bitsAt_input {s : State} {a : Nat} (ha : a ≤ s.ilen.toNat) :
    BitsAt s (8 * a) (bitsOfBytes (s.input.drop a)) := by
  refine ⟨by rw [bitsOfBytes_length, List.length_drop, input_length]; omega, fun j b hj => ?_⟩
  rw [bitsOfBytes_get, List.getElem?_drop] at hj
  by_cases h : a + j / 8 < s.ilen.toNat
  · rw [input_getElem? s h, Option.map_some, Option.some.injEq] at hj
    rw [State.inputBit, show (8 * a + j) / 8 = a + j / 8 by omega, show (8 * a + j) % 8 = j % 8 by omega]
    exact hj
  · rw [List.getElem?_eq_none (by rw [input_length]; omega)] at hj; cases hj

/-- UNPACK's body reads whole codes first (rules R190, R191). -/
theorem bodyUnpack_codes (s : State) (T : HuffTree) (ps : List (List Bool × Byte)) (fuel : Nat) (hT : T.size ≤ 511)
    (htr : s.trie.cells = (deriveTables T).trie) (hps : ∀ p ∈ ps, p ∈ T.codeTable) (hc : ps.length ≤ s.count.toNat)
    (hb : BitsAt s (8 * s.ipos.toNat) (ps.flatMap Prod.fst))
    (hf : 8 * (s.ilen.toNat - s.ipos.toNat) = fuel + (ps.flatMap Prod.fst).length) :
    bodyUnpack s = (appendAll (ps.map Prod.snd) s).andThen fun _ t =>
      (unpackLoop fuel (cursorAt (8 * s.ipos.toNat + (ps.flatMap Prod.fst).length) 0 ps.length) t).andThen
        fun c u => .ok () { u with ipos := toWord (if c.k = 0 then c.a else c.a + 1) } := by
  have h0 : ({ a := s.ipos.toNat, k := 0, cur := 0, em := 0 } : Cursor) = cursorAt (8 * s.ipos.toNat) 0 0 := by
    simp [cursorAt]
  unfold bodyUnpack
  rw [hf, h0, unpackLoop_codes T hT ps s _ 0 fuel htr hps hb (by omega), Run.andThen_assoc, Nat.zero_add]

/-- UNPACK's body on the bits of COUNT codes of a tree, whatever follows them: the rest of the last byte is not
read (rules R190, R191, R194, R196). -/
theorem bodyUnpack_all (s : State) (T : HuffTree) (ps : List (List Bool × Byte)) (hT : T.size ≤ 511)
    (htr : s.trie.cells = (deriveTables T).trie) (hps : ∀ p ∈ ps, p ∈ T.codeTable) (hc : s.count.toNat = ps.length)
    (hb : BitsAt s (8 * s.ipos.toNat) (ps.flatMap Prod.fst)) :
    bodyUnpack s = (appendAll (ps.map Prod.snd) s).andThen fun _ t =>
      .ok () { t with ipos := toWord (s.ipos.toNat + ((ps.flatMap Prod.fst).length + 7) / 8) } := by
  have hlen := hb.1
  rw [bodyUnpack_codes s T ps (8 * (s.ilen.toNat - s.ipos.toNat) - (ps.flatMap Prod.fst).length) hT htr hps
    (by omega) hb (by omega)]
  refine Run.Ends.congr_andThen (appendAll_ends _ s) fun _ t ht => ?_
  have hct : t.count = s.count := by simp only [SameButOutput] at ht; rw [ht]
  rw [unpackLoop_done (by rw [hct]; show _ ≤ ps.length; omega)]
  simp only [Run.andThen_ok, cursorAt]
  congr 3
  split <;> omega

/-- The first code of each symbol, as pairs of a code and its symbol. -/
def firstCodes (T : HuffTree) (xs : List Byte) : List (List Bool × Byte) := xs.map fun x => (T.codeOf x, x)

@[simp] theorem firstCodes_length (T : HuffTree) (xs : List Byte) : (firstCodes T xs).length = xs.length :=
  List.length_map ..

@[simp] theorem firstCodes_symbols (T : HuffTree) (xs : List Byte) : (firstCodes T xs).map Prod.snd = xs := by
  simp [firstCodes, Function.comp_def]

@[simp] theorem firstCodes_bits (T : HuffTree) (xs : List Byte) :
    (firstCodes T xs).flatMap Prod.fst = bitsOf T.codeOf xs := by simp [firstCodes, bitsOf, List.flatMap_map]

theorem firstCodes_mem {T : HuffTree} {xs : List Byte} (hxs : ∀ x ∈ xs, x ∈ T.symbols) :
    ∀ p ∈ firstCodes T xs, p ∈ T.codeTable := by
  intro p hp
  obtain ⟨x, hx, rfl⟩ := List.mem_map.mp hp
  exact codeOf_mem (hxs x hx)

/-- UNPACK's body on the payload of symbols of a tree (rules R190, R191, R194, R196). -/
theorem bodyUnpack_spec (s : State) (T : HuffTree) (xs : List Byte) (hT : T.size ≤ 511)
    (htr : s.trie.cells = (deriveTables T).trie) (hxs : ∀ x ∈ xs, x ∈ T.symbols) (hc : s.count.toNat = xs.length)
    (hl : s.ipos.toNat + (payload (bitsOf T.codeOf xs)).length ≤ s.ilen.toNat)
    (hb : BytesAt s.ibufByte s.ipos.toNat (payload (bitsOf T.codeOf xs))) :
    bodyUnpack s = (appendAll xs s).andThen fun _ t =>
      .ok () { t with ipos := toWord (s.ipos.toNat + (payload (bitsOf T.codeOf xs)).length) } := by
  have h := bodyUnpack_all s T (firstCodes T xs) hT htr (firstCodes_mem hxs) (by simpa using hc)
    (by simpa using bitsAt_payload hl hb)
  rwa [firstCodes_symbols, firstCodes_bits, ← payload_length] at h

/-- A bit needed at the end of the input (rule R250). -/
theorem unpackLoop_end {s : State} {c : Cursor} (hem : c.em < s.count.toNat) (ha : s.ilen.toNat ≤ c.a) (fuel : Nat) :
    unpackLoop fuel c s = .raise .eosPayload (toWord c.a) s := by
  cases fuel <;> simp only [unpackLoop] <;> rw [if_pos hem]
  rw [if_pos ha]

/-- The input ends inside a code, walked from an internal entry of a tree's trie. -/
theorem unpackLoop_cut (s : State) (t : HuffTree) : ∀ (l r : HuffTree), t = .node l r →
    ∀ (code rest : List Bool) (x : Byte) (base n em fuel : Nat), TrieAt s (.node l r) base →
      base + (HuffTree.node l r).size ≤ 511 → (code, x) ∈ (HuffTree.node l r).codes → rest <+: code → rest ≠ code →
      BitsAt s n rest → n + rest.length = 8 * s.ilen.toNat → em < s.count.toNat →
      unpackLoop (fuel + rest.length) (cursorAt n base em) s = .raise .eosPayload s.ilen s := by
  induction t with
  | leaf y => intro l r h; cases h
  | node l0 r0 ihl ihr =>
    intro l r h code rest x base n em fuel ht hb hc hp hne hbits hlen hem
    cases h
    cases rest with
    | nil =>
      simp only [List.length_nil, Nat.add_zero] at hlen
      rw [unpackLoop_end hem (by show _ ≤ n / 8; omega)]
      rw [show (cursorAt n base em).a = s.ilen.toNat by show n / 8 = _; omega, toWord_of_toNat]
    | cons b rest =>
      simp only [HuffTree.size] at hb
      have hpr := r0.size_pos
      have h0 := ht.root_node
      obtain ⟨b1, b2, b3⟩ := hbits.cons
      simp only [List.length_cons] at hlen
      have step : ∀ (c : HuffTree) (nb : Nat) (code' : List Bool), TrieAt s c nb → nb + c.size ≤ 511 →
          nextIndex (cursorAt n base em) s = BitVec.ofNat 9 nb → (code', x) ∈ c.codes → code = b :: code' →
          (∀ l r, c = .node l r → unpackLoop (fuel + rest.length) (cursorAt (n + 1) nb em) s = .raise .eosPayload s.ilen s) →
          unpackLoop (fuel + (rest.length + 1)) (cursorAt n base em) s = .raise .eosPayload s.ilen s := by
        intro c nb code' hT hs hx hm he hi
        have hs0 := c.size_pos
        have hn := ofNat9_ne_null (show nb < 511 by omega)
        have hN : (BitVec.ofNat 9 nb).toNat = nb := ofNat9_toNat (by omega)
        subst he
        simp only [List.cons_prefix_cons, true_and] at hp
        cases c with
        | leaf z =>
          simp [HuffTree.codes] at hm
          obtain ⟨rfl, rfl⟩ := hm
          exact absurd (by rw [List.prefix_nil.mp hp]) hne
        | node l' r' =>
          rw [← Nat.add_assoc, unpackLoop_inner hem b1 hx hn (by rw [hN, hT.root_node]; rfl), hN]
          exact hi l' r' rfl
      simp only [HuffTree.codes, List.mem_append, List.mem_map] at hc
      rcases hc with ⟨⟨c, y⟩, hm, he⟩ | ⟨⟨c, y⟩, hm, he⟩
      all_goals
        simp only [Prod.mk.injEq] at he
        obtain ⟨rfl, rfl⟩ := he
        obtain ⟨rfl, hp'⟩ := List.cons_prefix_cons.mp hp
        have hne' : rest ≠ c := fun e => hne (by rw [e])
      · refine step l0 (base + 1) c ht.left (by omega) (by rw [nextIndex_cursorAt, b2, h0]; rfl) hm rfl fun l' r' e => ?_
        have h1 := ht.left
        subst e
        exact ihl l' r' rfl c rest _ _ (n + 1) em fuel h1 (by omega) hm hp' hne' b3 (by omega) hem
      · refine step r0 (base + 1 + l0.size) c ht.right (by omega) (by rw [nextIndex_cursorAt, b2, h0]; rfl) hm rfl fun l' r' e => ?_
        have h1 := ht.right
        subst e
        exact ihr l' r' rfl c rest _ _ (n + 1) em fuel h1 (by omega) hm hp' hne' b3 (by omega) hem

/-- The input ends before or inside a code of a tree (rule R250). -/
theorem unpackLoop_truncated {s : State} {T : HuffTree} (hT : T.size ≤ 511) (htr : s.trie.cells = (deriveTables T).trie)
    {p : List Bool × Byte} {rest : List Bool} (hp : p ∈ T.codeTable) (hpre : rest <+: p.1) (hne : rest ≠ p.1) {n em : Nat}
    (hb : BitsAt s n rest) (hlen : n + rest.length = 8 * s.ilen.toNat) (hem : em < s.count.toNat) (fuel : Nat) :
    unpackLoop (fuel + rest.length) (cursorAt n 0 em) s = .raise .eosPayload s.ilen s := by
  cases T with
  | node l r => exact unpackLoop_cut s _ l r rfl p.1 rest p.2 0 n em fuel (trieAt_derived htr) (by simpa using hT) hp hpre hne hb hlen hem
  | leaf x =>
    simp only [HuffTree.codeTable, List.mem_singleton] at hp
    subst hp
    have hr : rest = [] := by
      cases rest with
      | nil => rfl
      | cons b rest =>
        obtain ⟨rfl, h⟩ := List.cons_prefix_cons.mp hpre
        exact absurd (by rw [List.prefix_nil.mp h]) hne
    subst hr
    simp only [List.length_nil, Nat.add_zero] at hlen
    rw [unpackLoop_end hem (by show _ ≤ n / 8; omega)]
    rw [show (cursorAt n 0 em).a = s.ilen.toNat by show n / 8 = _; omega, toWord_of_toNat]

/-- A bit '1' under the trie of a one-leaf tree (rule R251). -/
theorem unpackLoop_noMatch {s : State} {x : Byte} (htr : s.trie.cells = (deriveTables (.leaf x)).trie) {n em : Nat}
    {tail : List Bool} (hb : BitsAt s n (true :: tail)) (hem : em < s.count.toNat) (fuel : Nat) :
    unpackLoop (fuel + 1) (cursorAt n 0 em) s = .raise .noMatch (toWord (n / 8)) s := by
  obtain ⟨b1, b2, -⟩ := hb.cons
  have hx : nextIndex (cursorAt n 0 em) s = Config.null := by
    rw [nextIndex_cursorAt, b2, (trieAt_derived_leaf htr).1]; rfl
  simp only [unpackLoop]
  rw [if_pos (by exact hem), if_neg (by show ¬ _ ≤ n / 8; omega), if_pos hx]; rfl

end Sys2Proof.Machine
end

