-- ==== Sys2Proof/Laws/Command.lean ====
section
/-! SUPPORT. The stages as commands: counting, building, deriving and parsing on the operands they are given. -/

namespace Sys2Proof.Machine

/-! ## Whole commands whose pseudocode appends a list -/

/-- A command that appends a list: all of it, or OutputOverflow. -/
theorem append_command {s : State} {i : Instr} {bs : List Byte} (he : s.status.err = false)
    (hf : flagsHeld i s.status = true) (hl : lengthsHeld i s = true) (hw : s.cfg.wf = true)
    (hb : bodyOf i s.clearDone = completing (appendAll bs) s.clearDone) :
    ((bs = [] ∨ s.olen.toNat + bs.length ≤ s.cfg.obufCap) ∧ exec i s = .next (s.clearDone.pushAll bs).setDone) ∨
    ((bs ≠ [] ∧ s.cfg.obufCap < s.olen.toNat + bs.length) ∧
      exec i s = .next (takeFault .outputOverflow 0#32 s.ipos s.clearDone)) := by
  rw [exec_ready he hf hl, hb]
  rcases appendAll_cases (s := s.clearDone) hw bs with ⟨h, e⟩ | ⟨h, t, ht, e⟩
  · left; exact ⟨h, by simp [completing, e]⟩
  · right
    refine ⟨h, ?_⟩
    simp only [completing, e, Run.andThen_raise, finish_raise]
    rw [takeFault_sameButOutput rfl ht]

/-- A command whose pseudocode raises an execution fault (not one that spoils the tree) after appending some output:
the record is written, the output discarded and nothing else changes (rules R236, R240). -/
theorem raise_command {s t : State} {i : Instr} {body : State → Run Unit} {k : FaultKind} {v : Word}
    (hk : k.isExecution = true) (hs : k.spoilsTree = false) (he : s.status.err = false)
    (hf : flagsHeld i s.status = true) (hl : lengthsHeld i s = true)
    (hb : bodyOf i s.clearDone = completing body s.clearDone) (ht : SameButOutput s.clearDone t)
    (h : body s.clearDone = .raise k v t) :
    ∃ t : State, exec i s = .next t ∧
      t =
        { s with
          obuf := t.obuf, olen := 0#32, fresh := t.fresh, err := k.errWord, errval := v
          status := { s.status with done := false, err := true } } := by
  refine ⟨takeFault k v s.ipos s.clearDone, ?_, ?_⟩
  · rw [exec_ready he hf hl, hb]
    simp only [completing, h, Run.andThen_raise, finish_raise]
    rw [takeFault_sameButOutput hk ht]
  · rw [takeFault_execution hk hs]; rfl

/-- What such a command's completion changes. -/
theorem pushed_command (s : State) (bs : List Byte) :
    (s.clearDone.pushAll bs).setDone =
      { s with
        obuf := (s.clearDone.pushAll bs).obuf
        olen := (s.clearDone.pushAll bs).olen
        status := { s.status with done := true } } := by
  have h := sameButOutput_pushAll s.clearDone bs
  simp only [SameButOutput] at h
  generalize s.clearDone.pushAll bs = u at h
  rw [h]; rfl

/-- The output after storing a list from an empty output. -/
theorem output_pushAll {s : State} {bs : List Byte} (h0 : s.olen = 0#32) (h : bs.length < 2 ^ 32) :
    (s.pushAll bs).output = bs := by
  have hz : s.olen.toNat = 0 := by rw [h0]; rfl
  have hl := State.olen_pushAll (s := s) (bs := bs) (by omega)
  rw [hz, Nat.zero_add] at hl
  apply List.ext_getElem?
  intro k
  simp only [State.output, hl, List.getElem?_map]
  by_cases hk : k < bs.length
  · rw [List.getElem?_range hk, List.getElem?_eq_getElem hk]
    have := State.obufByte_pushAll (s := s) (bs := bs) (k := k) (by omega) (List.getElem?_eq_getElem hk)
    rw [hz, Nat.zero_add] at this
    simp [this]
  · rw [List.getElem?_eq_none (by simp; omega), List.getElem?_eq_none (by omega)]; rfl

/-! ## FCNT -/

theorem freqAt_of_cells {s : State} {xs : List Byte} (h : s.freq.cells = freqCells xs) {k : Nat} (hk : k < 256) :
    s.freqAt k = toWord (occurrences k xs) := by
  simp [State.freqAt, Store.read, Store.get?, h, freqCells, lookupCell_tabulate, hk]

theorem occurrences_eq_countP (k : Nat) (xs : List Byte) : occurrences k xs = xs.countP (fun b => b.toNat == k) := by
  induction xs with
  | nil => rfl
  | cons b xs ih => simp only [occurrences, List.countP_cons, ih, beq_iff_eq]; split <;> simp

theorem occurrences_le (k : Nat) (xs : List Byte) : occurrences k xs ≤ xs.length := by
  rw [occurrences_eq_countP]; exact List.countP_le_length

theorem occurrences_pos {x : Byte} {xs : List Byte} (h : x ∈ xs) : 0 < occurrences x.toNat xs := by
  rw [occurrences_eq_countP, List.countP_pos_iff]; exact ⟨x, h, by simp⟩

theorem countPresent_map (f : Nat → Word) (l : List Nat) :
    countPresent (l.map fun k => (k, f k)) = (l.filter fun k => f k ≠ 0#32).length := by
  induction l with
  | nil => rfl
  | cons k l ih =>
    simp only [List.map_cons, countPresent, ih, List.filter_cons]
    by_cases h : f k = 0#32 <;> simp [h]

theorem countPresent_le (xs : List Byte) : countPresent (freqCells xs) ≤ 256 := by
  simp only [freqCells, tabulate, countPresent_map]
  calc _ ≤ (List.range Config.symCount).length := List.length_filter_le _ _
    _ = 256 := List.length_range

/-- The counts of a byte sequence add up to its length (rule R121 (b)). -/
theorem sum_occurrences (xs : List Byte) : ((List.range 256).map fun k => occurrences k xs).sum = xs.length := by
  induction xs with
  | nil => exact List.sum_eq_zero (by intro x hx; obtain ⟨k, _, rfl⟩ := List.mem_map.mp hx; rfl)
  | cons b xs ih =>
    have : ∀ n, ((List.range n).map fun k => occurrences k (b :: xs)).sum =
        ((List.range n).map fun k => occurrences k xs).sum + if b.toNat < n then 1 else 0 := by
      intro n
      induction n with
      | zero => simp
      | succ n ihn =>
        have ho : occurrences n (b :: xs) = if b.toNat = n then occurrences n xs + 1 else occurrences n xs := rfl
        simp only [List.range_succ, List.map_append, List.sum_append, ihn, List.map_cons, List.map_nil,
          List.sum_cons, List.sum_nil, ho]
        by_cases h : b.toNat = n
        · simp [h]; omega
        · by_cases h' : b.toNat < n
          · simp [h, h', show b.toNat < n + 1 by omega]; omega
          · simp [h, h', show ¬ b.toNat < n + 1 by omega]
    rw [this, ih, if_pos b.isLt, List.length_cons]

/-! ## BUILD -/

theorem itemsFrom_freq_sum (f : Nat → Nat) :
    ((leafItems f).map QueueItem.freq).sum = ((List.range 256).map f).sum := by
  have e1 : (leafItems f).map QueueItem.freq = (presentSymbols f).map f := by
    simp only [leafItems, List.map_map]
    have : (QueueItem.freq ∘ fun p : Nat × Nat =>
        ({ freq := f p.1, index := p.2, tree := .leaf (BitVec.ofNat 8 p.1) } : QueueItem)) = f ∘ Prod.fst := rfl
    rw [this, ← List.map_map]; simp
  rw [e1, presentSymbols]
  show _ = ((List.range Config.symCount).map f).sum
  generalize List.range Config.symCount = l
  induction l with
  | nil => rfl
  | cons k l ih =>
    by_cases h : f k = 0
    · simp [h, ih]
    · simp [h, ih]

theorem leafItems_symbols (f : Nat → Nat) :
    ((leafItems f).flatMap fun q => q.tree.symbols) = (presentSymbols f).map fun k => BitVec.ofNat 8 k := by
  simp only [leafItems, List.flatMap_map, HuffTree.symbols]
  generalize presentSymbols f = l
  generalize 0 = n
  induction l generalizing n with
  | nil => rfl
  | cons k l ih => simp [List.zipIdx_cons, ih]

theorem leafItems_length (f : Nat → Nat) : (leafItems f).length = (presentSymbols f).length := by simp [leafItems]

theorem presentSymbols_length (f : Nat → Nat) : (presentSymbols f).length ≤ 256 := by
  unfold presentSymbols
  exact (List.length_filter_le _ _).trans (by rw [List.length_range])

/-- What BUILD's loop leaves. -/
theorem build_run (s : State) (hs : ((List.range 256).map fun k => (s.freqAt k).toNat).sum < 2 ^ 32)
    (hex : ∃ k : Nat, k < 256 ∧ s.freqAt k ≠ 0#32) :
    ∃ p : QueueItem, huffmanTree (fun k => (s.freqAt k).toNat) = some p.tree ∧ 0 < s.leavesArena.nnode ∧
      Rep s.freqAt (combineAll Config.heapMax s.leavesArena) [p] ∧
      p.freq = ((List.range 256).map fun k => (s.freqAt k).toNat).sum ∧
      p.tree.symbols.Perm ((presentSymbols fun k => (s.freqAt k).toNat).map fun k => BitVec.ofNat 8 k) ∧
      (combineAll Config.heapMax s.leavesArena).Holds (buildEntries fun k => (s.freqAt k).toNat) := by
  have hrep := leavesArena_rep s
  set f := fun k => (s.freqAt k).toNat
  have hlen := leafItems_length f
  have hle := presentSymbols_length f
  have hne : leafItems f ≠ [] := by
    obtain ⟨k, hk, hk0⟩ := hex
    have : k ∈ presentSymbols f := by
      simp only [presentSymbols, List.mem_filter, List.mem_range]
      refine ⟨hk, ?_⟩
      have : (s.freqAt k).toNat ≠ 0 := fun e => hk0 (BitVec.eq_of_toNat_eq (by simpa using e))
      simpa [f] using this
    intro h
    rw [h] at hlen
    have := List.length_pos_of_mem this
    simp at hlen; omega
  have hes := leavesArena_holds s
  have hnn : s.leavesArena.nnode = (presentSymbols f).length := by rw [hes.1, List.length_map]
  cases hl : leafItems f with
  | nil => exact absurd hl hne
  | cons q rest =>
    rw [hl] at hrep hlen
    simp only [List.length_cons] at hlen
    have hsum := itemsFrom_freq_sum f
    rw [hl] at hsum
    obtain ⟨p, p1, p2, p3, p4, p5⟩ := combineAll_rep Config.heapMax s.leavesArena q rest _ hrep hes
      (by show rest.length ≤ 256; omega) (by rw [hsum]; exact hs)
    rw [hnn, ← hl] at p1 p5
    exact ⟨p, p1, by rw [hnn]; omega, p2, by rw [p3, hsum], by rw [← leafItems_symbols, hl]; exact p4, p5⟩

theorem single_extract {f : Nat → Word} {A : Arena} {p : QueueItem} (h : Rep f A [p]) :
    A.heapExtract.1 = BitVec.ofNat 9 p.index ∧ A.heapExtract.2.nodes = A.nodes ∧
    A.heapExtract.2.nnode = A.nnode ∧ A.heapExtract.2.hsize = 0 := by
  obtain ⟨h1, h2, h3, h4⟩ := QRep.extract (A := A) (q := p) (rest := [])
    ⟨h.ord, by have := h.count; omega, h.queue, h.lt, h.nodup, h.freq⟩
  refine ⟨h1, h3, h4, ?_⟩
  have := h2.hsize
  simpa [leastItem] using this

/-- BUILD's body on a table with a non-zero count (rules R130 to R141). -/
theorem bodyBuild_ok (s : State) (hs : ((List.range 256).map fun k => (s.freqAt k).toNat).sum < 2 ^ 32)
    (hex : ∃ k : Nat, k < 256 ∧ s.freqAt k ≠ 0#32) :
    ∃ (p : QueueItem) (B : Arena), huffmanTree (fun k => (s.freqAt k).toNat) = some p.tree ∧
      Rep s.freqAt B [p] ∧ p.freq = ((List.range 256).map fun k => (s.freqAt k).toNat).sum ∧
      p.tree.symbols.Perm ((presentSymbols fun k => (s.freqAt k).toNat).map fun k => BitVec.ofNat 8 k) ∧
      B.Holds (buildEntries fun k => (s.freqAt k).toNat) ∧
      bodyBuild s = .ok ()
        { s with
          node := { s.node with cells := B.nodes }
          nnode := toWord B.nnode
          heap := { s.heap with cells := B.heapExtract.2.heap }
          hsize := 0#9
          root := toWord p.index
          status := { s.status with vTree := true, vCode := false } } := by
  obtain ⟨p, p1, p2, p3, p4, p5, p6⟩ := build_run s hs hex
  refine ⟨p, _, p1, p3, p4, p5, p6, ?_⟩
  obtain ⟨e1, e2, e3, e4⟩ := single_extract p3
  have hlt := p3.lt p (by simp)
  have hc := p3.count
  have hn : ¬ (s.clearTreeFlags).leavesArena.nnode = 0 := by show ¬ s.leavesArena.nnode = 0; omega
  unfold bodyBuild
  simp only
  rw [if_neg hn]
  have eA : s.clearTreeFlags.leavesArena = s.leavesArena := rfl
  rw [eA, e1, e2, e3, e4]
  rw [ofNat9_toNat (by simp at hc; omega)]
  rfl

theorem rep_denotes {f : Nat → Word} {B : Arena} {p : QueueItem} (h : Rep f B [p]) :
    B.nnode = p.tree.size ∧ p.index + 1 = B.nnode ∧ treeAt B.nodes 511 p.index = some p.tree ∧
    (indicesAt B.nodes 511 p.index).Perm (List.range B.nnode) ∧ B.nnode ≤ 511 := by
  have h1 := h.size
  simp at h1
  have h2 := h.count
  simp at h2
  have h3 := p.tree.depth_lt_size
  obtain ⟨q, hq, h4⟩ := h.last (by simp)
  simp at hq; subst hq
  refine ⟨h1.symm, h4, (h.den q (by simp)).treeAt (by omega), ?_, by omega⟩
  have := h.cover; simpa using this

/-- With every count zero no leaf is made (rule R139). -/
theorem leavesArena_empty (s : State) (h0 : ∀ k : Nat, k < 256 → s.freqAt k = 0#32) : s.leavesArena.nnode = 0 := by
  have hz : ∀ ks : List Nat, (∀ k ∈ ks, k < 256) → ∀ A, initLeaves s.freqAt ks A = A := by
    intro ks
    induction ks with
    | nil => intro _ _; rfl
    | cons k ks ih =>
      intro hk A
      simp only [List.mem_cons, forall_eq_or_imp] at hk
      simp only [initLeaves, h0 k hk.1, if_true]; exact ih hk.2 A
  show (initLeaves s.freqAt (List.range 256) (Arena.start s)).nnode = 0
  rw [hz _ (by simp)]; rfl

/-! ## DERIVE, TDES -/

theorem codeAt_listed {s : State} {i : Nat} {e : CodeEntry} (h : lookupCell s.code.cells i = some e) :
    s.codeAt i = e := by simp [State.codeAt, Store.read, Store.get?, h]

theorem bodyDerive_ok {s : State} {T : HuffTree} (ht : s.tree? = some T) :
    bodyDerive s = .ok ()
      { s with
        code := { s.code with cells := (deriveTables T).code }
        trie := { s.trie with cells := (deriveTables T).trie }
        status := { s.status with vCode := true } } := by
  have h : (s.putVCode false).tree? = some T := ht
  simp only [bodyDerive, h]
  rfl

/-- TDES's body on bytes that begin with ser(T) (rules R169 to R174). -/
theorem bodyTdes_ok {s : State} {T : HuffTree} (hT : T.size ≤ 511)
    (hlen : s.ipos.toNat + (ser T).length ≤ s.ilen.toNat) (hb : BytesAt s.ibufByte s.ipos.toNat (ser T)) :
    ∃ N, (∀ i, T.size ≤ i → lookupCell N i = none) ∧
      (∀ k e, (preorderEntries T 0)[k]? = some e → lookupCell N k = some e) ∧
      treeAt N 511 0 = some T ∧ indicesAt N 511 0 = List.range' 0 T.size ∧
      bodyTdes s = .ok ()
        { s with
          node := { s.node with cells := N }
          nnode := toWord T.size
          root := 0#32
          ipos := toWord (s.ipos.toNat + (ser T).length)
          status := { s.status with vTree := true, vCode := false } } := by
  have hd := T.depth_lt_size
  obtain ⟨N, e, f, g⟩ := des_ser s.ibufByte s.ilen.toNat T (Config.nodeMax + 1)
    { ipos := s.ipos.toNat, nnode := 0, nodes := [] } (by show _ < 512; omega) hb hlen (by simpa using hT)
  simp only [Nat.zero_add] at e f g
  have hparse : s.clearTreeFlags.parse = .ok 0 ⟨s.ipos.toNat + (ser T).length, T.size, N⟩ := e
  have hN := treeAt_preorder N T 511 0 (by omega) (by omega) (by simpa using g)
  refine ⟨N, fun i hi => f i (.inr hi), g, hN.1, hN.2, ?_⟩
  simp only [bodyTdes, hparse]
  rfl

end Sys2Proof.Machine
end

