-- ==== Sys2Proof/Laws/Container.lean ====
section
/-! SUPPORT. The composites: their runs on an input and on a container, and stages issued one by one. -/

namespace Sys2Proof.Machine

/-! ## The composites as one append (rules R208 to R212) -/

theorem huffmanTree_congr {f g : Nat → Nat} (h : ∀ k, k < 256 → f k = g k) : huffmanTree f = huffmanTree g := by
  have h1 : presentSymbols f = presentSymbols g := by
    simp only [presentSymbols]
    apply List.filter_congr
    intro k hk
    rw [h k (by simpa using hk)]
  have h2 : leafItems f = leafItems g := by
    simp only [leafItems, h1]
    apply List.map_congr_left
    intro p hp
    have hm : p.1 ∈ presentSymbols g := by
      have := List.mem_map_of_mem (f := Prod.fst) hp
      simpa using this
    simp only [presentSymbols, List.mem_filter, List.mem_range] at hm
    rw [h p.1 hm.1]
  simp only [huffmanTree, h1, h2]

theorem bitsOf_congr {f g : Byte → List Bool} {xs : List Byte} (h : ∀ x ∈ xs, f x = g x) : bitsOf f xs = bitsOf g xs :=
  List.flatMap_congr h

theorem sameButOutput_input {s t : State} (h : SameButOutput s t) : t.input = s.input := by
  simp only [SameButOutput] at h; rw [h]; rfl

/-- COMPRESS's body on a non-empty input: one append of the container (rules R95, R208). -/
theorem bodyCompress_ok (s : State) (h1 : 1 ≤ s.ilen.toNat) :
    ∃ (T : HuffTree) (u : State), huffmanTree (fun k => occurrences k s.input) = some T ∧ T.size ≤ 511 ∧
      (∀ x ∈ s.input, x ∈ T.symbols) ∧ bodyCompress s = appendAll (container T s.input) u ∧
      u = { s with
        olen := 0#32, freq := u.freq, nsym := u.nsym, node := u.node, nnode := u.nnode, root := u.root
        heap := u.heap, hsize := u.hsize, code := u.code, trie := u.trie
        status := { s.status with vFreq := true, vTree := true, vCode := true } } := by
  have hil := input_length s
  have hlt := s.ilen.isLt
  set s1 : State := { s with
    olen := 0#32
    freq := { s.freq with cells := freqCells s.input }
    nsym := toWord (countPresent (freqCells s.input))
    status := { s.status with vFreq := true, vTree := false, vCode := false } } with hs1
  have e1 : bodyFcnt { s with olen := 0#32 } = .ok () s1 := rfl
  have hf : ∀ k, k < 256 → (s1.freqAt k).toNat = occurrences k s.input := by
    intro k hk
    have := occurrences_le k s.input
    rw [freqAt_of_cells (xs := s.input) rfl hk, toWord_toNat (by omega)]
  have hsum : ((List.range 256).map fun k => (s1.freqAt k).toNat).sum < 2 ^ 32 := by
    have : ((List.range 256).map fun k => (s1.freqAt k).toNat) = (List.range 256).map fun k => occurrences k s.input :=
      List.map_congr_left fun k hk => hf k (by simpa using hk)
    rw [this, sum_occurrences, hil]; exact hlt
  have hocc : ∀ x ∈ s.input, s1.freqAt x.toNat ≠ 0#32 := by
    intro x hx e
    have := occurrences_pos hx
    rw [← hf x.toNat x.isLt, e] at this
    simp at this
  have hex : ∃ k : Nat, k < 256 ∧ s1.freqAt k ≠ 0#32 := by
    cases hi : s.input with
    | nil => rw [hi] at hil; simp at hil; omega
    | cons x xs => exact ⟨x.toNat, x.isLt, hocc x (by rw [hi]; simp)⟩
  obtain ⟨p, B, p1, p2, p3, p4, -, p5⟩ := bodyBuild_ok s1 hsum hex
  obtain ⟨d1, d2, d3, d4, d5⟩ := rep_denotes p2
  set T := p.tree
  have hpi : (toWord p.index).toNat = p.index := toWord_toNat (by omega)
  generalize hs2 : ({ s1 with
          node := { s1.node with cells := B.nodes }
          nnode := toWord B.nnode
          heap := { s1.heap with cells := B.heapExtract.2.heap }
          hsize := 0#9
          root := toWord p.index
          status := { s1.status with vTree := true, vCode := false } } : State) = s2 at p5
  have ht2 : s2.tree? = some T := by
    rw [← hs2]; show treeAt B.nodes 511 (toWord p.index).toNat = _; rw [hpi]; exact d3
  generalize hs3 : ({ s2 with
        code := { s2.code with cells := (deriveTables T).code }
        trie := { s2.trie with cells := (deriveTables T).trie }
        status := { s2.status with vCode := true } } : State) = s3
  have e3 : bodyDerive s2 = .ok () s3 := by rw [bodyDerive_ok ht2, hs3]
  have ht3 : s3.tree? = some T := by rw [← hs3]; exact ht2
  have hsym : ∀ x ∈ s.input, x ∈ T.symbols := by
    intro x hx
    rw [p4.mem_iff, List.mem_map]
    refine ⟨x.toNat, ?_, by simp⟩
    simp only [presentSymbols, List.mem_filter, List.mem_range]
    refine ⟨x.isLt, ?_⟩
    have : (s1.freqAt x.toNat).toNat ≠ 0 := fun e => hocc x hx (BitVec.eq_of_toNat_eq (by simpa using e))
    simpa using this
  have hnd : T.symbols.Nodup := by
    rw [p4.nodup_iff]
    have hnp : (presentSymbols fun k => (s1.freqAt k).toNat).Nodup := by
      unfold presentSymbols; exact List.nodup_range.filter _
    refine List.Nodup.map_on ?_ hnp
    intro a ha b hb hab
    simp only [presentSymbols, List.mem_filter, List.mem_range] at ha hb
    have := congrArg BitVec.toNat hab
    simp only [BitVec.toNat_ofNat] at this
    have ha : a < 256 := ha.1
    have hb : b < 256 := hb.1
    omega
  have hin : s3.input = s.input := by rw [← hs3, ← hs2]; rfl
  have hil3 : s3.ilen = s.ilen := by rw [← hs3, ← hs2]
  have hcode : ∀ x ∈ s.input, s3.codeAt x.toNat = { valid := true, bits := T.codeOf x } := by
    intro x hx
    have hm := codeOf_mem (hsym x hx)
    obtain ⟨xs, b, ys, e, hy, hl⟩ := derive_code_some T x ⟨_, hm, rfl⟩
    have hb : b = T.codeOf x := codeTable_unique hnd (by rw [e]; simp) hm
    rw [codeAt_listed (by rw [← hs3]; exact hl), hb]
  refine ⟨T, s3, ?_, by omega, hsym, ?_, ?_⟩
  · rw [← p1]; exact huffmanTree_congr fun k hk => (hf k hk).symm
  · simp only [bodyCompress, e1, Run.andThen_ok, p5, e3]
    have e4 : bodyTser s3 = appendAll (ser T) s3 := by simp only [bodyTser, ht3]
    rw [e4]
    simp only [container, appendAll_append, Run.andThen_assoc]
    refine Run.Ends.congr_andThen (appendAll_ends _ s3) fun _ s4 h4 => ?_
    have hi4 : s4.ilen = s.ilen := by simp only [SameButOutput] at h4; rw [h4]; exact hil3
    have e5 : bodyWcnt s4 = appendAll (countBytes (toWord s.input.length)) s4 := by
      rw [bodyWcnt, hi4, hil, toWord_of_toNat]
    rw [e5]
    refine Run.Ends.congr_andThen (appendAll_ends _ s4) fun _ s5 h5 => ?_
    have h35 := h4.trans h5
    have hi5 : s5.input = s.input := (sameButOutput_input h35).trans hin
    rw [bodyPack_spec s5, hi5]
    · congr 2
      exact bitsOf_congr fun x hx => by rw [sameButOutput_codeAt h35, hcode x hx]
    · intro x hx
      rw [hi5] at hx
      rw [sameButOutput_codeAt h35, hcode x hx]
  · rw [← hs3, ← hs2]

theorem bodyCompress_empty (s : State) (h0 : s.ilen = 0#32) :
    ∃ u, bodyCompress s = .raise .emptyInput 0#32 u ∧
      u = { s with
        olen := 0#32, freq := u.freq, nsym := u.nsym
        status := { s.status with vFreq := true, vTree := false, vCode := false } } := by
  set s1 : State := { s with
    olen := 0#32
    freq := { s.freq with cells := freqCells s.input }
    nsym := toWord (countPresent (freqCells s.input))
    status := { s.status with vFreq := true, vTree := false, vCode := false } } with hs1
  have e1 : bodyFcnt { s with olen := 0#32 } = .ok () s1 := rfl
  have hin : s.input = [] := by simp [State.input, State.ibufSlice, h0]
  have hz : s1.clearTreeFlags.leavesArena.nnode = 0 := by
    refine leavesArena_empty s1 fun k hk => ?_
    rw [freqAt_of_cells (xs := s.input) rfl hk, hin]; rfl
  refine ⟨s1, ?_, by rw [hs1]⟩
  simp only [bodyCompress, e1, Run.andThen_ok, bodyBuild, hz, if_true, Run.andThen_raise]
  rfl

/-- Bytes the input begins with stand in IBUF from index 0 on. -/
theorem bytesAt_input {s : State} {bs : List Byte} (h : bs <+: s.input) : BytesAt s.ibufByte 0 bs := by
  intro k b hk
  obtain ⟨ys, hy⟩ := h
  have hkl : k < bs.length := by by_contra hh; rw [List.getElem?_eq_none (by omega)] at hk; cases hk
  have hlen := input_length s
  rw [← hy, List.length_append] at hlen
  have : s.input[k]? = some b := by rw [← hy, List.getElem?_append_left hkl]; exact hk
  rw [input_getElem? s (by omega)] at this
  rw [Nat.zero_add]; exact Option.some.inj this

theorem countOf_countBytes (n : Word) :
    countOf (n.extractLsb' 0 8) (n.extractLsb' 8 8) (n.extractLsb' 16 8) (n.extractLsb' 24 8) = n.toNat := by
  have := n.isLt
  simp only [countOf, BitVec.extractLsb'_toNat, Nat.shiftRight_eq_div_pow]
  omega

/-- DECOMPRESS's body on a tree, a count and the bits of that many codes of the tree, whatever follows them
(rules R101, R194, R210). -/
theorem bodyDecompress_codes (s : State) (T : HuffTree) (ps : List (List Bool × Byte)) (hT : T.size ≤ 511)
    (hps : ∀ p ∈ ps, p ∈ T.codeTable) (hp : ser T ++ countBytes (toWord ps.length) <+: s.input)
    (hbits : BitsAt s (8 * ((ser T).length + 4)) (ps.flatMap Prod.fst)) (hl : ps.length < 2 ^ 32) :
    ∃ u : State, bodyDecompress s = ((appendAll (ps.map Prod.snd) u).andThen fun _ t =>
        .ok () { t with ipos := toWord ((ser T).length + 4 + ((ps.flatMap Prod.fst).length + 7) / 8) }) ∧
      u = { s with
        olen := 0#32, ipos := u.ipos, count := toWord ps.length, node := u.node, nnode := u.nnode, root := u.root
        code := u.code, trie := u.trie
        status := { s.status with vTree := true, vCode := true, vCount := true } } := by
  have hlen : (ser T).length + 4 ≤ s.ilen.toNat := by
    have := hp.length_le; rwa [input_length, List.length_append] at this
  have hlt := s.ilen.isLt
  have hb := bytesAt_input hp
  have hbser := hb.left
  have hbc := hb.right
  rw [Nat.zero_add] at hbc
  set s0 : State := { s with ipos := 0#32, olen := 0#32 } with hs0
  obtain ⟨N, n1, n2, n3, n4, n5⟩ := bodyTdes_ok (s := s0) hT (by show 0 + _ ≤ s.ilen.toNat; omega) hbser
  have hz : s0.ipos.toNat = 0 := rfl
  rw [hz, Nat.zero_add] at n5
  generalize hs1 : ({ s0 with
          node := { s0.node with cells := N }
          nnode := toWord T.size
          root := 0#32
          ipos := toWord (ser T).length
          status := { s0.status with vTree := true, vCode := false } } : State) = s1 at n5
  have hp1 : s1.ipos.toNat = (ser T).length := by rw [← hs1]; exact toWord_toNat (by omega)
  have hi1 : s1.ilen = s.ilen := by rw [← hs1]
  have hb1 : s1.ibufByte = s.ibufByte := by rw [← hs1]; rfl
  have ht1 : s1.tree? = some T := by rw [← hs1]; exact n3
  have e2 : bodyRcnt s1 = .ok () { s1 with
      count := toWord ps.length, ipos := toWord ((ser T).length + 4)
      status := { s1.status with vCount := true } } := by
    simp only [bodyRcnt, hp1, hi1, hb1]
    rw [if_pos (by omega)]
    have c0 := hbc 0 _ rfl
    have c1 := hbc 1 _ rfl
    have c2 := hbc 2 _ rfl
    have c3 := hbc 3 _ rfl
    rw [Nat.add_zero] at c0
    rw [c0, c1, c2, c3, countOf_countBytes, toWord_toNat hl]
    rfl
  generalize hs2 : ({ s1 with
      count := toWord ps.length, ipos := toWord ((ser T).length + 4)
      status := { s1.status with vCount := true } } : State) = s2 at e2
  have ht2 : s2.tree? = some T := by rw [← hs2]; exact ht1
  have e3 := bodyDerive_ok ht2
  generalize hs3 : ({ s2 with
        code := { s2.code with cells := (deriveTables T).code }
        trie := { s2.trie with cells := (deriveTables T).trie }
        status := { s2.status with vCode := true } } : State) = s3 at e3
  have hp3 : s3.ipos.toNat = (ser T).length + 4 := by rw [← hs3, ← hs2]; exact toWord_toNat (by omega)
  have hi3 : s3.ilen = s.ilen := by rw [← hs3, ← hs2]; exact hi1
  have hb3 : s3.ibufByte = s.ibufByte := by rw [← hs3, ← hs2]; exact hb1
  have hc3 : s3.count.toNat = ps.length := by rw [← hs3, ← hs2]; exact toWord_toNat hl
  have hbits3 : BitsAt s3 (8 * s3.ipos.toNat) (ps.flatMap Prod.fst) := by
    rw [hp3]
    exact ⟨by rw [hi3]; exact hbits.1, fun j b hj => by rw [State.inputBit, hb3]; exact hbits.2 j b hj⟩
  refine ⟨s3, ?_, by rw [← hs3, ← hs2, ← hs1, hs0]⟩
  simp only [bodyDecompress]
  rw [n5]; simp only [Run.andThen_ok]
  rw [e2]; simp only [Run.andThen_ok]
  rw [e3]; simp only [Run.andThen_ok]
  rw [bodyUnpack_all s3 T ps hT (by rw [← hs3]) hps hc3 hbits3, hp3]

/-- DECOMPRESS's body on bytes that begin with a container (rules R101, R210). -/
theorem bodyDecompress_ok (s : State) (T : HuffTree) (xs : List Byte) (hT : T.size ≤ 511)
    (hxs : ∀ x ∈ xs, x ∈ T.symbols) (hp : container T xs <+: s.input) (hl : xs.length < 2 ^ 32) :
    ∃ u : State, bodyDecompress s = ((appendAll xs u).andThen fun _ t =>
        .ok () { t with ipos := toWord (container T xs).length }) ∧
      u = { s with
        olen := 0#32, ipos := u.ipos, count := toWord xs.length, node := u.node, nnode := u.nnode, root := u.root
        code := u.code, trie := u.trie
        status := { s.status with vTree := true, vCode := true, vCount := true } } := by
  have hlen' : (container T xs).length = (ser T).length + 4 + (payload (bitsOf T.codeOf xs)).length := by
    simp only [container, countBytes, List.length_append, List.length_cons, List.length_nil]
  have hlen := hp.length_le
  rw [input_length] at hlen
  have hb : BytesAt s.ibufByte ((ser T).length + 4) (payload (bitsOf T.codeOf xs)) := by
    have h := (bytesAt_input hp).right
    rwa [Nat.zero_add, List.length_append, show (countBytes (toWord xs.length)).length = 4 from rfl] at h
  have h := bodyDecompress_codes s T (firstCodes T xs) hT (firstCodes_mem hxs)
    (by rw [firstCodes_length]; exact (List.prefix_append _ _).trans hp)
    (by rw [firstCodes_bits]; exact bitsAt_payload (by omega) hb) (by simpa using hl)
  rwa [firstCodes_symbols, firstCodes_bits, firstCodes_length, ← payload_length, ← hlen'] at h

/-! ## Stages one by one -/

theorem thenExec_stage {i : Instr} {body bodyI : State → Run Unit} {s : State} (p q : Word)
    (hi : bodyOf i = completing bodyI) (ha : acceptedWhileErr i = false)
    {raiseP : FaultKind → Word → State → Prop} {stopP : Fault → Prop}
    (h : (body s).Ends (fun _ t => t.status.err = false ∧ t.status.done = false ∧ flagsHeld i t.status = true ∧
      lengthsHeld i t = true ∧ t.ipos = q) raiseP stopP) :
    (∃ t, body s = .ok () t ∧ thenExec (finish p (completing body s)) i =
      finish q (completing (fun s => (body s).andThen fun _ t => bodyI t) s)) ∨
    (∃ k v t, body s = .raise k v t ∧ thenExec (finish p (completing body s)) i =
      finish p (completing (fun s => (body s).andThen fun _ t => bodyI t) s)) ∨
    (∃ x, body s = .stop x ∧ thenExec (finish p (completing body s)) i = .fault x) := by
  cases hb : body s with
  | ok u t =>
    left
    rw [hb] at h
    obtain ⟨h1, h2, h3, h4, h5⟩ := h
    refine ⟨t, rfl, ?_⟩
    simp only [completing, hb, Run.andThen_ok, finish_ok, thenExec]
    have hf : flagsHeld i t.setDone.status = true := by rw [← h3]; cases i <;> rfl
    have hl : lengthsHeld i t.setDone = true := by rw [← h4]; cases i <;> rfl
    rw [exec_ready (s := t.setDone) h1 hf hl, hi]
    have : t.setDone.clearDone = t := by
      have : t.status = { t.status with done := false } := by
        generalize t.status = st at h2; cases st; simp at h2; subst h2; rfl
      simp only [State.clearDone, State.setDone, ← this]
    rw [this]
    simp only [completing, ← h5]
    rfl
  | raise k v t =>
    right; left
    refine ⟨k, v, t, rfl, ?_⟩
    simp only [completing, hb, Run.andThen_raise, finish_raise, thenExec]
    rw [exec_eq_accept]
    exact accept_ignored (by rw [(takeFault_kept k v p t).2.2.2.2.2.2.2.2.2.2.1]) ha
  | stop x =>
    right; right
    exact ⟨x, rfl, by simp [completing, hb, thenExec]⟩

theorem thenExec_stage_same {i : Instr} {body bodyI : State → Run Unit} {s : State} (p : Word)
    (hi : bodyOf i = completing bodyI) (ha : acceptedWhileErr i = false)
    {raiseP : FaultKind → Word → State → Prop} {stopP : Fault → Prop}
    (h : (body s).Ends (fun _ t => t.status.err = false ∧ t.status.done = false ∧ flagsHeld i t.status = true ∧
      lengthsHeld i t = true ∧ t.ipos = p) raiseP stopP) :
    thenExec (finish p (completing body s)) i =
      finish p (completing (fun s => (body s).andThen fun _ t => bodyI t) s) := by
  rcases thenExec_stage p p hi ha h with ⟨t, _, h⟩ | ⟨k, v, t, _, h⟩ | ⟨x, hx, h⟩
  · exact h
  · exact h
  · rw [h]; simp [completing, hx]

theorem takeFault_ipos {k : FaultKind} (hk : k.isExecution = true) (v p q : Word) (s : State) :
    ({ takeFault k v p s with ipos := q } : State) = takeFault k v q s := by
  cases k <;> first | rfl | exact absurd hk (by decide)

theorem finish_relocate {r : Run Unit} {p q : Word} {t : State}
    (hr : r.Ends (fun _ t => t.status.err = false) (fun k _ _ => k.isExecution = true) (fun _ => True))
    (h : finish p r = .next t) : finish q r = .next (if t.status.err then { t with ipos := q } else t) := by
  cases r with
  | ok u s => simp at h; subst h; have : s.status.err = false := hr; simp [this]
  | raise k v s =>
    simp at h; subst h
    have hk : k.isExecution = true := hr
    have : (takeFault k v p s).status.err = true := by rw [(takeFault_kept k v p s).2.2.2.2.2.2.2.2.2.2.1]
    simp only [finish_raise, this, if_true]
    rw [takeFault_ipos hk]
  | stop x => cases h

/-- a stage after a run, when the position moves: same end but for IPOS0 -/
theorem thenExec_stage_some {i : Instr} {body bodyI : State → Run Unit} {s : State} (p : Word)
    (hi : bodyOf i = completing bodyI) (ha : acceptedWhileErr i = false)
    {raiseP : FaultKind → Word → State → Prop} {stopP : Fault → Prop}
    (h : (body s).Ends (fun _ t => t.status.err = false ∧ t.status.done = false ∧ flagsHeld i t.status = true ∧
      lengthsHeld i t = true) raiseP stopP) :
    ∃ q, thenExec (finish p (completing body s)) i =
      finish q (completing (fun s => (body s).andThen fun _ t => bodyI t) s) := by
  cases hb : body s with
  | ok u t =>
    rw [hb] at h
    rcases thenExec_stage (body := body) (s := s) p t.ipos hi ha (raiseP := fun _ _ _ => True) (stopP := fun _ => True) (by rw [hb]; exact ⟨h.1, h.2.1, h.2.2.1, h.2.2.2, rfl⟩) with ⟨t', h', h⟩ | ⟨k, v, t', h', h⟩ | ⟨x, hx, h⟩
    · exact ⟨_, h⟩
    · rw [hb] at h'; cases h'
    · rw [hb] at hx; cases hx
  | raise k v t =>
    refine ⟨p, ?_⟩
    simp only [completing, hb, Run.andThen_raise, finish_raise, thenExec]
    rw [exec_eq_accept]
    exact accept_ignored (by rw [(takeFault_kept k v p t).2.2.2.2.2.2.2.2.2.2.1]) ha
  | stop x =>
    exact ⟨p, by simp [completing, hb, thenExec]⟩

theorem unpackLoop_a (fuel : Nat) (c : Cursor) (s : State) : (unpackLoop fuel c s).Ends (fun _ t => t.status = s.status) (fun _ _ _ => True) (fun _ => True) := 
  (unpackLoop_ends fuel c s).mono (fun _ t h => by simp only [SameButOutput] at h; rw [h]) (fun _ _ _ _ => trivial) (fun _ _ => trivial)

theorem des_ok_ipos {byteAt : Nat → Byte} {ilen fuel : Nat} {p q : Parse} {i : Nat}
    (h : des byteAt ilen fuel p = .ok i q) : p.ipos < q.ipos ∧ q.ipos ≤ ilen := by
  induction fuel generalizing p q i with
  | zero => cases h
  | succ fuel ih =>
    simp only [des] at h
    split at h
    · cases h
    · split at h
      · cases h
      · split at h
        · cases h
        · split at h
          · split at h
            · cases h
            · cases h; simp; omega
          · split at h
            · cases h
            · rename_i e1
              split at h
              · cases h
              · rename_i e2
                cases h
                have := ih e1; have := ih e2
                simp at *; omega

theorem bodyTdes_ipos (s : State) : (bodyTdes s).Ends (fun _ t => t.ipos.toNat ≤ s.ilen.toNat) (fun _ _ _ => True) (fun _ => True) := by
  unfold bodyTdes
  simp only
  split
  · trivial
  · rename_i i p h
    have := des_ok_ipos h
    have hlt := s.ilen.isLt
    show (toWord p.ipos).toNat ≤ _
    have h2 : p.ipos ≤ s.ilen.toNat := this.2
    rw [toWord_toNat (by omega)]; exact h2

theorem bodyRcnt_ipos (s : State) (h : s.ipos.toNat ≤ s.ilen.toNat) : (bodyRcnt s).Ends (fun _ t => t.ipos.toNat ≤ s.ilen.toNat) (fun _ _ _ => True) (fun _ => True) := by
  unfold bodyRcnt
  simp only
  split
  · have hlt := s.ilen.isLt
    show (toWord (s.ipos.toNat + 4)).toNat ≤ _
    rw [toWord_toNat (by omega)]; omega
  · trivial

end Sys2Proof.Machine
end

