-- ==== Sys2Proof/Laws/Invariants.lean ====
section
/-! SUPPORT. What BUILD, TDES and DERIVE leave: ranges, rising addresses, and trees that are trees. -/

namespace Sys2Proof.Machine

/-! ## What a parse that succeeds has read (rule R173) -/

theorem des_sound (byteAt : Nat → Byte) (ilen : Nat) :
    ∀ (fuel : Nat) (p q : Parse) (i : Nat), des byteAt ilen fuel p = .ok i q →
      ∃ t : HuffTree, t.depth < fuel ∧ BytesAt byteAt p.ipos (ser t) ∧ p.ipos + (ser t).length ≤ ilen ∧
        p.nnode + t.size ≤ 511 ∧ i = p.nnode ∧ q.ipos = p.ipos + (ser t).length ∧ q.nnode = p.nnode + t.size := by
  intro fuel
  induction fuel with
  | zero => intro p q i h; cases h
  | succ fuel ih =>
    intro p q i h
    simp only [des] at h
    split at h
    · cases h
    · split at h
      · cases h
      · split at h
        · cases h
        · rename_i h1 h2 h3
          have h3 : ¬ 511 ≤ p.nnode := h3
          split at h
          · rename_i h4
            split at h
            · cases h
            · rename_i h5
              cases h
              refine ⟨.leaf (byteAt (p.ipos + 1)), by simp [HuffTree.depth], ?_, ?_, ?_, rfl, rfl, rfl⟩
              · intro k b hk
                match k with
                | 0 => simp [ser] at hk; rw [← hk]; exact h4
                | 1 => simp [ser] at hk; rw [← hk]
                | k + 2 => simp [ser] at hk
              · simp [ser]; omega
              · simp [HuffTree.size]; omega
          · rename_i h4
            have hm : byteAt p.ipos = Config.markInt := by
              by_contra hh; exact h2 ⟨hh, h4⟩
            split at h
            · cases h
            · rename_i l p1 e1
              split at h
              · cases h
              · rename_i r p2 e2
                cases h
                obtain ⟨tl, a1, a2, a3, a4, a5, a6, a7⟩ := ih _ _ _ e1
                obtain ⟨tr, b1, b2, b3, b4, b5, b6, b7⟩ := ih _ _ _ e2
                simp only at a2 a3 a4 a6 a7
                refine ⟨.node tl tr, by simp [HuffTree.depth]; omega, ?_, ?_, ?_, rfl, ?_, ?_⟩
                · intro k b hk
                  cases k with
                  | zero => simp [ser] at hk; rw [← hk]; exact hm
                  | succ k =>
                    simp only [ser, List.getElem?_cons_succ] at hk
                    by_cases hkl : k < (ser tl).length
                    · rw [List.getElem?_append_left hkl] at hk
                      rw [show p.ipos + (k + 1) = p.ipos + 1 + k by omega]; exact a2 k b hk
                    · rw [List.getElem?_append_right (by omega)] at hk
                      rw [show p.ipos + (k + 1) = p1.ipos + (k - (ser tl).length) by omega]; exact b2 _ b hk
                · simp only [ser, List.length_cons, List.length_append]; omega
                · simp only [HuffTree.size]; omega
                · simp only [ser, List.length_cons, List.length_append]; omega
                · simp only [HuffTree.size]; omega

/-- TDES's body, when it completes, has read a tree (rules R169, R173). -/
theorem bodyTdes_tree {s t : State} {u : Unit} (h : bodyTdes s = .ok u t) :
    ∃ T : HuffTree, T.size ≤ 511 ∧ t.tree? = some T ∧ t.nnode.toNat = T.size ∧ t.root = 0#32 := by
  simp only [bodyTdes] at h
  split at h
  · cases h
  · rename_i i p e
    have e' : des s.ibufByte s.ilen.toNat (Config.nodeMax + 1) { ipos := s.ipos.toNat, nnode := 0, nodes := [] } = .ok i p := e
    obtain ⟨T, h1, h2, h3, h4, h5, h6, h7⟩ := des_sound _ _ _ _ _ _ e'
    obtain ⟨N, n1, n2, n3, n4, n5⟩ := bodyTdes_ok (s := s) (T := T) (by simpa using h4) h3 h2
    have hh : bodyTdes s = .ok u t := by simp only [bodyTdes]; rw [e]; exact h
    rw [n5] at hh
    cases hh
    exact ⟨T, by simpa using h4, n3, toWord_toNat (by have : T.size ≤ 511 := by simpa using h4
                                                      omega), rfl⟩

/-! ## The heap without its order -/

theorem siftUp_queue (fuel p : Nat) (A : Arena) (hp : p < A.hsize) :
    (Arena.siftUp fuel p A).queue.Perm A.queue := by
  induction fuel generalizing p A with
  | zero => exact List.Perm.refl _
  | succ fuel ih =>
    simp only [Arena.siftUp]
    split
    · exact (ih _ _ (by simp; omega)).trans (swap_queue A hp (by omega))
    · exact List.Perm.refl _

theorem siftDown_queue (fuel p : Nat) (A : Arena) (hp : p < A.hsize) :
    (Arena.siftDown fuel p A).queue.Perm A.queue := by
  induction fuel generalizing p A with
  | zero => exact List.Perm.refl _
  | succ fuel ih =>
    simp only [Arena.siftDown]
    rcases leastOf_spec A p with ⟨e, _⟩ | ⟨_, hm, _, _, _⟩
    · rw [if_pos e]
    · split
      · exact List.Perm.refl _
      · exact (ih _ _ (by simpa using hm)).trans (swap_queue A hp hm)

/-- Every queue entry is an arena index, and the two counts fit. -/
structure Arena.Bounded (A : Arena) : Prop where
  count : A.nnode + A.hsize ≤ 512
  queue : ∀ x ∈ A.queue, x.toNat < A.nnode

theorem Arena.Bounded.addNode {A : Arena} (h : A.Bounded) (hn : A.nnode + A.hsize ≤ 510) (e : NodeEntry) :
    (A.addNode e).Bounded ∧ (A.addNode e).nnode = A.nnode + 1 ∧ (A.addNode e).hsize = A.hsize + 1 := by
  have hk := siftUp_kept A.hsize A.hsize
    { nodes := setCell A.nnode e A.nodes, nnode := A.nnode + 1,
      heap := setCell A.hsize (BitVec.ofNat 9 A.nnode) A.heap, hsize := A.hsize + 1 }
  have hq := siftUp_queue A.hsize A.hsize
    { nodes := setCell A.nnode e A.nodes, nnode := A.nnode + 1,
      heap := setCell A.hsize (BitVec.ofNat 9 A.nnode) A.heap, hsize := A.hsize + 1 } (Nat.lt_succ_self _)
  have h1 : (A.addNode e).nnode = A.nnode + 1 := hk.2.1
  have h2 : (A.addNode e).hsize = A.hsize + 1 := hk.2.2
  refine ⟨⟨by omega, fun x hx => ?_⟩, h1, h2⟩
  rw [h1]
  have hx := (show (A.addNode e).queue.Perm _ from hq).mem_iff.mp hx
  simp only [Arena.queue, List.mem_map, List.mem_range] at hx
  obtain ⟨p, hp, rfl⟩ := hx
  have ea := heapAt_set A A.hsize p (BitVec.ofNat 9 A.nnode)
  have ea' : (⟨setCell A.nnode e A.nodes, A.nnode + 1, setCell A.hsize (BitVec.ofNat 9 A.nnode) A.heap,
      A.hsize + 1⟩ : Arena).heapAt p = _ := ea
  rw [ea']
  split
  · rw [ofNat9_toNat (by omega)]; omega
  · have := h.queue _ (heapAt_mem_queue (A := A) (p := p) (by omega)); omega

theorem Arena.Bounded.extract {A : Arena} (h : A.Bounded) (h0 : 0 < A.hsize) :
    A.heapExtract.2.Bounded ∧ A.heapExtract.2.nnode = A.nnode ∧ A.heapExtract.2.hsize = A.hsize - 1 ∧
    A.heapExtract.1.toNat < A.nnode := by
  have hr := h.queue _ (heapAt_mem_queue h0)
  obtain ⟨n, hn⟩ : ∃ n, A.hsize = n + 1 := ⟨A.hsize - 1, by omega⟩
  have hc := h.count
  by_cases hp : 0 < n
  · have e : A.heapExtract = (A.heapAt 0,
        Arena.siftDown n 0 { A with hsize := n, heap := setCell 0 (A.heapAt n) A.heap }) := by
      simp [Arena.heapExtract, hn, hp]
    rw [e]
    have hk := siftDown_kept n 0 { A with hsize := n, heap := setCell 0 (A.heapAt n) A.heap }
    have hq := siftDown_queue n 0 { A with hsize := n, heap := setCell 0 (A.heapAt n) A.heap } hp
    refine ⟨⟨?_, fun x hx => ?_⟩, hk.2.1, ?_, hr⟩
    · show (Arena.siftDown n 0 _).nnode + (Arena.siftDown n 0 _).hsize ≤ 512
      rw [hk.2.1, hk.2.2]; show A.nnode + n ≤ 512; omega
    · show x.toNat < (Arena.siftDown n 0 _).nnode
      rw [hk.2.1]
      have hx := hq.mem_iff.mp hx
      simp only [Arena.queue, List.mem_map, List.mem_range] at hx
      obtain ⟨p, hp, rfl⟩ := hx
      have ea := heapAt_set A 0 p (A.heapAt n)
      have ea' : ({ nodes := A.nodes, nnode := A.nnode, heap := setCell 0 (A.heapAt n) A.heap, hsize := n } : Arena).heapAt p = _ := ea
      rw [ea']
      split
      · exact h.queue _ (heapAt_mem_queue (by omega))
      · exact h.queue _ (heapAt_mem_queue (by omega))
    · show (Arena.siftDown n 0 _).hsize = _
      rw [hk.2.2]; show n = _; omega
  · obtain rfl : n = 0 := by omega
    have e : A.heapExtract = (A.heapAt 0, { A with hsize := 0 }) := by simp [Arena.heapExtract, hn]
    rw [e]
    exact ⟨⟨by show A.nnode + 0 ≤ 512; omega, fun x hx => by simp [Arena.queue] at hx⟩, rfl, by simp [hn], hr⟩

theorem Arena.Bounded.combine {A : Arena} (h : A.Bounded) (h1 : 1 < A.hsize) :
    A.combine.Bounded ∧ A.combine.hsize = A.hsize - 1 := by
  obtain ⟨a1, a2, a3, a4⟩ := h.extract (by omega)
  obtain ⟨b1, b2, b3, b4⟩ := a1.extract (by omega)
  have hc := h.count
  obtain ⟨c1, c2, c3⟩ := b1.addNode (by omega)
    ⟨false, 0#8, A.heapExtract.1, A.heapExtract.2.heapExtract.1,
      A.heapExtract.2.heapExtract.2.freqOf A.heapExtract.1 +
      A.heapExtract.2.heapExtract.2.freqOf A.heapExtract.2.heapExtract.1⟩
  exact ⟨c1, by show (Arena.addNode _ _).hsize = _; rw [c3]; omega⟩

theorem Arena.Bounded.combineAll (n : Nat) {A : Arena} (h : A.Bounded) (h0 : 0 < A.hsize) (h1 : A.hsize ≤ 256) :
    (Machine.combineAll n A).Bounded ∧ 0 < (Machine.combineAll n A).hsize ∧ (Machine.combineAll n A).hsize ≤ 256 := by
  induction n generalizing A with
  | zero => exact ⟨h, h0, h1⟩
  | succ n ih =>
    simp only [Machine.combineAll]
    split
    · rename_i h2
      obtain ⟨a, b⟩ := h.combine h2
      exact ih a (by omega) (by omega)
    · exact ⟨h, h0, h1⟩

theorem initLeaves_bounded (f : Nat → Word) (ks : List Nat) (A : Arena) (h : A.Bounded) (he : A.nnode = A.hsize)
    (hn : A.hsize + ks.length ≤ 256) :
    (initLeaves f ks A).Bounded ∧ (initLeaves f ks A).nnode = (initLeaves f ks A).hsize ∧
    (initLeaves f ks A).hsize ≤ 256 := by
  induction ks generalizing A with
  | nil => exact ⟨h, he, by simpa [initLeaves] using hn⟩
  | cons k ks ih =>
    simp only [List.length_cons] at hn
    simp only [initLeaves]
    split
    · exact ih A h he (by omega)
    · obtain ⟨a, b, c⟩ := h.addNode (by omega) (buildLeaf k (f k))
      exact ih _ a (by omega) (by omega)

/-- The ranges BUILD's body leaves, whatever the counts (rules R30, R31, R38). -/
theorem bodyBuild_ranges {s t : State} {u : Unit} (h : bodyBuild s = .ok u t) :
    t.root.toNat ≤ 510 ∧ t.nnode.toNat ≤ 511 ∧ t.hsize.toNat ≤ 256 ∧ t.nsym = s.nsym := by
  have hA : s.clearTreeFlags.leavesArena.Bounded ∧
      s.clearTreeFlags.leavesArena.nnode = s.clearTreeFlags.leavesArena.hsize ∧
      s.clearTreeFlags.leavesArena.hsize ≤ 256 :=
    initLeaves_bounded _ _ _ ⟨by simp [Arena.start], by simp [Arena.start, Arena.queue]⟩ rfl (by simp [Arena.start])
  obtain ⟨a1, a2, a3⟩ := hA
  simp only [bodyBuild] at h
  split at h
  · cases h
  · rename_i h0
    obtain ⟨b1, b2, b3⟩ := a1.combineAll Config.heapMax (by omega) a3
    obtain ⟨c1, c2, c3, c4⟩ := b1.extract b2
    cases h
    have hc := b1.count
    refine ⟨?_, ?_, ?_, rfl⟩
    · show (toWord _).toNat ≤ 510
      rw [toWord_toNat (by omega)]; omega
    · show (toWord _).toNat ≤ 511
      rw [c2, toWord_toNat (by omega)]; omega
    · show (BitVec.ofNat 9 _).toNat ≤ 256
      rw [ofNat9_toNat (by omega)]; omega

/-! ## Cells stay in rising order -/

theorem siftUp_rising (fuel p : Nat) (A : Arena) (h : rising A.heap = true) :
    rising (Arena.siftUp fuel p A).heap = true := by
  induction fuel generalizing p A with
  | zero => exact h
  | succ fuel ih =>
    simp only [Arena.siftUp]
    split
    · exact ih _ _ (rising_setCell _ _ (rising_setCell _ _ h))
    · exact h

theorem siftDown_rising (fuel p : Nat) (A : Arena) (h : rising A.heap = true) :
    rising (Arena.siftDown fuel p A).heap = true := by
  induction fuel generalizing p A with
  | zero => exact h
  | succ fuel ih =>
    simp only [Arena.siftDown]
    split
    · exact h
    · exact ih _ _ (rising_setCell _ _ (rising_setCell _ _ h))

/-- Both cell lists of an arena are in rising order. -/
def Arena.Rising (A : Arena) : Prop := rising A.nodes = true ∧ rising A.heap = true

theorem Arena.Rising.addNode {A : Arena} (h : A.Rising) (e : NodeEntry) : (A.addNode e).Rising := by
  refine ⟨?_, siftUp_rising _ _ _ (rising_setCell _ _ h.2)⟩
  show rising (Arena.siftUp _ _ _).nodes = true
  rw [(siftUp_kept _ _ _).1]
  exact rising_setCell _ _ h.1

theorem Arena.Rising.extract {A : Arena} (h : A.Rising) : A.heapExtract.2.Rising := by
  simp only [Arena.heapExtract]
  split
  · refine ⟨?_, siftDown_rising _ _ _ (rising_setCell _ _ h.2)⟩
    show rising (Arena.siftDown _ _ _).nodes = true
    rw [(siftDown_kept _ _ _).1]
    exact h.1
  · exact h

theorem Arena.Rising.combineAll (n : Nat) {A : Arena} (h : A.Rising) : (Machine.combineAll n A).Rising := by
  induction n generalizing A with
  | zero => exact h
  | succ n ih =>
    simp only [Machine.combineAll]
    split
    · exact ih (h.extract.extract.addNode _)
    · exact h

theorem Arena.Rising.initLeaves (f : Nat → Word) (ks : List Nat) {A : Arena} (h : A.Rising) :
    (Machine.initLeaves f ks A).Rising := by
  induction ks generalizing A with
  | nil => exact h
  | cons k ks ih =>
    simp only [Machine.initLeaves]
    split
    · exact ih h
    · exact ih (h.addNode _)

theorem des_rising (byteAt : Nat → Byte) (ilen : Nat) :
    ∀ (fuel : Nat) (p q : Parse) (i : Nat), des byteAt ilen fuel p = .ok i q → rising p.nodes = true →
      rising q.nodes = true := by
  intro fuel
  induction fuel with
  | zero => intro p q i h; cases h
  | succ fuel ih =>
    intro p q i h hr
    simp only [des] at h
    split at h
    · cases h
    · split at h
      · cases h
      · split at h
        · cases h
        · split at h
          · split at h
            · cases h
            · cases h; exact rising_setCell _ _ hr
          · split at h
            · cases h
            · rename_i e1
              split at h
              · cases h
              · rename_i e2
                cases h
                exact rising_setCell _ _ (ih _ _ _ e2 (ih _ _ _ e1 (rising_setCell _ _ hr)))

theorem visit_rising (t : HuffTree) (path : List Bool) (d : Derived) (ht : rising d.trie = true)
    (hc : rising d.code = true) :
    rising (visit t path d).2.trie = true ∧ rising (visit t path d).2.code = true := by
  induction t generalizing path d with
  | leaf x => exact ⟨rising_setCell _ _ ht, rising_setCell _ _ hc⟩
  | node l r ihl ihr =>
    have h1 := ihl (path ++ [false])
      { d with tn := d.tn + 1, trie := setCell d.tn (trieNode Config.null Config.null) d.trie }
      (rising_setCell _ _ ht) hc
    have h2 := ihr (path ++ [true]) _ h1.1 h1.2
    exact ⟨rising_setCell _ _ h2.1, h2.2⟩

theorem deriveTables_rising (t : HuffTree) :
    rising (deriveTables t).trie = true ∧ rising (deriveTables t).code = true := by
  have h1 : rising Derived.start.trie = true := rfl
  have h2 : rising Derived.start.code = true := rising_tabulate _ _
  cases t with
  | leaf x => exact ⟨rising_setCell _ _ (rising_setCell _ _ h1), rising_setCell _ _ h2⟩
  | node l r => exact visit_rising _ _ _ h1 h2

end Sys2Proof.Machine
end

