-- ==== Sys2Proof/Laws/PerInstr.lean ====
section
/-! SUPPORT. Laws made per instruction: the family OpcodeWord, one lemma per command. -/

namespace Sys2Proof.Laws.OpcodeWord

/-- Rules R91, R92: a command is well formed, its word has zeros above the opcode byte, and both readings of
that word (the decoder's, and the table's 32 bits) give the command back. -/
def Statement (i : Instr) : Prop :=
  i.wf = true ∧ zeroField (encode i) = 0#24 ∧ opcodeField (encode i) = i.opcode ∧
  opcodeInstr i.opcode.toNat = some i ∧ decodeTableWord 32 (encode i).toNat = some i

theorem fcnt : Statement .fcnt := by unfold Statement; decide
theorem build : Statement .build := by unfold Statement; decide
theorem derive : Statement .derive := by unfold Statement; decide
theorem tser : Statement .tser := by unfold Statement; decide
theorem wcnt : Statement .wcnt := by unfold Statement; decide
theorem pack : Statement .pack := by unfold Statement; decide
theorem tdes : Statement .tdes := by unfold Statement; decide
theorem rcnt : Statement .rcnt := by unfold Statement; decide
theorem unpack : Statement .unpack := by unfold Statement; decide
theorem compress : Statement .compress := by unfold Statement; decide
theorem decompress : Statement .decompress := by unfold Statement; decide
theorem clrerr : Statement .clrerr := by unfold Statement; decide
theorem srst : Statement .srst := by unfold Statement; decide

end Sys2Proof.Laws.OpcodeWord
end

