-- ==== Sys2Proof/Laws/Step.lean ====
section
/-! SUPPORT. One step and its invariants: everything a step can do, and what it keeps when its parts do. -/

namespace Sys2Proof.Machine

/-! ## One step -/

/-- A step is a command, an illegal word, or something of the host's: an access, a line's expansion, a check. -/
theorem step_cases {s t : State} (h : step s = .next t) :
    t = s ∨
    (∃ rest i, exec i { s with script := rest } = .next t) ∨
    (∃ rest w, t = presentIllegal w { s with script := rest }) ∨
    (∃ rest m, (∀ w, m ≠ .writeReg 0 w) ∧ hostAccess m { s with script := rest } = .next t) ∨
    (∃ rest, t = { s with script := rest }) ∨
    (∃ rest e, checkExpect e { s with script := rest } = .next t) := by
  unfold step at h
  split at h
  · left; cases h; rfl
  · rename_i line rest hs
    simp only at h
    split at h
    · rename_i m
      unfold hostMove at h
      split at h
      · rename_i w
        unfold presentWord at h
        split at h
        · rename_i i _; right; left; exact ⟨rest, i, h⟩
        · right; right; left; cases h; exact ⟨rest, _, rfl⟩
      · rename_i hm; right; right; right; left
        exact ⟨rest, m, fun w e => hm w e, h⟩
    · rename_i e; right; right; right; right; right; exact ⟨rest, e, h⟩
    · right; right; right; right; left; cases h; exact ⟨_, rfl⟩

/-- A check that holds changes nothing but the count of draws. -/
theorem State.afterCheck_frame (s : State) (e : Expect) : s.afterCheck e = { s with fresh := (s.afterCheck e).fresh } := by
  unfold State.afterCheck
  split
  · split <;> rfl
  · rfl

/-- Everything a check can do: the state after one that holds is the same but for the draws counted. -/
theorem checkExpect_cases {e : Expect} {s t : State} (h : checkExpect e s = .next t) :
    expectHolds s e = true ∧ checksAbsentByte s e = false ∧ ∃ n, t = { s with fresh := n } := by
  unfold checkExpect at h
  split at h
  · cases h
  · rename_i ha
    split at h
    · rename_i hh
      cases h
      exact ⟨hh, by simpa using ha, _, s.afterCheck_frame e⟩
    · cases h

/-- Everything a host access can do -/
theorem hostAccess_cases {m : HostMove} {s t : State} (h : hostAccess m s = .next t) :
    (∃ a b c, t = { s with ilen := a, ipos := b, olen := c }) ∨
    (∃ a b, a < s.cfg.ibufCap ∧ t = { s with ibuf := s.ibuf.set a b }) ∨
    (∃ w n, t = { s with rdata := w, fresh := n }) ∨
    t = s.hardwareReset := by
  cases m with
  | writeReg n v =>
    left
    simp only [hostAccess, Host.Outcome.next.injEq] at h
    subst h
    unfold writeReg
    split
    · exact ⟨v, s.ipos, s.olen, rfl⟩
    · exact ⟨s.ilen, v, s.olen, rfl⟩
    · exact ⟨s.ilen, s.ipos, v, rfl⟩
    · exact ⟨s.ilen, s.ipos, s.olen, rfl⟩
  | readReg n => right; right; left; cases h; exact ⟨_, s.fresh, rfl⟩
  | writeIbuf a b =>
    right; left
    simp only [hostAccess] at h
    split at h
    · rename_i ha; cases h; exact ⟨a, b, ha, rfl⟩
    · cases h
  | readIbuf a =>
    right; right; left
    simp only [hostAccess] at h
    split at h
    · cases h; exact ⟨_, s.fresh, rfl⟩
    · cases h
  | readObuf a =>
    right; right; left
    simp only [hostAccess] at h
    split at h
    · split at h
      · cases h; exact ⟨_, s.fresh, rfl⟩
      · cases h; exact ⟨_, _, rfl⟩
    · cases h
  | readTable t i w =>
    right; right; left
    simp only [hostAccess] at h
    split at h
    · cases h; exact ⟨_, s.fresh, rfl⟩
    · cases h; exact ⟨_, _, rfl⟩
  | hwReset => right; right; right; cases h; rfl

/-- An invariant is kept by every step when commands, illegal words and host accesses keep it. -/
theorem step_keeps (P : State → Prop)
    (hown : ∀ s rest n, P s → P { s with script := rest, fresh := n })
    (hexec : ∀ s t i, P s → exec i s = .next t → P t)
    (hill : ∀ s w, P s → P (presentIllegal w s))
    (hhost : ∀ s t m, P s → hostAccess m s = .next t → P t) : ∀ s t, P s → step s = .next t → P t := by
  intro s t hs h
  have hscript : ∀ rest, P { s with script := rest } := fun rest => hown s rest s.fresh hs
  rcases step_cases h with rfl | ⟨rest, i, h⟩ | ⟨rest, w, rfl⟩ | ⟨rest, m, _, h⟩ | ⟨rest, rfl⟩ | ⟨rest, e, h⟩
  · exact hs
  · exact hexec _ _ _ (hscript _) h
  · exact hill _ _ (hscript _)
  · exact hhost _ _ _ (hscript _) h
  · exact hscript _
  · obtain ⟨_, _, n, rfl⟩ := checkExpect_cases h
    exact hown s rest n hs

theorem errWord_ne (k : FaultKind) : k.errWord ≠ 0#32 := by cases k <;> decide

/-- Taking a fault leaves a consistent record (rules R236, R238). -/
theorem recordOk_fault {s : State} (hb : s.status.busy = false) (k : FaultKind) (v p : Word) : (takeFault k v p s).RecordOk := by
  obtain ⟨-, -, -, -, -, -, -, -, -, -, h1, h2, h3⟩ := takeFault_kept k v p s
  have hne := errWord_ne k
  refine ⟨?_, ?_, ?_, ?_, ?_⟩
  · rw [h1, h2]; simp [hne]
  · intro _; exact ⟨k, h2⟩
  · rw [h1]; simp
  · rw [h1]; simp
  · rw [h1]; exact hb

/-! ## Commands keep what their stages keep -/

/-- A command keeps P when its pseudocode, its pre-execution faults and its execution faults do. -/
theorem exec_keeps (P : State → Prop) (hclear : ∀ s, P s → P s.clearDone)
    (hrec : ∀ s k v, P s → P (s.recordFault k v))
    (Q : FaultKind → State → Prop) (hfault : ∀ k v p s, Q k s → k.isExecution = true → P (takeFault k v p s))
    (hbody : ∀ i s, P s → flagsHeld i s.status = true → (bodyOf i s).Ends (fun _ t => P t) (fun k _ t => Q k t) (fun _ => True)) :
    ∀ s t i, P s → exec i s = .next t → P t := by
  intro s t i hs h
  rcases exec_cases i s with ⟨_, _, h'⟩ | ⟨ha, ⟨hf, h'⟩ | ⟨_, hf, h'⟩ | ⟨hf, _, h'⟩⟩
  · rw [h'] at h; cases h; exact hs
  · rw [h'] at h; cases h; exact hrec _ _ _ (hclear _ hs)
  · rw [h'] at h; cases h; exact hrec _ _ _ (hclear _ hs)
  · rw [h'] at h
    have hfl : flagsHeld i s.clearDone.status = true := by rw [← hf]; cases i <;> rfl
    have hb := (bodyOf_ends i s.clearDone).and (hbody i _ (hclear _ hs) hfl)
    cases hr : bodyOf i s.clearDone with
    | ok u s' =>
      rw [hr] at h hb
      simp at h; subst h
      exact hb.2
    | raise k v s' =>
      rw [hr] at h hb
      simp at h; subst h
      exact hfault _ _ _ _ hb.2 (raisable_isExecution hb.1.2.1)
    | stop x => rw [hr] at h; cases h

/-- One preservation lemma per stage gives one for every command -/
theorem bodies_keep (P : State → Prop) (Q : FaultKind → State → Prop)
    (hdone : ∀ s, P s → P s.setDone)
    (hpos : ∀ s a b, P s → P { s with ipos := a, olen := b })
    (hF : ∀ s, P s → (bodyFcnt s).Ends (fun _ t => P t) (fun k _ t => Q k t) (fun _ => True))
    (hB : ∀ s, P s → s.status.vFreq = true → (bodyBuild s).Ends (fun _ t => P t) (fun k _ t => Q k t) (fun _ => True))
    (hD : ∀ s, P s → s.status.vTree = true → (bodyDerive s).Ends (fun _ t => P t) (fun k _ t => Q k t) (fun _ => True))
    (hS : ∀ s, P s → (bodyTser s).Ends (fun _ t => P t) (fun k _ t => Q k t) (fun _ => True))
    (hW : ∀ s, P s → (bodyWcnt s).Ends (fun _ t => P t) (fun k _ t => Q k t) (fun _ => True))
    (hP : ∀ s, P s → (bodyPack s).Ends (fun _ t => P t) (fun k _ t => Q k t) (fun _ => True))
    (hT : ∀ s, P s → (bodyTdes s).Ends (fun _ t => P t) (fun k _ t => Q k t) (fun _ => True))
    (hR : ∀ s, P s → (bodyRcnt s).Ends (fun _ t => P t) (fun k _ t => Q k t) (fun _ => True))
    (hU : ∀ s, P s → (bodyUnpack s).Ends (fun _ t => P t) (fun k _ t => Q k t) (fun _ => True))
    (hC : ∀ s, P s → P s.clearFault) (hZ : ∀ s, P s → P s.softReset) :
    ∀ i s, P s → flagsHeld i s.status = true → (bodyOf i s).Ends (fun _ t => P t) (fun k _ t => Q k t) (fun _ => True) := by
  have lift : ∀ {body : State → Run Unit} {s}, (body s).Ends (fun _ t => P t) (fun k _ t => Q k t) (fun _ => True) →
      (completing body s).Ends (fun _ t => P t) (fun k _ t => Q k t) (fun _ => True) := by
    intro body s h; exact completing_ends h fun _ t ht => hdone t ht
  intro i s hs hf
  cases i with
  | fcnt => exact lift (hF s hs)
  | build => exact lift (hB s hs hf)
  | derive => exact lift (hD s hs hf)
  | tser => exact lift (hS s hs)
  | wcnt => exact lift (hW s hs)
  | pack => exact lift (hP s hs)
  | tdes => exact lift (hT s hs)
  | rcnt => exact lift (hR s hs)
  | unpack => exact lift (hU s hs)
  | compress =>
    refine lift ?_
    unfold bodyCompress
    refine (((hF _ (hpos s s.ipos 0#32 hs)).and (bodyFcnt_ends _)).mono (okQ := fun _ t => P t ∧ t.status.vFreq = true) (fun _ t h => ⟨h.1, by rw [h.2]⟩) (fun _ _ _ h => h.1) (fun _ h => trivial)).andThen fun _ s1 h1 => ?_
    refine (((hB s1 h1.1 h1.2).and (bodyBuild_ends s1)).mono (okQ := fun _ t => P t ∧ t.status.vTree = true) (fun _ t h => ⟨h.1, by rw [h.2]⟩) (fun _ _ _ h => h.1) (fun _ h => trivial)).andThen fun _ s2 h2 => ?_
    refine (hD s2 h2.1 h2.2).andThen fun _ s3 h3 => ?_
    refine (hS s3 h3).andThen fun _ s4 h4 => ?_
    refine (hW s4 h4).andThen fun _ s5 h5 => ?_
    exact hP s5 h5
  | decompress =>
    refine lift ?_
    unfold bodyDecompress
    refine (((hT _ (hpos s 0#32 0#32 hs)).and (bodyTdes_ends _)).mono (okQ := fun _ t => P t ∧ t.status.vTree = true) (fun _ t h => ⟨h.1, by rw [h.2]⟩) (fun _ _ _ h => h.1) (fun _ h => trivial)).andThen fun _ s1 h1 => ?_
    refine (((hR s1 h1.1).and (bodyRcnt_ends s1)).mono (okQ := fun _ t => P t ∧ t.status.vTree = true) (fun _ t h => ⟨h.1, by rw [h.2]; exact h1.2⟩) (fun _ _ _ h => h.1) (fun _ h => trivial)).andThen fun _ s2 h2 => ?_
    refine (hD s2 h2.1 h2.2).andThen fun _ s3 h3 => ?_
    exact hU s3 h3
  | clrerr => exact lift (hC s hs)
  | srst => exact hZ s hs

/-- Appends keep what storing one byte below OBUF_CAP keeps -/
theorem append_keeps {P : State → Prop} (hpush : ∀ s b, s.olen.toNat < s.cfg.obufCap → P s → P (s.pushByte b)) (b : Byte) {s : State} (hs : P s) :
    (append b s).Ends (fun _ t => P t) (fun k _ t => k = .outputOverflow ∧ P t) (fun _ => True) := by
  rcases append_cases b s with ⟨_, e⟩ | ⟨h, e⟩ <;> rw [e]
  · exact ⟨rfl, hs⟩
  · exact hpush s b h hs

theorem appendAll_keeps {P : State → Prop} (hpush : ∀ s b, s.olen.toNat < s.cfg.obufCap → P s → P (s.pushByte b)) (bs : List Byte) {s : State} (hs : P s) :
    (appendAll bs s).Ends (fun _ t => P t) (fun k _ t => k = .outputOverflow ∧ P t) (fun _ => True) := by
  induction bs generalizing s with
  | nil => exact hs
  | cons b bs ih => exact (append_keeps hpush b hs).andThen fun _ t ht => ih ht

theorem packBits_keeps {P : State → Prop} (hpush : ∀ s b, s.olen.toNat < s.cfg.obufCap → P s → P (s.pushByte b)) (bits : List Bool) (p : Partial) {s : State} (hs : P s) :
    (packBits bits p s).Ends (fun _ t => P t) (fun k _ t => k = .outputOverflow ∧ P t) (fun _ => True) := by
  induction bits generalizing p s with
  | nil => exact hs
  | cons b bits ih =>
    refine Run.Ends.andThen (okP := fun _ t => P t) ?_ fun p' t ht => ih p' ht
    unfold packBit
    split
    · exact (append_keeps hpush _ hs).andThen fun _ t ht => ht
    · exact hs

theorem packSymbols_keeps {P : State → Prop} (hpush : ∀ s b, s.olen.toNat < s.cfg.obufCap → P s → P (s.pushByte b)) (xs : List Byte) (i : Nat) (p : Partial) {s : State} (hs : P s) :
    (packSymbols xs i p s).Ends (fun _ t => P t) (fun k _ t => (k = .outputOverflow ∨ k = .noCode) ∧ P t) (fun _ => True) := by
  induction xs generalizing i p s with
  | nil => exact hs
  | cons x xs ih =>
    unfold packSymbols
    split
    · refine Run.Ends.andThen (okP := fun _ t => P t) ((packBits_keeps hpush _ p hs).mono (fun _ _ h => h) (fun _ _ _ h => ⟨.inl h.1, h.2⟩) (fun _ h => h)) fun p' t ht => ih _ p' ht
    · exact ⟨.inr rfl, hs⟩

theorem bodyPack_keeps {P : State → Prop} (hpush : ∀ s b, s.olen.toNat < s.cfg.obufCap → P s → P (s.pushByte b)) {s : State} (hs : P s) :
    (bodyPack s).Ends (fun _ t => P t) (fun k _ t => (k = .outputOverflow ∨ k = .noCode) ∧ P t) (fun _ => True) := by
  refine (packSymbols_keeps hpush s.input 0 ⟨0, 0⟩ hs).andThen fun p t ht => ?_
  unfold packFlush
  split
  · exact (append_keeps hpush _ ht).mono (fun _ _ h => h) (fun _ _ _ h => ⟨.inl h.1, h.2⟩) (fun _ h => h)
  · exact ht

theorem unpackLoop_keeps {P : State → Prop} (hpush : ∀ s b, s.olen.toNat < s.cfg.obufCap → P s → P (s.pushByte b)) (fuel : Nat) (c : Cursor) {s : State} (hs : P s) :
    (unpackLoop fuel c s).Ends (fun _ t => P t) (fun k _ t => k.ofPayload ∧ P t) (fun _ => True) := by
  induction fuel generalizing c s with
  | zero =>
    simp only [unpackLoop]
    split
    · exact ⟨.inl rfl, hs⟩
    · exact hs
  | succ fuel ih =>
    simp only [unpackLoop]
    split
    · split
      · exact ⟨.inl rfl, hs⟩
      · split
        · exact ⟨.inr (.inl rfl), hs⟩
        · split
          · exact Run.Ends.andThen (okP := fun _ t => P t) ((append_keeps hpush _ hs).mono (fun _ _ h => h) (fun _ _ _ h => ⟨.inr (.inr h.1), h.2⟩) (fun _ h => h)) fun _ t ht => ih _ ht
          · exact ih _ hs
    · exact hs

/-! ## Runs of host accesses -/

/-- One more step of a run of any machine. -/
theorem core_run_succ (M : Host.Core) (k : Nat) (s : M.State) : M.run (k + 1) s = match M.step s with
    | .next s' => M.run k s'
    | .fault r => .fault r
    | .refused r => .refused r := rfl
/-- A run whose first step gives a next state goes on from it. -/
theorem run_next {k : Nat} {s s' : State} (h : step s = .next s') : core.run (k + 1) s = core.run k s' := by
  have h' : core.step s = .next s' := h
  show Host.Core.run core (k + 1) s = Host.Core.run core k s'
  have := core_run_succ core k s
  rw [h'] at this
  exact this

/-- LOAD writes its bytes one after another (rule R109). -/
theorem run_writeBytes (bytes : List Byte) (a : Nat) (s : State) (tail : List ScriptLine)
    (hs : s.script = writeBytes a bytes ++ tail) (hcap : a + bytes.length ≤ s.cfg.ibufCap) (n : Nat) :
    ∃ m : Memory, core.run (bytes.length + n) s = core.run n { s with ibuf := m, script := tail } ∧
      (∀ k b, bytes[k]? = some b → m.read Config.freeIbufByte (a + k) = b) ∧
      (∀ c, c < a ∨ a + bytes.length ≤ c → m.read Config.freeIbufByte c = s.ibufByte c) := by
  induction bytes generalizing a s with
  | nil =>
    refine ⟨s.ibuf, ?_, by simp, fun _ _ => rfl⟩
    simp [writeBytes] at hs
    simp [← hs]
  | cons b bytes ih =>
    simp only [List.length_cons] at hcap
    simp only [writeBytes, List.cons_append] at hs
    obtain ⟨m, h1, h2, h3⟩ := ih (a + 1) { s with ibuf := s.ibuf.set a b, script := writeBytes (a + 1) bytes ++ tail } rfl (by simp; omega)
    refine ⟨m, ?_, ?_, ?_⟩
    · rw [List.length_cons, show bytes.length + 1 + n = (bytes.length + n) + 1 by omega]
      have : step s = .next { s with ibuf := s.ibuf.set a b, script := writeBytes (a + 1) bytes ++ tail } := by
        simp only [step, hs, hostMove, hostAccess]
        rw [if_pos (by omega)]
      rw [run_next this]; exact h1
    · intro k c hk
      cases k with
      | zero =>
        simp at hk; subst hk
        rw [Nat.add_zero, h3 a (by omega)]; simp [State.ibufByte]
      | succ k =>
        simp at hk
        rw [show a + (k + 1) = a + 1 + k by omega]; exact h2 k c hk
    · intro c hc
      simp only [List.length_cons] at hc
      rw [h3 c (by omega)]
      simp [State.ibufByte, Store.read_set_ne _ _ (show c ≠ a by omega)]

theorem input_eq_of_bytes {s : State} {bytes : List Byte} (hl : s.ilen.toNat = bytes.length)
    (h : ∀ k b, bytes[k]? = some b → s.ibufByte k = b) : s.input = bytes := by
  apply List.ext_getElem?
  intro k
  simp only [State.input, State.ibufSlice, hl, List.getElem?_map, Nat.zero_add]
  by_cases hk : k < bytes.length
  · rw [List.getElem?_range hk, List.getElem?_eq_getElem hk]
    simp only [Option.map_some, Option.some.injEq]
    exact h k _ (List.getElem?_eq_getElem hk)
  · rw [List.getElem?_eq_none (by simp; omega), List.getElem?_eq_none (by omega)]; rfl

/-- MOVE copies the bytes of OBUF one after another (rule R109). -/
theorem run_copyBytes (n k : Nat) (s0 s : State) (tail : List ScriptLine)
    (hs : s.script = copyBytes s0 k n ++ tail) (ho : s.obuf = s0.obuf) (hcap : k + n ≤ s.cfg.ibufCap)
    (hcap' : k + n ≤ s.cfg.obufCap) (hol : k + n ≤ s.olen.toNat) (j : Nat) :
    ∃ (m : Memory) (w : Word), core.run (2 * n + j) s = core.run j { s with ibuf := m, rdata := w, script := tail } ∧
      (∀ i, i < n → m.read Config.freeIbufByte (k + i) = s0.obufByte (k + i)) ∧
      (∀ c, c < k ∨ k + n ≤ c → m.read Config.freeIbufByte c = s.ibufByte c) := by
  induction n generalizing k s with
  | zero =>
    simp [copyBytes] at hs
    exact ⟨s.ibuf, s.rdata, by simp [← hs], by simp, fun _ _ => rfl⟩
  | succ n ih =>
    simp only [copyBytes, List.cons_append] at hs
    obtain ⟨m, w, h1, h2, h3⟩ := ih (k + 1) { s with ibuf := s.ibuf.set k (s0.obufByte k), rdata := (s.obufByte k).setWidth 32, script := copyBytes s0 (k + 1) n ++ tail } rfl ho (by simp; omega) (by simp; omega) (by simp; omega)
    refine ⟨m, w, ?_, ?_, ?_⟩
    · rw [show 2 * (n + 1) + j = (2 * n + j) + 1 + 1 by omega]
      have e1 : step s = .next { s with rdata := (s.obufByte k).setWidth 32, script := .access (.writeIbuf k (s0.obufByte k)) :: (copyBytes s0 (k + 1) n ++ tail) } := by
        simp only [step, hs, hostMove, hostAccess]
        rw [if_pos (by omega), if_pos (by omega)]; rfl
      rw [run_next e1]
      have e2 : ∀ (r : Word), step { s with rdata := r, script := .access (.writeIbuf k (s0.obufByte k)) :: (copyBytes s0 (k + 1) n ++ tail) } = .next { s with ibuf := s.ibuf.set k (s0.obufByte k), rdata := r, script := copyBytes s0 (k + 1) n ++ tail } := by
        intro r
        simp only [step, hostMove, hostAccess]
        rw [if_pos (by omega)]
      rw [run_next (e2 _)]; exact h1
    · intro i hi
      cases i with
      | zero => rw [Nat.add_zero, h3 k (by omega)]; simp [State.ibufByte]
      | succ i => rw [show k + (i + 1) = k + 1 + i by omega]; exact h2 i (by omega)
    · intro c hc
      rw [h3 c (by omega)]
      simp [State.ibufByte, Store.read_set_ne _ _ (show c ≠ k by omega)]

/-! ## Words of the observation port -/

/-- The fields of a packed NODE or TRIE word (rule R47). -/
theorem packed_bits (l : Bool) (a b : Index) (x : Byte) :
    (packedEntry l a b x).getLsbD 31 = l ∧ (packedEntry l a b x).extractLsb' 17 9 = b ∧
    (packedEntry l a b x).extractLsb' 8 9 = a ∧ (packedEntry l a b x).extractLsb' 0 8 = x ∧
    (packedEntry l a b x).extractLsb' 26 5 = 0#5 := by
  have ha := a.isLt; have hb := b.isLt; have hx := x.isLt
  set n := bitAt l 31 + b.toNat * 2 ^ 17 + a.toNat * 2 ^ 8 + x.toNat with hn
  have hlt : n < 2 ^ 32 := by cases l <;> simp [bitAt] at hn <;> omega
  have hw : (packedEntry l a b x).toNat = n := by
    simp only [packedEntry]; rw [toWord_toNat hlt]
  refine ⟨?_, ?_, ?_, ?_, ?_⟩
  · rw [BitVec.getLsbD, hw, Nat.testBit_eq_decide_div_mod_eq]
    cases l <;> simp [bitAt] at hn <;> simp <;> omega
  all_goals
    apply BitVec.eq_of_toNat_eq
    simp only [BitVec.extractLsb'_toNat, hw, Nat.shiftRight_eq_div_pow]
    cases l <;> simp [bitAt] at hn <;> simp <;> omega

theorem codeWord_fold (g : List Bool) (k : Nat) (h : g.length + k ≤ 32) (acc : Word)
    (hacc : ∀ b, b < 32 → k ≤ b → acc.getLsbD (31 - b) = false) :
    ∀ b, b < 32 → (((g.zipIdx k).foldl (fun acc bj => acc + toWord (bitAt bj.1 (31 - bj.2))) acc).getLsbD (31 - b)) =
      if b < k then acc.getLsbD (31 - b) else (g[b - k]?).getD false := by
  induction g generalizing k acc with
  | nil =>
    intro b hb
    simp only [List.zipIdx_nil, List.foldl_nil]
    split
    · rfl
    · rw [hacc b hb (by omega)]; rfl
  | cons x g ih =>
    intro b hb
    simp only [List.length_cons] at h
    simp only [List.zipIdx_cons, List.foldl_cons]
    have hadd : acc + toWord (bitAt x (31 - k)) = acc ||| toWord (bitAt x (31 - k)) := by
      apply BitVec.add_eq_or_of_and_eq_zero
      apply BitVec.eq_of_getLsbD_eq
      intro i hi
      cases x
      · simp [bitAt, toWord]
      · simp only [BitVec.getLsbD_and, bitAt, if_true, toWord, BitVec.getLsbD_zero]
        by_cases hik : i = 31 - k
        · have := hacc k (by omega) (le_refl _)
          rw [hik, this]; rfl
        · have : (BitVec.ofNat 32 (2 ^ (31 - k))).getLsbD i = false := by
            rw [BitVec.getLsbD_ofNat]
            simp [Nat.testBit_two_pow]; omega
          rw [this, Bool.and_false]
    have hbit : ∀ b, b < 32 → (acc + toWord (bitAt x (31 - k))).getLsbD (31 - b) = (acc.getLsbD (31 - b) || (x && decide (b = k))) := by
      intro b hb
      rw [hadd, BitVec.getLsbD_or]
      congr 1
      cases x
      · simp [bitAt, toWord]
      · simp only [bitAt, if_true, toWord, BitVec.getLsbD_ofNat, Nat.testBit_two_pow]
        by_cases hbk : b = k
        · subst hbk; simp; omega
        · simp [hbk]; omega
    rw [ih (k + 1) (by omega) _ (by
      intro b hb hk
      rw [hbit b hb, hacc b hb (by omega)]
      simp; omega) b hb, hbit b hb]
    by_cases h1 : b < k
    · simp [h1, show b < k + 1 by omega]; omega
    · by_cases h2 : b = k
      · subst h2
        simp [hacc b hb (le_refl _)]
      · simp [h1, show ¬ b < k + 1 by omega]
        rw [show b - k = (b - (k+1)) + 1 by omega]; simp

/-- The code bits of a CODE word (rule R47). -/
theorem codeWord_bits (bits : List Bool) (w b : Nat) (hb : b < 32) :
    (codeWord bits w).getLsbD (31 - b) = (bits[32 * w + b]?).getD false := by
  unfold codeWord
  rw [codeWord_fold _ 0 (by simp) _ (by intro b hb _; simp) b hb]
  simp [hb]

end Sys2Proof.Machine
end

