-- ==== Sys2Proof/Tests/Slice0.lean ====
section
/-! SUPPORT. The model's own tests: command words written out bit by bit, ill-formed terms refused, one or two
steps per command against the vectors of 95_test_vectors.md, and a witness for the hypotheses of every
obligation that has hypotheses. -/

namespace Sys2Proof.Tests
open Sys2Proof Sys2Proof.Machine

-- One test after another: a hundred kernel evaluations waiting at once would each hold a thread.
set_option Elab.async false

/-! ## Small states -/

/-- A buffer that holds the bytes of a list from index 0 on. -/
def mem (bytes : List Byte) : Memory := { cells := bytes.zipIdx.map fun p => (p.2, p.1), seed := 0 }

/-- A state with an input. -/
def withInput (s : State) (bytes : List Byte) : State := { s with ibuf := mem bytes, ilen := toWord bytes.length }

/-- A state with an output. -/
def withOutput (s : State) (bytes : List Byte) : State := { s with obuf := mem bytes, olen := toWord bytes.length }

/-- A state whose host is about to write a word to CMD. -/
def presenting (s : State) (w : Word) : State := { s with script := [.access (.writeReg 0 w)] }

/-- The next state, or the reset state where there is none. -/
def nextOf (o : Host.Outcome State Fault Refusal) : State :=
  match o with
  | .next t => t
  | .fault _ => State.reset
  | .refused _ => State.reset

/-- Whether there is a next state. -/
def isNext (o : Host.Outcome State Fault Refusal) : Bool :=
  match o with
  | .next _ => true
  | .fault _ => false
  | .refused _ => false

theorem next_of_isNext {o : Host.Outcome State Fault Refusal} (h : isNext o = true) : o = .next (nextOf o) := by
  cases o <;> first | rfl | cases h

/-- DONE is bit 1 of the word (rule R22). -/
theorem done_of_word {st : Status} (h : st.word.getLsbD 1 = true) : st.done = true := by
  obtain ⟨a, b, c, d, e, f, g⟩ := st
  revert h
  cases a <;> cases b <;> cases c <;> cases d <;> cases e <;> cases f <;> cases g <;> decide

/-- A command that ends in a next state, with what that state is known to hold. -/
theorem exec_meets {i : Instr} {s : State} {P : State → Prop} (h : isNext (exec i s) = true)
    (hp : P (nextOf (exec i s))) : ∃ t, exec i s = .next t ∧ P t := ⟨_, next_of_isNext h, hp⟩

/-- A command raises a fault from a state without one. -/
def raises (i : Instr) (s : State) (e : Word) : Prop :=
  s.status.err = false ∧ ∃ t, exec i s = .next t ∧ t.status.err = true ∧ t.err = e

theorem raises_of {i : Instr} {s : State} {e : Word}
    (h : (!s.status.err && isNext (exec i s) && (nextOf (exec i s)).status.err &&
      ((nextOf (exec i s)).err == e)) = true) : raises i s e := by
  simp only [Bool.and_eq_true, Bool.not_eq_true', beq_iff_eq] at h
  exact ⟨h.1.1.1, _, next_of_isNext h.1.1.2, h.1.2, h.2⟩

/-- One step that presents a command word. -/
def after (s : State) (w : Nat) : State := nextOf (step (s.withFetchWord 32 w))

/-- "aaabbc" (95_test_vectors.md, SRC1). -/
def abc : List Byte := [0x61#8, 0x61#8, 0x61#8, 0x62#8, 0x62#8, 0x63#8]

/-- SRC1's tree: Node(Leaf 0x61, Node(Leaf 0x63, Leaf 0x62)). -/
def abcTree : HuffTree := .node (.leaf 0x61#8) (.node (.leaf 0x63#8) (.leaf 0x62#8))

/-- SRC1's serialized tree. -/
def abcSer : List Byte := [0x30#8, 0x31#8, 0x61#8, 0x30#8, 0x31#8, 0x63#8, 0x31#8, 0x62#8]

/-- SRC1's container. -/
def abcBox : List Byte := abcSer ++ [0x06#8, 0#8, 0#8, 0#8, 0x1F#8, 0#8]

/-- SRC1's input after FCNT. -/
def counted : State :=
  let s := withInput State.reset abc
  { s with
    freq := { s.freq with cells := freqCells abc }
    nsym := 3#32
    status := { s.status with vFreq := true } }

/-- V-B1's arena. -/
def abcArena : List (Nat × NodeEntry) :=
  [(0, { leaf := true, sym := 0x61#8, left := 0x1FF#9, right := 0x1FF#9, freq := 3#32 }),
   (1, { leaf := true, sym := 0x62#8, left := 0x1FF#9, right := 0x1FF#9, freq := 2#32 }),
   (2, { leaf := true, sym := 0x63#8, left := 0x1FF#9, right := 0x1FF#9, freq := 1#32 }),
   (3, { leaf := false, sym := 0#8, left := 2#9, right := 1#9, freq := 3#32 }),
   (4, { leaf := false, sym := 0#8, left := 0#9, right := 3#9, freq := 6#32 })]

/-- SRC1's input after FCNT and BUILD. -/
def built : State :=
  { counted with
    node := { counted.node with cells := abcArena }
    nnode := 5#32
    root := 4#32
    status := { counted.status with vTree := true } }

/-- A state whose tree is one leaf (V-B2). -/
def oneLeaf : State :=
  { State.reset with
    node := { cells := [(0, { leaf := true, sym := 0x41#8, left := 0x1FF#9, right := 0x1FF#9, freq := 3#32 })]
              seed := 0 }
    nnode := 1#32
    status := { Status.zero with vTree := true } }

/-- A state with the code and trie tables of a tree. -/
def withTables (s : State) (t : HuffTree) : State :=
  { s with
    code := { s.code with cells := (deriveTables t).code }
    trie := { s.trie with cells := (deriveTables t).trie }
    status := { s.status with vCode := true } }

/-- SRC1's input after FCNT, BUILD and DERIVE. -/
def coded : State := withTables built abcTree

/-- A state ready to unpack `n` symbols of a tree from a payload. -/
def unpacking (t : HuffTree) (n : Nat) (bytes : List Byte) : State :=
  let s := withTables (withInput State.reset bytes) t
  { s with count := toWord n, status := { s.status with vCount := true } }

/-- Two leaves with one symbol (V-D11). -/
def twoLeaf : HuffTree := .node (.leaf 0x41#8) (.leaf 0x41#8)

/-- V-C35's container: each leaf's code once. -/
def twoLeafBox : List Byte := [0x30#8, 0x31#8, 0x41#8, 0x31#8, 0x41#8, 2#8, 0#8, 0#8, 0#8, 0x40#8]

/-- A state with a fault on record. -/
def faulted : State := State.reset.recordFault .illegalCommand 0x20#32

/-- The same state after a count of nothing. -/
def emptyCount : State := { counted with freq := { counted.freq with cells := freqCells [] } }

/-! ## Decoding: the words of rule R92, bit by bit -/

theorem test_decode_fcnt : decode 0b00000000000000000000000000000001#32 = .ok .fcnt := by decide
theorem test_decode_build : decode 0b00000000000000000000000000000010#32 = .ok .build := by decide
theorem test_decode_derive : decode 0b00000000000000000000000000000011#32 = .ok .derive := by decide
theorem test_decode_tser : decode 0b00000000000000000000000000000100#32 = .ok .tser := by decide
theorem test_decode_wcnt : decode 0b00000000000000000000000000000101#32 = .ok .wcnt := by decide
theorem test_decode_pack : decode 0b00000000000000000000000000000110#32 = .ok .pack := by decide
theorem test_decode_tdes : decode 0b00000000000000000000000000000111#32 = .ok .tdes := by decide
theorem test_decode_rcnt : decode 0b00000000000000000000000000001000#32 = .ok .rcnt := by decide
theorem test_decode_unpack : decode 0b00000000000000000000000000001001#32 = .ok .unpack := by decide
theorem test_decode_compress : decode 0b00000000000000000000000000010000#32 = .ok .compress := by decide
theorem test_decode_decompress : decode 0b00000000000000000000000000010001#32 = .ok .decompress := by decide
theorem test_decode_clrerr : decode 0b00000000000000000000000000011110#32 = .ok .clrerr := by decide
theorem test_decode_srst : decode 0b00000000000000000000000000011111#32 = .ok .srst := by decide

/-- Rule R93: an unassigned opcode and a set high bit are rejected by name. -/
theorem test_decode_rejects :
    decode 0x12#32 = .error (.unassignedOpcode 0x12#32) ∧
    decode 0b00000000000000000000000100000001#32 = .error (.nonzeroHighBits 0x101#32) := by decide

/-! ## Well-formedness: each check refuses an ill-formed term, and admits the term next to it -/

theorem test_wf_ibufCap_zero : Config.wf { ibufCap := 0, obufCap := 1 } = false := by decide
theorem test_wf_ibufCap_large : Config.wf { ibufCap := 2 ^ 32, obufCap := 1 } = false := by decide
theorem test_wf_obufCap_zero : Config.wf { ibufCap := 1, obufCap := 0 } = false := by decide
theorem test_wf_obufCap_large : Config.wf { ibufCap := 1, obufCap := 2 ^ 32 } = false := by decide
theorem test_wf_config : Config.wf { ibufCap := 1, obufCap := 2 ^ 32 - 1 } = true := by decide
theorem test_wf_writeIbuf :
    HostMove.wf Config.default64 (.writeIbuf 64 0#8) = false ∧
    HostMove.wf Config.default64 (.writeIbuf 63 0#8) = true := by decide
theorem test_wf_readIbuf :
    HostMove.wf Config.default64 (.readIbuf 64) = false ∧
    HostMove.wf Config.default64 (.readIbuf 63) = true := by decide
theorem test_wf_readObuf :
    HostMove.wf Config.default64 (.readObuf 64) = false ∧
    HostMove.wf Config.default64 (.readObuf 63) = true := by decide
theorem test_wf_load :
    ScriptLine.wf Config.default64 (.load (List.replicate 65 0#8)) = false ∧
    ScriptLine.wf Config.default64 (.load (List.replicate 64 0#8)) = true := by decide
theorem test_wf_instr : Instr.wf .compress = true := by decide

/-! ## One step of each command -/

/-- V-F1. -/
theorem test_fcnt_counts :
    (after (withInput State.reset abc) 0x01).status.word = 0x12#32 ∧
    (after (withInput State.reset abc) 0x01).nsym = 3#32 ∧
    (after (withInput State.reset abc) 0x01).freqAt 0x61 = 3#32 ∧
    (after (withInput State.reset abc) 0x01).freqAt 0x63 = 1#32 ∧
    (after (withInput State.reset abc) 0x01).freqAt 0xFF = 0#32 := by decide +kernel

/-- V-F8. -/
theorem test_fcnt_length :
    (after { State.reset with ilen := 65#32 } 0x01).status.word = 0x04#32 ∧
    (after { State.reset with ilen := 65#32 } 0x01).err = 0x07#32 ∧
    (after { State.reset with ilen := 65#32 } 0x01).errval = 0x01#32 := by decide +kernel

/-- V-B1's queue before the first round (rule R143). -/
def leaves3 : Arena :=
  { nodes := abcArena.take 3, nnode := 3, heap := [(0, 2#9), (1, 0#9), (2, 1#9)], hsize := 3 }

/-- Building from a table of counts: the counts can be computed from the input instead of looked up. -/
theorem leavesArena_of_counts {s : State} (xs : List Byte) (h : s.freq.cells = freqCells xs) :
    s.leavesArena =
      initLeaves (fun k => toWord (occurrences k xs)) (List.range 256) (Arena.start s) := by
  have key : ∀ (ks : List Nat) (A : Arena), (∀ k ∈ ks, k < 256) →
      initLeaves s.freqAt ks A = initLeaves (fun k => toWord (occurrences k xs)) ks A := by
    intro ks
    induction ks with
    | nil => intro _ _; rfl
    | cons k ks ih =>
      intro A hk
      simp only [List.mem_cons, forall_eq_or_imp] at hk
      simp only [initLeaves, freqAt_of_cells h hk.1, ih _ hk.2]
  exact key _ _ fun k hk => List.mem_range.mp hk

theorem counted_leaves : counted.leavesArena = leaves3 :=
  (leavesArena_of_counts abc rfl).trans (by decide +kernel)

/-- V-B1, rule R143. -/
theorem test_build_arena :
    ∃ t, exec .build counted = .next t ∧ t.node.cells = abcArena ∧ t.root = 4#32 ∧ t.nnode = 5#32 ∧
      t.hsize = 0#9 ∧ t.status.word = 0x32#32 := by
  have h : exec .build counted = finish counted.ipos (completing bodyBuild counted.clearDone) :=
    exec_ready rfl rfl rfl
  have e : counted.clearDone.clearTreeFlags.leavesArena = leaves3 := counted_leaves
  rw [h]
  simp only [completing, bodyBuild, e]
  rw [if_neg (by decide)]
  exact ⟨_, rfl, by decide +kernel⟩

/-- V-B8. -/
theorem test_build_empty : raises .build emptyCount 0x01#32 := by
  have h : exec .build emptyCount = finish emptyCount.ipos (completing bodyBuild emptyCount.clearDone) :=
    exec_ready rfl rfl rfl
  have e : emptyCount.clearDone.clearTreeFlags.leavesArena.nnode = 0 :=
    leavesArena_empty emptyCount fun _ hk => (freqAt_of_cells (xs := []) rfl hk).trans rfl
  refine ⟨rfl, takeFault .emptyInput 0#32 emptyCount.ipos emptyCount.clearDone.clearTreeFlags, ?_, rfl, rfl⟩
  rw [h]
  simp only [completing, bodyBuild, e, if_true, Run.andThen_raise, finish_raise]

/-- V-D1. -/
theorem test_derive_codes :
    (after built 0x03).codeAt 0x61 = { valid := true, bits := [false] } ∧
    (after built 0x03).codeAt 0x63 = { valid := true, bits := [true, false] } ∧
    (after built 0x03).codeAt 0x62 = { valid := true, bits := [true, true] } ∧
    portValue (after built 0x03) 3 2 0 = some 0x00080300#32 ∧
    portValue (after built 0x03) 2 0x62 1 = some 0xC0000000#32 := by decide +kernel

/-- V-D2. -/
theorem test_derive_oneLeaf :
    (after oneLeaf 0x03).codeAt 0x41 = { valid := true, bits := [false] } ∧
    portValue (after oneLeaf 0x03) 3 0 0 = some 0x03FE0100#32 ∧
    portValue (after oneLeaf 0x03) 3 1 0 = some 0x83FFFF41#32 := by decide +kernel

/-- V-S1. -/
theorem test_tser_bytes : (after built 0x04).output = abcSer ∧ (after built 0x04).ipos = 0#32 := by decide +kernel

/-- V-S11's fault, one byte short, with output before it. -/
theorem test_tser_overflow :
    (after { built with cfg := { ibufCap := 64, obufCap := 7 } } 0x04).err = 0x05#32 ∧
    (after { built with cfg := { ibufCap := 64, obufCap := 7 } } 0x04).olen = 0#32 := by decide +kernel

/-- Rule R205 on a length with four different bytes, least significant first (rule R61). -/
theorem test_wcnt_bytes :
    (after { State.reset with cfg := { ibufCap := 2 ^ 32 - 1, obufCap := 64 }, ilen := 0x04030201#32 } 0x05).output =
      [0x01#8, 0x02#8, 0x03#8, 0x04#8] := by decide +kernel

/-- V-P1. -/
theorem test_pack_bits :
    (after coded 0x06).output = [0x1F#8, 0x00#8] ∧ (after coded 0x06).status.word = 0x72#32 := by decide +kernel

/-- V-P46's fault: the index of the first symbol without a code. -/
theorem test_pack_noCode :
    (after (withInput coded [0x61#8, 0x62#8, 0x7A#8]) 0x06).err = 0x06#32 ∧
    (after (withInput coded [0x61#8, 0x62#8, 0x7A#8]) 0x06).errval = 2#32 := by decide +kernel

/-- V-S5. -/
theorem test_tdes_arena :
    (after (withInput State.reset abcSer) 0x07).ipos = 8#32 ∧
    (after (withInput State.reset abcSer) 0x07).nnode = 5#32 ∧
    portValue (after (withInput State.reset abcSer) 0x07) 1 0 1 = some 0x00040100#32 ∧
    portValue (after (withInput State.reset abcSer) 0x07) 1 2 1 = some 0x00080300#32 ∧
    portValue (after (withInput State.reset abcSer) 0x07) 1 4 1 = some 0x83FFFF62#32 := by decide +kernel

/-- V-S8, BAD_MARKER at index 3. -/
theorem test_tdes_badMarker :
    (after (withInput State.reset [0x30#8, 0x31#8, 0x61#8, 0x32#8, 0x31#8]) 0x07).err = 0x12#32 ∧
    (after (withInput State.reset [0x30#8, 0x31#8, 0x61#8, 0x32#8, 0x31#8]) 0x07).errval = 3#32 ∧
    (after (withInput State.reset [0x30#8, 0x31#8, 0x61#8, 0x32#8, 0x31#8]) 0x07).ipos = 0#32 := by decide +kernel

/-- Rule R206 at an offset. -/
theorem test_rcnt_value :
    (after { withInput State.reset [0xDE#8, 1#8, 2#8, 3#8, 4#8] with ipos := 1#32 } 0x08).count = 0x04030201#32 ∧
    (after { withInput State.reset [0xDE#8, 1#8, 2#8, 3#8, 4#8] with ipos := 1#32 } 0x08).ipos = 5#32 ∧
    (after { withInput State.reset [0xDE#8, 1#8, 2#8, 3#8, 4#8] with ipos := 1#32 } 0x08).status.word = 0x82#32 := by
  decide +kernel

/-- Rules R206, R249: three bytes left. -/
theorem test_rcnt_short :
    (after { withInput State.reset [0xDE#8, 1#8, 2#8, 3#8] with ipos := 1#32 } 0x08).err = 0x32#32 ∧
    (after { withInput State.reset [0xDE#8, 1#8, 2#8, 3#8] with ipos := 1#32 } 0x08).errval = 1#32 := by decide +kernel

/-- V-P21, V-P22: padding bits that are not zero are not read, and bytes after the payload are left alone. -/
theorem test_unpack_symbols :
    (after (unpacking abcTree 6 [0x1F#8, 0x7F#8]) 0x09).output = abc ∧
    (after (unpacking abcTree 6 [0x1F#8, 0x7F#8]) 0x09).ipos = 2#32 ∧
    (after (unpacking abcTree 6 [0x1F#8, 0#8, 0xAA#8, 0xBB#8]) 0x09).output = abc ∧
    (after (unpacking abcTree 6 [0x1F#8, 0#8, 0xAA#8, 0xBB#8]) 0x09).ipos = 2#32 := by decide +kernel

/-- V-P27: no extra byte when the last bit read ends a byte. -/
theorem test_unpack_wholeByte :
    (after (unpacking (.leaf 0x41#8) 8 [0#8]) 0x09).output = List.replicate 8 0x41#8 ∧
    (after (unpacking (.leaf 0x41#8) 8 [0#8]) 0x09).ipos = 1#32 := by decide +kernel

theorem output_setDone (s : State) : s.setDone.output = s.output := rfl

theorem abc_huffmanTree : huffmanTree (fun k => occurrences k abc) = some abcTree := by decide +kernel

/-- SRC1, rule R105. -/
theorem test_compress_container :
    ∃ t, exec .compress (withInput State.reset abc) = .next t ∧ t.output = abcBox ∧
      t.status.word = 0x72#32 := by
  have h : exec .compress (withInput State.reset abc) =
      finish 0#32 (completing bodyCompress (withInput State.reset abc).clearDone) := exec_ready rfl rfl rfl
  obtain ⟨T, u, hT, -, -, hb, hu⟩ := bodyCompress_ok (withInput State.reset abc).clearDone (by decide)
  have hin : (withInput State.reset abc).clearDone.input = abc := by decide +kernel
  rw [hin] at hT hb
  rw [abc_huffmanTree, Option.some.injEq] at hT
  subst hT
  have hc : container abcTree abc = abcBox := by decide +kernel
  have h0 : u.olen = 0#32 := by rw [hu]
  have hcap : u.cfg = Config.default64 := by rw [hu]; rfl
  rw [hc] at hb
  rcases appendAll_cases (s := u) (by rw [hcap]; decide) abcBox with ⟨-, e⟩ | ⟨⟨-, hf⟩, -⟩
  · refine ⟨(u.pushAll abcBox).setDone, ?_, ?_, ?_⟩
    · rw [h]
      simp only [completing, hb, e, Run.andThen_ok, finish_ok]
    · rw [output_setDone]
      exact output_pushAll h0 (by decide)
    · have hp := sameButOutput_pushAll u abcBox
      simp only [SameButOutput] at hp
      generalize u.pushAll abcBox = v at hp
      rw [hp, hu]
      rfl
  · rw [h0, hcap] at hf
    exact absurd hf (by decide)

/-- SRC1; V-C35, a symbol at two leaves. -/
theorem test_decompress_container :
    (after (withInput State.reset twoLeafBox) 0x11).output = [0x41#8, 0x41#8] ∧
    (after (withInput State.reset twoLeafBox) 0x11).ipos = 10#32 ∧
    (after (withInput State.reset abcBox) 0x11).output = abc ∧
    (after (withInput State.reset abcBox) 0x11).ipos = 14#32 ∧
    (after (withInput State.reset abcBox) 0x11).status.word = 0xE2#32 := by decide +kernel

/-- V-P40: NO_MATCH; the symbol already emitted is discarded and IPOS restored. -/
theorem test_decompress_noMatch :
    (after (withInput State.reset [0x31#8, 0x41#8, 3#8, 0#8, 0#8, 0#8, 0x40#8]) 0x11).err = 0x52#32 ∧
    (after (withInput State.reset [0x31#8, 0x41#8, 3#8, 0#8, 0#8, 0#8, 0x40#8]) 0x11).errval = 6#32 ∧
    (after (withInput State.reset [0x31#8, 0x41#8, 3#8, 0#8, 0#8, 0#8, 0x40#8]) 0x11).olen = 0#32 ∧
    (after (withInput State.reset [0x31#8, 0x41#8, 3#8, 0#8, 0#8, 0#8, 0x40#8]) 0x11).count = 3#32 := by
  decide +kernel

/-- Rule R229: the valid flags stay. -/
theorem test_clrerr_record :
    (after (coded.recordFault .noCode 2#32) 0x1E).status.word = 0x72#32 ∧
    (after (coded.recordFault .noCode 2#32) 0x1E).err = 0#32 ∧
    (after (coded.recordFault .noCode 2#32) 0x1E).errval = 0#32 := by decide +kernel

/-- Rule R230: registers are 0, IBUF's bytes stay. -/
theorem test_srst_registers :
    (after (coded.recordFault .noCode 2#32) 0x1F).status.word = 0#32 ∧
    (after (coded.recordFault .noCode 2#32) 0x1F).ilen = 0#32 ∧
    (after (coded.recordFault .noCode 2#32) 0x1F).nnode = 0#32 ∧
    (after (coded.recordFault .noCode 2#32) 0x1F).ibufByte 5 = 0x63#8 := by decide +kernel

/-- EXPECT of a register that holds (rules R109, R45), and of OBUF while OLEN > OBUF_CAP (log 8). -/
theorem test_expect_lines :
    step { State.reset with script := [.expect (.reg 1 0#32)] } = .next State.reset ∧
    step { State.reset with olen := 65#32, script := [.expect (.obuf [])] } = .fault (.noSuchObufByte 64) :=
  ⟨rfl, rfl⟩

/-- EXPECT of a FREQ entry while V_FREQ = 0 draws a free value (log 9); of a register it draws none. -/
theorem test_expect_draws :
    (State.reset.afterCheck (.table 0 0 0 0#32)).fresh = 2 ∧
    (State.reset.afterCheck (.reg 1 0#32)).fresh = 1 := by decide

/-! ## Witnesses: states and operands that meet the hypotheses of each obligation -/

/-- An indexed condition on the bytes of a list, from the same condition index by index. -/
theorem at_each {l : List Byte} {P : Nat → Byte → Prop} (h : ∀ k, k < l.length → P k (l.getD k 0#8)) :
    ∀ (k : Nat) (b : Byte), l[k]? = some b → P k b := by
  intro k b hk
  have hlt : k < l.length := by
    by_contra hn
    rw [List.getElem?_eq_none (by omega)] at hk
    cases hk
  have h' := h k hlt
  rw [List.getD_eq_getElem?_getD, hk] at h'
  exact h'

theorem witness_StepRunsDecodedCommand :
    (presenting State.reset 0x01#32).script = .access (.writeReg 0 0x01#32) :: [] ∧
    decode 0x01#32 = .ok .fcnt := ⟨rfl, by decide⟩

theorem witness_IllegalWordRaises :
    (∀ i : Instr, 0x106#32 ≠ encode i) ∧ (∀ i : Instr, 0x0A#32 ≠ encode i) ∧ (∀ i : Instr, 0#32 ≠ encode i) ∧
    State.reset.status.err = false ∧ faulted.status.err = true := by
  refine ⟨fun i => ?_, fun i => ?_, fun i => ?_, rfl, rfl⟩ <;> cases i <;> decide

theorem faulted_recordOk : faulted.RecordOk :=
  ⟨by decide, fun _ => ⟨.illegalCommand, by decide⟩, by decide, by decide, by decide⟩

theorem witness_HostRegisterAccess :
    11 ≤ 11 ∧ 1 ∈ [1, 2, 3, 7, 8, 9, 10] ∧ 10 ∈ [1, 2, 3, 7, 8, 9, 10] ∧ 8 ≤ 8 ∧ faulted.RecordOk :=
  ⟨by decide, by decide, by decide, by decide, faulted_recordOk⟩

theorem witness_StatusWordBits : 8 ≤ 8 := by decide

theorem witness_HostBufferAccess :
    63 < State.reset.cfg.ibufCap ∧ 63 < (withOutput State.reset (List.replicate 64 0#8)).cfg.obufCap ∧
    63 < (withOutput State.reset (List.replicate 64 0#8)).olen.toNat ∧
    (HostMove.readObuf 63) ∈ [HostMove.readReg 1, .readIbuf 63, .readObuf 63, .readTable 0 0 0] ∧
    isNext (hostMove (.readObuf 63) (withOutput State.reset (List.replicate 64 0#8))) = true := by
  decide +kernel

theorem witness_ObservationPortWords :
    (counted.status.vFreq = true ∧ 255 < 256) ∧
    (built.status.vTree = true ∧ 4 < built.nnode.toNat ∧
      built.node.get? 4 =
        some { leaf := false, sym := 0#8, left := 0#9, right := 3#9, freq := 6#32 }) ∧
    (coded.status.vCode = true ∧ 0x61 < 256 ∧ (coded.codeAt 0x61).bits.length ≤ 255 ∧ 7 < 8) ∧
    (coded.status.vCode = true ∧ 4 < coded.trieInUse) ∧
    (1 ≤ 1 ∧ 2 ≤ 2 ∧ 9 ≤ 9 ∧ 4 ≤ 4) := by decide +kernel

theorem witness_LoadLineFillsInput :
    ({ State.reset with script := [.load (List.replicate 64 7#8)] } : State).script =
      .load (List.replicate 64 7#8) :: [] ∧
    State.reset.cfg.wf = true ∧ (List.replicate 64 7#8).length ≤ State.reset.cfg.ibufCap := by decide

theorem witness_MoveLineCopiesOutput :
    ({ withOutput State.reset (List.replicate 64 7#8) with script := [.move] } : State).script = .move :: [] ∧
    (withOutput State.reset (List.replicate 64 7#8)).olen.toNat ≤ State.reset.cfg.ibufCap ∧
    (withOutput State.reset (List.replicate 64 7#8)).olen.toNat ≤ State.reset.cfg.obufCap := by decide

theorem witness_StickyFaultIgnoresCommands :
    faulted.status.err = true ∧ Instr.fcnt ≠ .clrerr ∧ Instr.fcnt ≠ .srst ∧
    0x1D#32 ≠ 0x0000001E#32 ∧ 0x20#32 ≠ 0x0000001F#32 ∧ (∀ w : Word, HostMove.writeReg 4 7#32 ≠ .writeReg 0 w) ∧
    HostMove.writeReg 4 7#32 ≠ .hwReset ∧ isNext (hostMove (.writeReg 4 7#32) faulted) = true ∧
    63 < faulted.cfg.ibufCap :=
  ⟨rfl, by decide, by decide, by decide, by decide, by simp, by simp, rfl, by decide⟩

theorem witness_MissingFlagRaisesSequenceError :
    State.reset.status.err = false ∧ State.reset.status.vFreq = false ∧ State.reset.status.vTree = false ∧
    State.reset.status.vCode = false ∧
    (coded.status.err = false ∧ coded.status.vCode = true ∧ coded.status.vCount = false) ∧
    raises .unpack coded 0x04#32 :=
  ⟨rfl, rfl, rfl, rfl, ⟨rfl, rfl, rfl⟩, raises_of (by decide +kernel)⟩

theorem witness_BadLengthRaisesLengthError :
    ((unpacking abcTree 1 []).status.err = false ∧ (unpacking abcTree 1 []).status.vCode = true ∧
      (unpacking abcTree 1 []).status.vCount = true) ∧
    (({ unpacking abcTree 1 [] with ilen := 65#32 } : State).cfg.ibufCap < 65 ∧
      Instr.pack ∈ [Instr.fcnt, .wcnt, .pack, .compress, .decompress, .tdes, .rcnt, .unpack]) ∧
    (({ unpacking abcTree 1 [] with ipos := 1#32 } : State).ilen.toNat < 1 ∧
      Instr.unpack ∈ [Instr.tdes, .rcnt, .unpack]) ∧
    raises .fcnt { State.reset with ilen := 65#32 } 0x07#32 :=
  ⟨by decide, by decide, by decide, raises_of (by decide +kernel)⟩

theorem witness_PreExecutionCheckOrder :
    (State.reset.status.vCode = false ∧ ({ State.reset with ilen := 65#32 } : State).cfg.ibufCap < 65 ∧
      State.reset.status.err = false) ∧
    (faulted.status.vCode = false ∧ ({ faulted with ilen := 65#32 } : State).cfg.ibufCap < 65 ∧
      faulted.status.err = true) ∧
    (presenting { State.reset with ilen := 65#32 } 0x106#32).script = .access (.writeReg 0 0x106#32) :: [] := by
  decide

theorem witness_PreExecutionFaultChangesOnlyRecord :
    State.reset.status.err = false ∧
    (∃ t, hostMove (.writeReg 0 0x02#32) State.reset = .next t ∧ t.status.err = true ∧ errCode t.err = 4) ∧
    (∃ t, hostMove (.writeReg 0 0x20#32) State.reset = .next t ∧ t.status.err = true ∧ errCode t.err = 3) ∧
    ∃ t, hostMove (.writeReg 0 0x01#32) { State.reset with ilen := 65#32 } = .next t ∧
      t.status.err = true ∧ errCode t.err = 7 :=
  ⟨rfl, ⟨_, rfl, rfl, by decide⟩, ⟨_, rfl, rfl, by decide⟩, ⟨_, rfl, rfl, by decide⟩⟩

/-- The same state on an instance whose OBUF holds one byte. -/
def tight (s : State) : State := { s with cfg := { ibufCap := 1024, obufCap := 1 } }

/-- The same state with an input longer than IBUF. -/
def tooLong (s : State) : State := { s with ilen := 2000#32 }

theorem witness_ExecutionFaultDiscardsOutput :
    raises .build emptyCount 0x01#32 ∧ raises .tdes State.reset 0x22#32 ∧ raises .rcnt State.reset 0x32#32 ∧
    raises .tser (tight built) 0x05#32 ∧ raises .pack (withInput coded [0x7A#8]) 0x06#32 ∧
    errCode 0x01#32 = 1 ∧ errCode 0x32#32 = 2 ∧ errCode 0x05#32 = 5 ∧ errCode 0x06#32 = 6 := by
  refine ⟨test_build_empty, raises_of ?_, raises_of ?_, raises_of ?_, raises_of ?_, ?_, ?_, ?_, ?_⟩ <;>
    decide +kernel

/-- Faults of rule R255's matrix, in every row that has one. -/
theorem witness_FaultMatrix :
    raises .fcnt (tooLong State.reset) 0x07#32 ∧ raises .build State.reset 0x04#32 ∧
    raises .derive State.reset 0x04#32 ∧ raises .tser State.reset 0x04#32 ∧
    raises .wcnt (tooLong State.reset) 0x07#32 ∧ raises .wcnt (tight State.reset) 0x05#32 ∧
    raises .pack State.reset 0x04#32 ∧ raises .pack (tooLong coded) 0x07#32 ∧
    raises .pack (tight coded) 0x05#32 ∧ raises .tdes (tooLong State.reset) 0x07#32 ∧
    raises .tdes (withInput State.reset [0x32#8]) 0x12#32 ∧ raises .rcnt (tooLong State.reset) 0x07#32 := by
  refine ⟨raises_of ?_, raises_of ?_, raises_of ?_, raises_of ?_, raises_of ?_, raises_of ?_, raises_of ?_,
    raises_of ?_, raises_of ?_, raises_of ?_, raises_of ?_, raises_of ?_⟩ <;> decide +kernel

theorem witness_FaultMatrix_payload :
    raises .unpack State.reset 0x04#32 ∧ raises .unpack (tooLong (unpacking abcTree 6 [])) 0x07#32 ∧
    raises .unpack (unpacking abcTree 6 []) 0x42#32 ∧
    raises .unpack (unpacking (.leaf 0x41#8) 1 [0x80#8]) 0x52#32 ∧
    raises .unpack (tight (unpacking abcTree 6 [0x1F#8, 0#8])) 0x05#32 ∧
    raises .compress (tooLong State.reset) 0x07#32 ∧
    raises .decompress (tooLong State.reset) 0x07#32 ∧
    raises .decompress (withInput State.reset [0x32#8]) 0x12#32 ∧ raises .decompress State.reset 0x22#32 ∧
    raises .decompress (withInput State.reset abcSer) 0x32#32 ∧
    raises .decompress (withInput State.reset (abcBox.take 12)) 0x42#32 ∧
    raises .decompress (withInput State.reset [0x31#8, 0x41#8, 1#8, 0#8, 0#8, 0#8, 0x80#8]) 0x52#32 ∧
    raises .decompress (tight (withInput State.reset abcBox)) 0x05#32 := by
  refine ⟨raises_of ?_, raises_of ?_, raises_of ?_, raises_of ?_, raises_of ?_, raises_of ?_, raises_of ?_,
    raises_of ?_, raises_of ?_, raises_of ?_, raises_of ?_, raises_of ?_, raises_of ?_⟩ <;> decide +kernel

theorem witness_CommandsReportAndKeepInput :
    (∃ t, exec .fcnt (withInput State.reset abc) = .next t ∧ True) ∧
    (withInput State.reset abc).status.err = false ∧ Instr.fcnt ≠ .srst :=
  ⟨exec_meets (by decide +kernel) trivial, rfl, by decide⟩

theorem witness_FcntCountsSymbols :
    (withInput State.reset (List.replicate 64 7#8)).status.err = false ∧
    (withInput State.reset (List.replicate 64 7#8)).ilen.toNat ≤ State.reset.cfg.ibufCap ∧ 255 < 256 := by decide

theorem witness_FcntCountsAddUp :
    State.reset.status.err = false ∧ (withInput State.reset abc).ilen.toNat ≤ State.reset.cfg.ibufCap ∧
    ∃ t, exec .fcnt (withInput State.reset abc) = .next t ∧ True :=
  ⟨rfl, by decide, exec_meets (by decide +kernel) trivial⟩

theorem witness_FcntOnEmptyInput : built.status.err = false ∧ ({ built with ilen := 0#32 } : State).ilen = 0#32 := by
  decide

theorem counted_meets_build :
    counted.status.err = false ∧ counted.status.vFreq = true ∧
    ((List.range 256).map fun k => (counted.freqAt k).toNat).sum < 2 ^ 32 := by
  have h : ((List.range 256).map fun k => (counted.freqAt k).toNat) =
      (List.range 256).map fun k => occurrences k abc := by
    apply List.map_congr_left
    intro k hk
    rw [freqAt_of_cells (xs := abc) rfl (List.mem_range.mp hk)]
    exact toWord_toNat (Nat.lt_of_le_of_lt (occurrences_le k abc) (by decide))
  rw [h, sum_occurrences]
  decide

theorem witness_BuildMakesHuffmanTree :
    (counted.status.err = false ∧ counted.status.vFreq = true ∧
      ((List.range 256).map fun k => (counted.freqAt k).toNat).sum < 2 ^ 32) ∧
    (∃ k : Nat, k < 256 ∧ counted.freqAt k ≠ 0#32) ∧
    (buildEntries fun k => occurrences k abc) = abcArena.map Prod.snd :=
  ⟨counted_meets_build, ⟨0x61, by decide +kernel⟩, by decide +kernel⟩

theorem counted_present : [0x61, 0x62, 0x63] = (List.range 256).filter fun k => counted.freqAt k != 0#32 := by
  rw [List.filter_congr (q := fun k => occurrences k abc != 0)]
  · decide +kernel
  · intro k hk
    rw [freqAt_of_cells (xs := abc) rfl (List.mem_range.mp hk), Bool.eq_iff_iff]
    have := toWord_toNat (Nat.lt_of_le_of_lt (occurrences_le k abc) (by decide))
    simp [BitVec.toNat_eq, this]

theorem counted_builds : ∃ t, exec .build counted = .next t ∧ t.status.done = true := by
  obtain ⟨t, h, -, -, -, -, hw⟩ := test_build_arena
  exact ⟨t, h, done_of_word (by rw [hw]; decide)⟩

/-- V-B1: a present symbol, an internal entry, and the tie of two equal frequencies that the lower index wins. -/
theorem witness_BuildTreeCarriesSymbols :
    (counted.status.err = false ∧ counted.status.vFreq = true ∧
      ((List.range 256).map fun k => (counted.freqAt k).toNat).sum < 2 ^ 32) ∧
    (∃ t, exec .build counted = .next t ∧ t.status.done = true) ∧
    [0x61, 0x62, 0x63] = ((List.range 256).filter fun k => counted.freqAt k != 0#32) ∧
    [0x61, 0x62, 0x63][2]? = some 0x63 ∧
    lookupCell abcArena 2 =
      some { leaf := true, sym := 0x63#8, left := 0x1FF#9, right := 0x1FF#9, freq := 1#32 } ∧
    lookupCell abcArena 3 =
      some { leaf := false, sym := 0#8, left := 2#9, right := 1#9, freq := 3#32 } ∧
    lookupCell abcArena 4 =
      some { leaf := false, sym := 0#8, left := 0#9, right := 3#9, freq := 6#32 } ∧
    lookupCell abcArena 0 =
      some { leaf := true, sym := 0x61#8, left := 0x1FF#9, right := 0x1FF#9, freq := 3#32 } :=
  ⟨counted_meets_build, counted_builds, counted_present, by decide⟩

theorem witness_BuildOnEmptyTable :
    emptyCount.status.err = false ∧ emptyCount.status.vFreq = true ∧
    ∀ k : Nat, k < 256 → emptyCount.freqAt k = 0#32 :=
  ⟨rfl, rfl, fun _ hk => (freqAt_of_cells (xs := []) rfl hk).trans rfl⟩

theorem witness_BuildDependsOnlyOnFreq :
    counted.status.err = false ∧ built.status.err = false ∧
    (∀ k : Nat, k < 256 → counted.freqAt k = built.freqAt k) ∧
    counted.status.vFreq = true ∧ built.status.vFreq = true ∧
    (∃ t, exec .build counted = .next t ∧ t.status.done = true) ∧ ∃ t, exec .build built = .next t ∧ True := by
  refine ⟨rfl, rfl, fun _ _ => rfl, rfl, rfl, counted_builds, ?_⟩
  have h : exec .build built = finish built.ipos (completing bodyBuild built.clearDone) := exec_ready rfl rfl rfl
  have e : built.clearDone.clearTreeFlags.leavesArena = leaves3 := counted_leaves
  rw [h]
  simp only [completing, bodyBuild, e]
  rw [if_neg (by decide)]
  exact ⟨_, rfl, trivial⟩

theorem leaves3_ordered : leaves3.heapOrdered := by
  have h : ∀ p, p < 3 → 0 < p →
      leaves3.less (leaves3.heapAt p) (leaves3.heapAt ((p - 1) / 2)) = false := by decide
  exact fun p h0 hp => h p hp h0

theorem witness_HeapInsertKeepsOrder : leaves3.heapOrdered ∧ leaves3.hsize < 256 :=
  ⟨leaves3_ordered, by decide⟩

theorem witness_HeapExtractTakesMinimum :
    leaves3.heapOrdered ∧ 1 ≤ leaves3.hsize ∧ leaves3.hsize ≤ 256 ∧
    2#9 ∈ leaves3.queue ∧ 0#9 ∈ leaves3.queue := ⟨leaves3_ordered, by decide⟩

theorem witness_DeriveMakesCodeTable :
    built.status.err = false ∧ built.status.vTree = true ∧ built.tree? = some abcTree ∧ abcTree.size ≤ 511 ∧
    abcTree.symbols.Nodup ∧ ([true, false], 0x63#8) ∈ abcTree.codeTable ∧ 2 ≤ abcTree.leaves ∧
    (trieEntries abcTree 0)[0]? = some { leaf := false, sym := 0#8, c0 := 1#9, c1 := 2#9 } ∧
    (trieEntries abcTree 0)[2]? = some { leaf := false, sym := 0#8, c0 := 3#9, c1 := 4#9 } ∧
    (trieEntries abcTree 0)[4]? = some { leaf := true, sym := 0x62#8, c0 := 0x1FF#9, c1 := 0x1FF#9 } := by
  decide +kernel

/-- A tree with a repeated symbol (V-D11). -/
def twice : State :=
  { State.reset with
    node := { cells := [(0, desNode 1#9 2#9), (1, desLeaf 0x41#8), (2, desLeaf 0x41#8)], seed := 0 }
    nnode := 3#32
    status := { Status.zero with vTree := true } }

theorem witness_DeriveCornerCases :
    (oneLeaf.status.err = false ∧ oneLeaf.status.vTree = true ∧ oneLeaf.tree? = some (.leaf 0x41#8)) ∧
    (twice.status.err = false ∧ twice.status.vTree = true ∧
      twice.tree? = some twoLeaf ∧
      twoLeaf.codes =
        [([false], 0x41#8)] ++ ([true], 0x41#8) :: [] ∧
      ∀ p, p ∈ ([] : List (List Bool × Byte)) → p.2 ≠ 0x41#8) := by decide +kernel

/-- SRC1's tree, and a tree of two leaves with one symbol. -/
theorem witness_CodesPrefixFree :
    (built.status.err = false ∧ built.status.vTree = true ∧
      built.tree? = some (.node (.leaf 0x61#8) (.node (.leaf 0x63#8) (.leaf 0x62#8))) ∧ abcTree.size ≤ 511) ∧
    ((after built 0x03).codeAt 0x61).valid = true ∧ ((after built 0x03).codeAt 0x62).valid = true ∧
    (twice.status.err = false ∧ twice.status.vTree = true ∧
      twice.tree? = some (.node (.leaf 0x41#8) (.leaf 0x41#8))) ∧
    ([false], 0x61#8) ∈ abcTree.codes ∧ ([true, true], 0x62#8) ∈ abcTree.codes := by decide +kernel

theorem witness_TserAppendsTree :
    built.status.err = false ∧ built.status.vTree = true ∧ built.tree? = some abcTree ∧ built.cfg.wf = true ∧
    ({ built with olen := 56#32 } : State).olen.toNat + (3 * abcTree.leaves - 1) ≤ built.cfg.obufCap := by
  decide +kernel

theorem witness_TserLengthAndOverflow :
    built.status.err = false ∧ built.status.vTree = true ∧ built.tree? = some abcTree ∧ built.cfg.wf = true ∧
    ∃ t, exec .tser { built with olen := 57#32 } = .next t ∧ t.status.err = true :=
  ⟨rfl, rfl, by decide +kernel, by decide, exec_meets (by decide +kernel) (by decide +kernel)⟩

theorem witness_SerializationUniqueParse : ser abcTree <+: ser abcTree := List.prefix_rfl

theorem witness_TdesRebuildsTree :
    State.reset.status.err = false ∧ (withInput State.reset abcSer).ilen.toNat ≤ State.reset.cfg.ibufCap ∧
    abcTree.size ≤ 511 ∧
    0 + (ser abcTree).length ≤ (withInput State.reset abcSer).ilen.toNat ∧
    (∀ (k : Nat) (b : Byte), (ser abcTree)[k]? = some b → (withInput State.reset abcSer).ibufByte (0 + k) = b) ∧
    (preorderEntries abcTree 0)[4]? =
      some { leaf := true, sym := 0x62#8, left := 0x1FF#9, right := 0x1FF#9, freq := 0#32 } :=
  ⟨rfl, by decide, by decide, by decide, at_each (by decide +kernel), by decide +kernel⟩

/-- Rule R171 on Node(Node(a, b), c): the right children are 4 and 3. -/
theorem test_preorder_right :
    (preorderEntries (.node (.node (.leaf 0x61#8) (.leaf 0x62#8)) (.leaf 0x63#8)) 0).map (fun e => (e.left, e.right)) =
      [(1#9, 4#9), (2#9, 3#9), (0x1FF#9, 0x1FF#9), (0x1FF#9, 0x1FF#9), (0x1FF#9, 0x1FF#9)] := by decide +kernel

theorem witness_TdesOnTruncatedTree :
    abcTree.size ≤ 511 ∧
    (∀ n : Nat, n < 8 →
      (withInput State.reset (abcSer.take n)).status.err = false ∧
      (withInput State.reset (abcSer.take n)).ilen.toNat ≤ State.reset.cfg.ibufCap ∧
      0 ≤ (withInput State.reset (abcSer.take n)).ilen.toNat ∧
      (withInput State.reset (abcSer.take n)).ilen.toNat < 0 + (ser abcTree).length) ∧
    ∀ (k : Nat) (b : Byte), 0 + k < (withInput State.reset (abcSer.take 7)).ilen.toNat →
      (ser abcTree)[k]? = some b → (withInput State.reset (abcSer.take 7)).ibufByte (0 + k) = b :=
  ⟨by decide, by decide +kernel, fun k b hk hb =>
    at_each (l := ser abcTree)
      (P := fun k b => 0 + k < 7 → (withInput State.reset (abcSer.take 7)).ibufByte (0 + k) = b)
      (by decide +kernel) k b hb hk⟩

/-- A state of an instance with room for 1,024 bytes, its input the bytes of a list. -/
def stream (bytes : List Byte) : State :=
  { State.reset with
    cfg := { ibufCap := 1024, obufCap := 64 }
    ibuf := { cells := tabulate bytes.length fun k => bytes.getD k 0#8, seed := 0 }
    ilen := toWord bytes.length }

theorem stream_byte {bytes : List Byte} {k : Nat} {b : Byte} (h : bytes[k]? = some b) :
    (stream bytes).ibufByte (0 + k) = b := by
  have hk : k < bytes.length := by
    by_contra hn
    rw [List.getElem?_eq_none (by omega)] at h; cases h
  have hg : (stream bytes).ibuf.get? (0 + k) = some (bytes.getD k 0#8) := by
    show lookupCell (tabulate bytes.length fun k => bytes.getD k 0#8) (0 + k) = _
    rw [lookupCell_tabulate, Nat.zero_add, if_pos hk]
  have := Store.read_of_get? (free := Config.freeIbufByte) hg
  rw [List.getD_eq_getElem?_getD, h] at this
  exact this

/-- The bytes of records, then one more. -/
theorem stream_records (rs : List TreeRecord) (b : Byte) (tail : List Byte) :
    (∀ (k : Nat) (c : Byte), (recordBytes rs)[k]? = some c →
      (stream (recordBytes rs ++ b :: tail)).ibufByte (0 + k) = c) ∧
    (stream (recordBytes rs ++ b :: tail)).ibufByte (0 + (recordBytes rs).length) = b := by
  refine ⟨fun k c hk => stream_byte ?_, stream_byte ?_⟩
  · rw [List.getElem?_append_left]
    · exact hk
    · by_contra hn
      rw [List.getElem?_eq_none (by omega)] at hk; cases hk
  · rw [List.getElem?_append_right le_rfl, Nat.sub_self]; rfl

/-- 511 internal markers in a row: V-S8's "EOS is checked before the node limit". -/
def deep : List TreeRecord := List.replicate 511 .internal

theorem deep_unfinished : deep.length = 511 ∧ 0 < treesToCome 1 deep ∧ (recordBytes deep).length = 511 := by
  decide +kernel

/-- V-S8: 511 internal markers and the end; an internal marker, a leaf marker and the end. -/
theorem witness_TdesOnTruncatedTree_records :
    (State.reset.status.err = false ∧ (stream (recordBytes deep)).ilen.toNat ≤ 1024 ∧ 0 < treesToCome 1 deep ∧
      (∀ (k : Nat) (b : Byte), (recordBytes deep)[k]? = some b →
        (stream (recordBytes deep)).ibufByte (0 + k) = b) ∧
      deep.length ≤ 511 ∧ (stream (recordBytes deep)).ilen.toNat = 0 + (recordBytes deep).length) ∧
    (0 < treesToCome 1 [.internal] ∧ (stream [0x30#8, 0x31#8]).ilen.toNat = 0 + (recordBytes [.internal]).length + 1 ∧
      (stream [0x30#8, 0x31#8]).ibufByte (0 + (recordBytes [.internal]).length) = 0x31#8) :=
  ⟨⟨rfl, by decide +kernel, deep_unfinished.2.1, fun _ _ h => stream_byte h, deep_unfinished.1.le,
      by decide +kernel⟩,
    by decide, by decide +kernel, stream_byte rfl⟩

/-- Marker positions: the first; the left child's; the right child's (V-S8, index 3); nested; after 511 internal
markers (V-S8, index 511). -/
theorem witness_TdesOnBadMarker :
    ∀ rs ∈ [[], [.internal], [.internal, .leaf 0x61#8], [.internal, .internal, .leaf 0x61#8, .internal], deep],
      (stream (recordBytes rs ++ [0x55#8])).status.err = false ∧
      (stream (recordBytes rs ++ [0x55#8])).ilen.toNat ≤ (stream (recordBytes rs ++ [0x55#8])).cfg.ibufCap ∧
      rs.length ≤ 511 ∧ 0 < treesToCome 1 rs ∧
      (stream (recordBytes rs ++ [0x55#8])).ipos.toNat + (recordBytes rs).length <
        (stream (recordBytes rs ++ [0x55#8])).ilen.toNat ∧
      (∀ (k : Nat) (b : Byte), (recordBytes rs)[k]? = some b →
        (stream (recordBytes rs ++ [0x55#8])).ibufByte (0 + k) = b) ∧
      (stream (recordBytes rs ++ [0x55#8])).ibufByte (0 + (recordBytes rs).length) = 0x55#8 := by
  have key : ∀ rs ∈ [[], [.internal], [.internal, .leaf 0x61#8], [.internal, .internal, .leaf 0x61#8, .internal], deep],
      (stream (recordBytes rs ++ [0x55#8])).ilen.toNat ≤ 1024 ∧ rs.length ≤ 511 ∧ 0 < treesToCome 1 rs ∧
      0 + (recordBytes rs).length < (stream (recordBytes rs ++ [0x55#8])).ilen.toNat := by decide +kernel
  intro rs hrs
  obtain ⟨h1, h2, h3, h4⟩ := key rs hrs
  exact ⟨rfl, h1, h2, h3, h4, stream_records rs 0x55#8 []⟩

/-- A tree of `n` internal nodes, each the left child of the one above: `n` internal markers, then n + 1 leaves. -/
def comb : (n : Nat) → HuffTree
  | 0 => .leaf 0x41#8
  | n + 1 => .node (comb n) (.leaf 0x41#8)

/-- V-S8: 512 internal markers, ERRVAL 511; 256 internal markers and 257 leaf records (770 bytes), ERRVAL 766. -/
theorem witness_TdesOnTooLargeTree :
    (State.reset.status.err = false ∧ (stream (recordBytes deep ++ [0x30#8])).ilen.toNat ≤ 1024 ∧
      deep.length = 511 ∧ 0 < treesToCome 1 deep ∧
      0 + (recordBytes deep).length < (stream (recordBytes deep ++ [0x30#8])).ilen.toNat ∧
      (∀ (k : Nat) (b : Byte), (recordBytes deep)[k]? = some b →
        (stream (recordBytes deep ++ [0x30#8])).ibufByte (0 + k) = b) ∧
      (stream (recordBytes deep ++ [0x30#8])).ibufByte (0 + (recordBytes deep).length) = 0x30#8 ∧
      0 + (recordBytes deep).length = 511) ∧
    ((stream (ser (comb 256))).ilen.toNat ≤ 1024 ∧ 511 < (comb 256).size ∧
      0 + (ser (comb 256)).length ≤ (stream (ser (comb 256))).ilen.toNat ∧
      (∀ (k : Nat) (b : Byte), (ser (comb 256))[k]? = some b → (stream (ser (comb 256))).ibufByte (0 + k) = b) ∧
      (ser (comb 256)).length = 770 ∧ 0 + (recordBytes ((comb 256).records.take 511)).length = 766) :=
  ⟨⟨rfl, by decide +kernel, deep_unfinished.1, deep_unfinished.2.1, by decide +kernel,
      (stream_records deep _ _).1, (stream_records deep _ _).2, by decide +kernel⟩,
    by decide +kernel, by decide +kernel, by decide +kernel, fun _ _ h => stream_byte h, by decide +kernel,
    by decide +kernel⟩

theorem witness_WcntAppendsCount :
    State.reset.status.err = false ∧ State.reset.ilen.toNat ≤ State.reset.cfg.ibufCap ∧
    State.reset.cfg.wf = true ∧
    ({ State.reset with olen := 60#32 } : State).olen.toNat + 4 ≤ State.reset.cfg.obufCap ∧
    State.reset.cfg.obufCap < ({ State.reset with olen := 61#32 } : State).olen.toNat + 4 := by decide

theorem witness_RcntReadsCount :
    State.reset.status.err = false ∧
    (withInput State.reset [6#8, 0#8, 0#8, 0#8]).ilen.toNat ≤ State.reset.cfg.ibufCap ∧
    0 + 4 ≤ (withInput State.reset [6#8, 0#8, 0#8, 0#8]).ilen.toNat := by decide

theorem witness_RcntOnShortInput :
    State.reset.status.err = false ∧
    (withInput State.reset [6#8, 0#8, 0#8]).ilen.toNat ≤ State.reset.cfg.ibufCap ∧
    0 ≤ (withInput State.reset [6#8, 0#8, 0#8]).ilen.toNat ∧
    (withInput State.reset [6#8, 0#8, 0#8]).ilen.toNat < 0 + 4 := by decide

theorem coded_meets_pack :
    coded.status.err = false ∧ coded.status.vCode = true ∧ coded.ilen.toNat ≤ coded.cfg.ibufCap ∧
    coded.cfg.wf = true := by decide +kernel

theorem witness_PackAppendsPayload :
    (coded.status.err = false ∧ coded.status.vCode = true ∧ coded.ilen.toNat ≤ coded.cfg.ibufCap ∧
      coded.cfg.wf = true) ∧
    (∀ x, x ∈ coded.input → (coded.codeAt x.toNat).valid = true) ∧
    [false, false, false, true, true, true, true, true, false] =
      bitsOf (fun x => (coded.codeAt x.toNat).bits) coded.input ∧
    ({ coded with olen := 62#32 } : State).olen.toNat + (9 + 7) / 8 ≤ coded.cfg.obufCap ∧
    coded.cfg.obufCap < ({ coded with olen := 63#32 } : State).olen.toNat + (9 + 7) / 8 :=
  ⟨coded_meets_pack, by decide +kernel, by decide +kernel, by decide, by decide⟩

/-- V-P46's symbols; and eight bits before the first symbol without a code, on a full OBUF. -/
theorem witness_PackWithoutCode :
    (coded.status.err = false ∧ coded.status.vCode = true ∧ coded.ilen.toNat ≤ coded.cfg.ibufCap ∧
      coded.cfg.wf = true) ∧
    (withInput coded [0x61#8, 0x62#8, 0x7A#8]).input = [0x61#8, 0x62#8] ++ 0x7A#8 :: [] ∧
    (coded.codeAt 0x7A).valid = false ∧
    (∀ y, y ∈ [0x61#8, 0x62#8] → (coded.codeAt y.toNat).valid = true) ∧
    (bitsOf (fun y => (coded.codeAt y.toNat).bits) [0x61#8, 0x62#8]).length < 8 ∧
    (withInput coded (List.replicate 8 0x61#8 ++ [0x7A#8])).input = List.replicate 8 0x61#8 ++ 0x7A#8 :: [] ∧
    (∀ y, y ∈ List.replicate 8 0x61#8 → (coded.codeAt y.toNat).valid = true) ∧
    (bitsOf (fun y => (coded.codeAt y.toNat).bits) (List.replicate 8 0x61#8)).length = 8 ∧
    ({ coded with olen := 63#32 } : State).olen.toNat + 8 / 8 ≤ coded.cfg.obufCap ∧
    coded.cfg.obufCap < ({ coded with olen := 64#32 } : State).olen.toNat + 8 / 8 :=
  ⟨coded_meets_pack, by decide +kernel, by decide +kernel, by decide +kernel, by decide +kernel,
    by decide +kernel, by decide +kernel, by decide +kernel, by decide, by decide⟩

/-- V-P20's state. -/
def unpackable : State := unpacking abcTree 6 [0x1F#8, 0#8]

/-- The whole codes in the byte 1F under SRC1's tree (V-P44). -/
def fiveCodes : List (List Bool × Byte) :=
  [([false], 0x61#8), ([false], 0x61#8), ([false], 0x61#8), ([true, true], 0x62#8), ([true, true], 0x62#8)]

/-- SRC1's codes. -/
def sixCodes : List (List Bool × Byte) := fiveCodes ++ [([true, false], 0x63#8)]

/-- The two codes of V-C35's symbol, one after the other. -/
def bothCodes : List (List Bool × Byte) := [([false], 0x41#8), ([true], 0x41#8)]

/-- Bits: V-P21 with room to spare, V-P23 and V-P26, a symbol by each of its two codes, no room. Payload: V-P20 with
just enough room, and one byte less. -/
theorem witness_UnpackInvertsPack :
    ((unpacking abcTree 6 [0x1F#8, 0x7F#8]).status.err = false ∧ (unpacking abcTree 6 [0x1F#8, 0x7F#8]).ipos = 0#32 ∧
      (unpacking abcTree 6 [0x1F#8, 0x7F#8]).trie.cells = (deriveTables abcTree).trie ∧
      (∀ p, p ∈ sixCodes → p ∈ abcTree.codeTable) ∧
      (unpacking abcTree 6 [0x1F#8, 0x7F#8]).count.toNat = sixCodes.length ∧
      bitsOfBytes ((unpacking abcTree 6 [0x1F#8, 0x7F#8]).input.drop 0) =
        sixCodes.flatMap Prod.fst ++ List.replicate 7 true ∧ 0 + sixCodes.length ≤ State.reset.cfg.obufCap) ∧
    ((unpacking abcTree 3 [0x1F#8, 0#8]).count.toNat = (sixCodes.take 3).length ∧
      bitsOfBytes ((unpacking abcTree 3 [0x1F#8, 0#8]).input.drop 0) =
        (sixCodes.take 3).flatMap Prod.fst ++ (List.replicate 5 true ++ List.replicate 8 false)) ∧
    (bitsOfBytes ((unpacking (.leaf 0x41#8) 3 [0x1F#8]).input.drop 0) =
        (List.replicate 3 ([false], 0x41#8)).flatMap Prod.fst ++ List.replicate 5 true ∧
      ([false], 0x41#8) ∈ (HuffTree.leaf 0x41#8).codeTable) ∧
    ((∀ p, p ∈ bothCodes → p ∈ twoLeaf.codeTable) ∧ bothCodes[1].1 ≠ twoLeaf.codeOf 0x41#8 ∧
      (unpacking twoLeaf 2 [0x40#8]).trie.cells = (deriveTables twoLeaf).trie ∧
      bitsOfBytes ((unpacking twoLeaf 2 [0x40#8]).input.drop 0) =
        bothCodes.flatMap Prod.fst ++ List.replicate 6 false) ∧
    State.reset.cfg.obufCap < ({ State.reset with olen := 59#32 } : State).olen.toNat + sixCodes.length ∧
    (unpackable.status.err = false ∧ unpackable.status.vCode = true ∧ unpackable.status.vCount = true ∧
      unpackable.ilen.toNat ≤ unpackable.cfg.ibufCap ∧ unpackable.cfg.wf = true ∧ abcTree.size ≤ 511 ∧
      unpackable.trie.cells = (deriveTables abcTree).trie ∧ (∀ x, x ∈ abc → x ∈ abcTree.symbols) ∧
      unpackable.count.toNat = abc.length) ∧
    unpackable.ipos.toNat + (payload (bitsOf abcTree.codeOf abc)).length ≤ unpackable.ilen.toNat ∧
    (∀ (k : Nat) (b : Byte), (payload (bitsOf abcTree.codeOf abc))[k]? = some b →
      unpackable.ibufByte (unpackable.ipos.toNat + k) = b) ∧
    ({ unpackable with olen := 58#32 } : State).olen.toNat + abc.length ≤ unpackable.cfg.obufCap ∧
    unpackable.cfg.obufCap < ({ unpackable with olen := 59#32 } : State).olen.toNat + abc.length :=
  ⟨by decide +kernel, by decide +kernel, by decide +kernel, by decide +kernel, by decide, by decide +kernel,
    by decide +kernel, at_each (by decide +kernel), by decide +kernel, by decide +kernel⟩

theorem witness_UnpackZeroCount :
    (unpacking abcTree 0 []).status.err = false ∧ (unpacking abcTree 0 []).status.vCode = true ∧
    (unpacking abcTree 0 []).status.vCount = true ∧
    (unpacking abcTree 0 []).ilen.toNat ≤ State.reset.cfg.ibufCap ∧
    (unpacking abcTree 0 []).ipos.toNat ≤ (unpacking abcTree 0 []).ilen.toNat ∧
    (unpacking abcTree 0 []).count = 0#32 := by decide +kernel

/-- IPOS = ILEN; V-P44's payload `1F`, cut short after five of six symbols inside the code of the sixth; V-P41's
eight bits for nine symbols; V-P40's '1' after one symbol; no room in OBUF for the five symbols. -/
theorem witness_UnpackFaults :
    ((unpacking abcTree 1 []).status.err = false ∧ (unpacking abcTree 1 []).status.vCode = true ∧
      (unpacking abcTree 1 []).status.vCount = true ∧
      (unpacking abcTree 1 []).ilen.toNat ≤ State.reset.cfg.ibufCap ∧ (unpacking abcTree 1 []).count ≠ 0#32 ∧
      (unpacking abcTree 1 []).ipos = (unpacking abcTree 1 []).ilen ∧ State.reset.cfg.wf = true) ∧
    ((unpacking abcTree 6 [0x1F#8]).ipos.toNat ≤ (unpacking abcTree 6 [0x1F#8]).ilen.toNat ∧ abcTree.size ≤ 511 ∧
      (unpacking abcTree 6 [0x1F#8]).trie.cells = (deriveTables abcTree).trie ∧
      (∀ p, p ∈ fiveCodes → p ∈ abcTree.codeTable) ∧
      bitsOfBytes ((unpacking abcTree 6 [0x1F#8]).input.drop 0) = fiveCodes.flatMap Prod.fst ++ [true] ∧
      fiveCodes.length < (unpacking abcTree 6 [0x1F#8]).count.toNat ∧ 0 + fiveCodes.length ≤ State.reset.cfg.obufCap ∧
      ([true, false], 0x63#8) ∈ abcTree.codeTable ∧ [true] <+: [true, false] ∧ [true] ≠ [true, false]) ∧
    (bitsOfBytes ((unpacking (.leaf 0x41#8) 9 [0#8]).input.drop 0) =
        (List.replicate 8 ([false], 0x41#8)).flatMap Prod.fst ++ [] ∧
      (List.replicate 8 ([false], 0x41#8)).length < (unpacking (.leaf 0x41#8) 9 [0#8]).count.toNat ∧
      [] <+: [false] ∧ ([] : List Bool) ≠ [false]) ∧
    (bitsOfBytes ((unpacking (.leaf 0x41#8) 3 [0x40#8]).input.drop 0) =
        [([false], 0x41#8)].flatMap Prod.fst ++ true :: List.replicate 6 false ∧
      [([false], 0x41#8)].length < (unpacking (.leaf 0x41#8) 3 [0x40#8]).count.toNat ∧
      (∀ p, p ∈ [([false], 0x41#8)] → p ∈ (HuffTree.leaf 0x41#8).codeTable)) ∧
    (fiveCodes.length ≤ (unpacking abcTree 6 [0x1F#8]).count.toNat ∧ fiveCodes ≠ [] ∧
      State.reset.cfg.obufCap < ({ State.reset with olen := 60#32 } : State).olen.toNat + fiveCodes.length) := by
  decide +kernel

theorem witness_CompressMakesContainer :
    counted.status.err = false ∧ counted.ilen.toNat ≤ counted.cfg.ibufCap ∧ counted.cfg.wf = true ∧
    1 ≤ counted.ilen.toNat ∧ huffmanTree (fun k => occurrences k counted.input) = some abcTree ∧
    (container abcTree counted.input).length = 14 ∧
    Config.wf { ibufCap := 64, obufCap := 14 } = true ∧ Config.wf { ibufCap := 64, obufCap := 13 } = true := by
  decide +kernel

theorem witness_CompressIsStageScript :
    coded.status.err = false ∧ coded.ilen.toNat ≤ coded.cfg.ibufCap := by decide

theorem witness_DecompressIsStageScript :
    State.reset.status.err = false ∧ (withInput State.reset abcBox).ilen.toNat ≤ State.reset.cfg.ibufCap ∧
    ∃ t, thenExec (thenExec (thenExec
      (exec .tdes { withInput State.reset abcBox with ipos := 0#32, olen := 0#32 }) .rcnt) .derive) .unpack =
        .next t :=
  ⟨rfl, by decide, _, next_of_isNext (by decide +kernel)⟩

/-- Bits: V-C35; SRC1 with the padding of V-P21, with room and (on an OBUF of one byte) without. Container: SRC1 and
a byte after it. -/
theorem witness_DecompressDecodesContainer :
    ((∀ p, p ∈ bothCodes → p ∈ twoLeaf.codeTable) ∧ twoLeaf.size ≤ 511 ∧
      ser twoLeaf ++ countBytes (toWord bothCodes.length) <+: (withInput State.reset twoLeafBox).input ∧
      bitsOfBytes ((withInput State.reset twoLeafBox).input.drop ((ser twoLeaf).length + 4)) =
        bothCodes.flatMap Prod.fst ++ List.replicate 6 false ∧ bothCodes.length ≤ State.reset.cfg.obufCap) ∧
    ((∀ p, p ∈ sixCodes → p ∈ abcTree.codeTable) ∧
      (ser abcTree ++ countBytes (toWord sixCodes.length) <+:
        (withInput State.reset (abcBox.take 12 ++ [0x1F#8, 0x7F#8])).input) ∧
      bitsOfBytes ((withInput State.reset (abcBox.take 12 ++ [0x1F#8, 0x7F#8])).input.drop ((ser abcTree).length + 4)) =
        sixCodes.flatMap Prod.fst ++ List.replicate 7 true ∧ sixCodes.length ≤ State.reset.cfg.obufCap ∧
      (tight State.reset).cfg.obufCap < sixCodes.length ∧ (tight State.reset).cfg.wf = true) ∧
    State.reset.status.err = false ∧
    (withInput State.reset (abcBox ++ [0xAA#8])).ilen.toNat ≤ State.reset.cfg.ibufCap ∧
    State.reset.cfg.wf = true ∧ abcTree.size ≤ 511 ∧ (∀ x, x ∈ abc → x ∈ abcTree.symbols) ∧
    container abcTree abc <+: (withInput State.reset (abcBox ++ [0xAA#8])).input ∧
    abc.length ≤ State.reset.cfg.obufCap := by decide +kernel

theorem witness_RoundTrip :
    (withInput State.reset abc).status.err = false ∧ State.reset.cfg.wf = true ∧
    (∃ t, exec .compress (withInput State.reset abc) = .next t ∧ t.status.done = true ∧
      (withInput State.reset abcBox).input = t.output) ∧
    State.reset.status.err = false ∧ (withInput State.reset abcBox).ilen.toNat ≤ State.reset.cfg.ibufCap ∧
    (withInput State.reset abc).ilen.toNat ≤ State.reset.cfg.obufCap := by
  refine ⟨rfl, by decide, ?_, rfl, by decide, by decide⟩
  obtain ⟨t, h, ho, hw⟩ := test_compress_container
  exact ⟨t, h, done_of_word (by rw [hw]; decide), by rw [ho]; decide +kernel⟩

/-- COMPRESS of a legal, non-empty input has a next state. -/
theorem compress_ends {s : State} (he : s.status.err = false) (hl : s.ilen.toNat ≤ s.cfg.ibufCap)
    (h1 : 1 ≤ s.ilen.toNat) (hw : s.cfg.wf = true) : ∃ t, exec .compress s = .next t := by
  have h : exec .compress s = finish s.ipos (completing bodyCompress s.clearDone) :=
    exec_ready he rfl (by simp [lengthsHeld, State.ilenFits, hl])
  obtain ⟨T, u, -, -, -, hb, hu⟩ := bodyCompress_ok s.clearDone h1
  have hcfg : u.cfg = s.cfg := by rw [hu]; rfl
  rw [h]
  simp only [completing, hb]
  rcases appendAll_cases (s := u) (by rw [hcfg]; exact hw) (container T s.clearDone.input) with
    ⟨-, e⟩ | ⟨-, t, -, e⟩ <;> rw [e]
  · exact ⟨_, rfl⟩
  · exact ⟨_, rfl⟩

theorem witness_CompressDependsOnlyOnInput :
    coded.status.err = false ∧ (withInput State.reset abc).status.err = false ∧
    coded.cfg = (withInput State.reset abc).cfg ∧ coded.cfg.wf = true ∧
    coded.ilen.toNat ≤ coded.cfg.ibufCap ∧ coded.ilen = (withInput State.reset abc).ilen ∧
    coded.input = (withInput State.reset abc).input ∧ (∃ t, exec .compress coded = .next t) ∧
    ∃ t, exec .compress (withInput State.reset abc) = .next t :=
  ⟨rfl, rfl, rfl, by decide, by decide, rfl, by decide +kernel,
    compress_ends rfl (by decide) (by decide) (by decide),
    compress_ends rfl (by decide) (by decide) (by decide)⟩

theorem witness_ResetMeetsInvariants : Config.wf { ibufCap := 1, obufCap := 2 ^ 32 - 1 } = true := by decide

theorem witness_StepKeepsCanonicalForm :
    coded.Canonical ∧ ∃ t, step (presenting coded 0x06#32) = .next t :=
  ⟨by constructor <;> decide +kernel, _, next_of_isNext (by decide +kernel)⟩

theorem witness_StepKeepsFaultRecord : faulted.RecordOk ∧ ∃ t, step (presenting faulted 0x1E#32) = .next t :=
  ⟨faulted_recordOk, _, next_of_isNext (by decide +kernel)⟩

theorem witness_StepKeepsRegisterRanges : built.RangesOk ∧ ∃ t, step (presenting built 0x04#32) = .next t :=
  ⟨by constructor <;> decide +kernel, _, next_of_isNext (by decide +kernel)⟩

theorem witness_StepKeepsTablesValid : coded.TablesOk ∧ ∃ t, step (presenting coded 0x06#32) = .next t :=
  ⟨⟨fun _ => ⟨abc, by decide, rfl, by decide +kernel⟩,
      fun _ => ⟨abcTree, by decide +kernel, by decide, by decide⟩,
      fun _ => ⟨rfl, abcTree, by decide +kernel, rfl, rfl⟩⟩,
    _, next_of_isNext (by decide +kernel)⟩

theorem witness_EveryCommandEnds : coded.TablesOk := witness_StepKeepsTablesValid.1

end Sys2Proof.Tests
end

section
/-! PROOFS. Words that are no command (rules R91 to R93, R246): what the decoder accepts, what presenting any
other word does, and obligation O4. -/

namespace Sys2Proof.Machine

/-- Rule R91: the `zero` field and the `opcode` field make up the whole word. -/
theorem zeroField_append_opcodeField (w : Word) : zeroField w ++ opcodeField w = w :=
  (BitVec.extractLsb'_append_extractLsb'_eq_extractLsb' rfl).trans BitVec.extractLsb'_eq_self

/-- Rule R92: the map selects each command by its own opcode byte only. -/
theorem eq_opcode_of_opcodeInstr {n : Nat} {i : Instr} (h : opcodeInstr n = some i) :
    n = i.opcode.toNat := by
  unfold opcodeInstr at h
  split at h <;> cases h <;> rfl

/-- What the decoder asks of a word it accepts. -/
theorem fields_of_decode_ok {w : Word} {i : Instr} (h : decode w = .ok i) :
    zeroField w = 0#24 ∧ opcodeInstr (opcodeField w).toNat = some i := by
  unfold decode at h
  split at h
  next hz =>
    split at h
    next j hj => cases h; exact ⟨hz, hj⟩
    next => cases h
  next => cases h

/-- The decoder accepts a command's own word only. -/
theorem eq_encode_of_decode_ok {w : Word} {i : Instr} (h : decode w = .ok i) : w = encode i := by
  obtain ⟨hz, hi⟩ := fields_of_decode_ok h
  have ho : opcodeField w = i.opcode := BitVec.eq_of_toNat_eq (eq_opcode_of_opcodeInstr hi)
  calc w = zeroField w ++ opcodeField w := (zeroField_append_opcodeField w).symm
    _ = 0#24 ++ i.opcode := by rw [hz, ho]

/-- A word the decoder cannot accept is presented as an illegal one. -/
theorem presentWord_of_ne_encode {w : Word} (hw : ∀ i : Instr, w ≠ encode i) (s : State) :
    presentWord w s = .next (presentIllegal w s) := by
  unfold presentWord
  split
  next i hi => exact absurd (eq_encode_of_decode_ok hi) (hw i)
  next => rfl

/-- Rule R225 step 1: while STATUS.ERR = 1 an illegal word is ignored. -/
theorem presentIllegal_ignored {s : State} (he : s.status.err = true) (w : Word) :
    presentIllegal w s = s := if_pos he

/-- Rules R93, R239: while STATUS.ERR = 0 an illegal word writes the fault record and clears DONE. -/
theorem presentIllegal_raises {s : State} (he : s.status.err = false) (w : Word) :
    presentIllegal w s = s.clearDone.recordFault .illegalCommand w := by
  have hf : presentIllegal w s = takeFault .illegalCommand w s.ipos s.clearDone := by
    simp [presentIllegal, he]
  rw [hf, takeFault_preExecution rfl]

/-- Settles O4: the decoder accepts only the thirteen words, so the word is presented as an illegal one, and
IllegalCommand is a pre-execution fault, which writes nothing but its record. -/
theorem illegalWordRaises : Obligations.IllegalWordRaises := by
  intro s w hw
  have hmove : hostMove (.writeReg 0 w) s = .next (presentIllegal w s) := presentWord_of_ne_encode hw s
  rw [hmove]
  constructor
  · intro he
    rw [presentIllegal_raises he]
    rfl
  · intro he
    rw [presentIllegal_ignored he]

end Sys2Proof.Machine
end

section
/-! PROOFS. FCNT on the empty input and BUILD after it (rules R122, R139): obligation O24. -/

namespace Sys2Proof.Machine

/-- What FCNT leaves when it completes (rules R34, R120). -/
def State.afterFcnt (s : State) : State :=
  { s with
    freq := { s.freq with cells := freqCells s.input }
    nsym := toWord (countPresent (freqCells s.input))
    status := { s.status with vFreq := true, vTree := false, vCode := false, done := true } }

/-- Rule R120: an accepted FCNT on an input that fits IBUF completes. -/
theorem exec_fcnt_completes {s : State} (he : s.status.err = false) (hl : s.ilen.toNat ≤ s.cfg.ibufCap) :
    exec .fcnt s = .next s.afterFcnt :=
  exec_ready he rfl (by simpa [lengthsHeld, State.ilenFits] using hl)

/-- Rule R139: with every count zero an accepted BUILD raises EmptyInput. -/
theorem exec_build_emptyInput {s : State} (he : s.status.err = false) (hv : s.status.vFreq = true)
    (h0 : ∀ k : Nat, k < 256 → s.freqAt k = 0#32) :
    exec .build s = .next (takeFault .emptyInput 0#32 s.ipos s.clearDone.clearTreeFlags) := by
  have hn : s.clearDone.clearTreeFlags.leavesArena.nnode = 0 := leavesArena_empty _ h0
  rw [exec_ready (i := .build) he hv rfl]
  simp only [bodyOf, completing, bodyBuild, hn, if_true, Run.andThen_raise, finish_raise]

theorem input_eq_nil {s : State} (h : s.ilen = 0#32) : s.input = [] :=
  List.eq_nil_of_length_eq_zero (by rw [input_length, h]; rfl)

/-- Rule R122: FREQ counts no symbol of the empty input. -/
theorem afterFcnt_freqAt_of_empty {s : State} (hi : s.input = []) {k : Nat} (hk : k < 256) :
    s.afterFcnt.freqAt k = 0#32 :=
  (freqAt_of_cells (xs := []) (by rw [← hi]; rfl) hk).trans rfl

/-- Rule R122: no symbol of the empty input is present. -/
theorem afterFcnt_nsym_of_empty {s : State} (hi : s.input = []) : s.afterFcnt.nsym = 0#32 := by
  have hc : countPresent (freqCells []) = 0 := by
    simp [freqCells, tabulate, countPresent_map, occurrences, toWord]
  simp only [State.afterFcnt, hi, hc, toWord]

/-- Settles O24: an input of length 0 fits every IBUF and counts no symbol, so FCNT completes with every count
zero, on which BUILD raises EmptyInput. -/
theorem fcntOnEmptyInput : Obligations.FcntOnEmptyInput := by
  intro s he hlen
  have hi : s.input = [] := input_eq_nil hlen
  have h0 : ∀ k : Nat, k < 256 → s.afterFcnt.freqAt k = 0#32 := fun _ hk => afterFcnt_freqAt_of_empty hi hk
  have hfcnt : exec .fcnt s = .next s.afterFcnt := exec_fcnt_completes he (by simp [hlen])
  exact ⟨s.afterFcnt, hfcnt, h0, afterFcnt_nsym_of_empty hi, rfl, rfl, he,
    _, exec_build_emptyInput he rfl h0, rfl, rfl⟩

end Sys2Proof.Machine
end

section
/-! PROOFS. BUILD on a table with every count zero (rules R139, R240): obligation O27. -/

namespace Sys2Proof.Machine

/-- Rules R139, R240: the state BUILD leaves when it raises EmptyInput. IPOS goes back to its value at acceptance,
and what R240 leaves unspecified stands in `discardOutput` and `spoilTree`. -/
def State.afterEmptyBuild (s : State) : State :=
  ((s.clearDone.clearTreeFlags.discardOutput s.ipos).spoilTree).recordFault .emptyInput 0#32

/-- Rule R139: BUILD on a table with every count zero ends in `afterEmptyBuild`. -/
theorem exec_build_afterEmptyBuild {s : State} (he : s.status.err = false) (hv : s.status.vFreq = true)
    (h0 : ∀ k : Nat, k < 256 → s.freqAt k = 0#32) : exec .build s = .next s.afterEmptyBuild := by
  rw [exec_build_emptyInput he hv h0, takeFault_spoils rfl]
  rfl

/-- Rule R240: outside the tree's tables and the output, `afterEmptyBuild` changes only the fault record, DONE and
the flags V_TREE and V_CODE. -/
theorem afterEmptyBuild_frame (s : State) :
    s.afterEmptyBuild =
      { s with
        node := s.afterEmptyBuild.node, nnode := s.afterEmptyBuild.nnode, root := s.afterEmptyBuild.root
        heap := s.afterEmptyBuild.heap, hsize := s.afterEmptyBuild.hsize
        obuf := s.afterEmptyBuild.obuf, olen := 0#32, fresh := s.afterEmptyBuild.fresh
        err := 0x01#32, errval := 0#32
        status := { s.status with vTree := false, vCode := false, done := false, err := true } } := rfl

/-- Settles O27: with every count zero InitLeaves makes no leaf, so BUILD raises EmptyInput, a fault that spoils
the tree's tables and the output and leaves everything else but the record as it was. -/
theorem buildOnEmptyTable : Obligations.BuildOnEmptyTable := by
  intro s he hv h0
  exact ⟨s.afterEmptyBuild, exec_build_afterEmptyBuild he hv h0, afterEmptyBuild_frame s⟩

end Sys2Proof.Machine
end

section
/-! PROOFS. The checks before execution and the fault record (rules R225 to R229, R236): which commands fail a
check, what that writes, what ERR holds after any fault, and obligations O13, O14 and O20. -/

namespace Sys2Proof.Machine

/-! ## The two checks, as their tables give them -/

/-- Rule R226's table: the commands that miss a valid flag. -/
theorem flagsHeld_eq_false_iff (i : Instr) (st : Status) :
    flagsHeld i st = false ↔
      (i = .build ∧ st.vFreq = false) ∨ (i = .derive ∧ st.vTree = false) ∨ (i = .tser ∧ st.vTree = false) ∨
        (i = .pack ∧ st.vCode = false) ∨ (i = .unpack ∧ (st.vCode = false ∨ st.vCount = false)) := by
  cases i <;> simp [flagsHeld, imp_iff_not_or]

/-- Rule R227's two conditions: the commands one of them fails. -/
theorem lengthsHeld_eq_false_iff (i : Instr) (s : State) :
    lengthsHeld i s = false ↔
      (i ∈ [.fcnt, .wcnt, .pack, .compress, .decompress, .tdes, .rcnt, .unpack] ∧ s.cfg.ibufCap < s.ilen.toNat) ∨
        (i ∈ [.tdes, .rcnt, .unpack] ∧ s.ilen.toNat < s.ipos.toNat) := by
  cases i <;> simp [lengthsHeld, State.ilenFits, State.iposFits, imp_iff_not_or]

/-- Of the commands with a length condition only PACK and UNPACK require a valid flag (rules R226, R227). -/
theorem flagsHeld_of_lengthsHeld_eq_false {i : Instr} {s : State} (hl : lengthsHeld i s = false)
    (hpack : i = .pack → s.status.vCode = true)
    (hunpack : i = .unpack → s.status.vCode = true ∧ s.status.vCount = true) : flagsHeld i s.status = true := by
  cases i with
  | build | derive | tser => cases hl
  | pack => exact hpack rfl
  | unpack => simpa [flagsHeld] using hunpack rfl
  | fcnt | wcnt | tdes | rcnt | compress | decompress | clrerr | srst => rfl

/-! ## What a failing check does -/

/-- Rules R226, R239: a missing valid flag writes the record of SequenceError. -/
theorem exec_missingFlag {i : Instr} {s : State} (he : s.status.err = false)
    (hf : flagsHeld i s.status = false) :
    exec i s = .next (s.clearDone.recordFault .sequenceError (encode i)) := by
  rw [exec_eq_accept, ← takeFault_preExecution rfl (encode i) s.ipos]
  simp [accept, he, hf]

/-- Rules R227, R239: with the flags held, a failing length condition writes the record of LengthError. -/
theorem exec_badLength {i : Instr} {s : State} (he : s.status.err = false)
    (hf : flagsHeld i s.status = true) (hl : lengthsHeld i s = false) :
    exec i s = .next (s.clearDone.recordFault .lengthError (encode i)) := by
  rw [exec_eq_accept, ← takeFault_preExecution rfl (encode i) s.ipos]
  simp [accept, he, hf, hl]

/-! ## What ERR holds after a fault -/

/-- A command that is executed and ends with STATUS.ERR = 1 has raised a fault of its own. -/
theorem raisable_of_finish_err {i : Instr} {s t : State} {p : Word} (he : s.status.err = false)
    (h : finish p (bodyOf i s) = .next t) (ht : t.status.err = true) :
    ∃ k : FaultKind, raisable i k ∧ t.err = k.errWord := by
  have hends := bodyOf_ends i s
  cases hr : bodyOf i s with
  | ok u s' =>
    rw [hr] at h hends
    obtain ⟨-, -, hkeep, hclear, -⟩ := hends
    cases h
    have hfalse : t.status.err = false := by
      by_cases hi : i = .clrerr ∨ i = .srst
      · exact (hclear hi).1
      · rw [not_or] at hi
        exact (hkeep hi.2 hi.1).1.trans he
    exact absurd ht (by simp [hfalse])
  | raise k v s' =>
    rw [hr] at h hends
    obtain ⟨-, hk, -⟩ := hends
    cases h
    obtain ⟨-, -, -, -, -, -, -, -, -, -, -, herr, -⟩ := takeFault_kept k v p s'
    exact ⟨k, hk, herr⟩
  | stop x =>
    rw [hr] at h
    cases h

/-- Everything ERR can say of an accepted command that faults: SequenceError for a missing flag, LengthError for
a failing length condition, else a fault of the command's own (rules R225, R236). -/
theorem exec_err_cases {i : Instr} {s t : State} (he : s.status.err = false) (h : exec i s = .next t)
    (ht : t.status.err = true) :
    (flagsHeld i s.status = false ∧ t.err = FaultKind.sequenceError.errWord) ∨
    (flagsHeld i s.status = true ∧ lengthsHeld i s = false ∧ t.err = FaultKind.lengthError.errWord) ∨
    (flagsHeld i s.status = true ∧ lengthsHeld i s = true ∧
      ∃ k : FaultKind, raisable i k ∧ t.err = k.errWord) := by
  rcases exec_cases i s with ⟨he', -, -⟩ | ⟨-, ⟨hf, h'⟩ | ⟨hf, hl, h'⟩ | ⟨hf, hl, h'⟩⟩
  · exact absurd he' (by simp [he])
  · cases h'.symm.trans h
    exact .inl ⟨hf, rfl⟩
  · cases h'.symm.trans h
    exact .inr (.inl ⟨hf, hl, rfl⟩)
  · exact .inr (.inr ⟨hf, hl, raisable_of_finish_err (s := s.clearDone) he (h'.symm.trans h) ht⟩)

/-- Rule R236: ERR tells SequenceError from every other fault. -/
theorem eq_sequenceError_of_errWord {k : FaultKind} (h : k.errWord = 0x04#32) : k = .sequenceError := by
  revert h; cases k <;> decide

/-- Rule R236: ERR tells LengthError from every other fault. -/
theorem eq_lengthError_of_errWord {k : FaultKind} (h : k.errWord = 0x07#32) : k = .lengthError := by
  revert h; cases k <;> decide

/-- ERR = 4 comes from a missing valid flag only: a command's own faults are execution faults. -/
theorem flagsHeld_eq_false_of_err {i : Instr} {s t : State} (he : s.status.err = false)
    (h : exec i s = .next t) (ht : t.status.err = true) (h4 : t.err = 0x04#32) :
    flagsHeld i s.status = false := by
  rcases exec_err_cases he h ht with ⟨hf, -⟩ | ⟨-, -, h7⟩ | ⟨-, -, k, hk, hw⟩
  · exact hf
  · cases eq_sequenceError_of_errWord (h7.symm.trans h4)
  · cases eq_sequenceError_of_errWord (hw.symm.trans h4)
    cases raisable_isExecution hk

/-- ERR = 7 comes from a failing length condition only. -/
theorem lengthsHeld_eq_false_of_err {i : Instr} {s t : State} (he : s.status.err = false)
    (h : exec i s = .next t) (ht : t.status.err = true) (h7 : t.err = 0x07#32) :
    lengthsHeld i s = false := by
  rcases exec_err_cases he h ht with ⟨-, h4⟩ | ⟨-, hl, -⟩ | ⟨-, -, k, hk, hw⟩
  · cases eq_lengthError_of_errWord (h4.symm.trans h7)
  · exact hl
  · cases eq_lengthError_of_errWord (hw.symm.trans h7)
    cases raisable_isExecution hk

/-! ## Commands accepted in every state -/

/-- Rules R226, R227, R257: a command that is accepted while STATUS.ERR = 1 has no check to pass, so it is
executed in every state. -/
theorem exec_of_acceptedWhileErr {i : Instr} (ha : acceptedWhileErr i = true) (s : State) :
    exec i s = finish s.ipos (bodyOf i s.clearDone) := by
  have hchecks : flagsHeld i s.status = true ∧ lengthsHeld i s = true := by
    cases i with
    | clrerr | srst => exact ⟨rfl, rfl⟩
    | _ => cases ha
  rw [exec_eq_accept]
  simp [accept, ha, hchecks]

/-! ## The obligations -/

/-- Settles O13: a missing flag writes the record of SequenceError and nothing else, and among all faults a
command can end in only that one leaves ERR = 4. -/
theorem missingFlagRaisesSequenceError : Obligations.MissingFlagRaisesSequenceError := by
  intro s i he
  rw [← flagsHeld_eq_false_iff]
  exact ⟨exec_missingFlag he, fun t h ht h4 => flagsHeld_eq_false_of_err he h ht h4⟩

/-- Settles O14: with the flags held a failing length condition writes the record of LengthError and nothing
else, and among all faults a command can end in only that one leaves ERR = 7. -/
theorem badLengthRaisesLengthError : Obligations.BadLengthRaisesLengthError := by
  intro s i he
  rw [← lengthsHeld_eq_false_iff]
  exact ⟨fun hpack hunpack hl => exec_badLength he (flagsHeld_of_lengthsHeld_eq_false hl hpack hunpack) hl,
    fun t h ht h7 => lengthsHeld_eq_false_of_err he h ht h7⟩

/-- Settles O20: CLRERR is executed in every state, and its body clears the record and nothing else. -/
theorem clrerrClearsRecord : Obligations.ClrerrClearsRecord :=
  ⟨rfl, fun s => exec_of_acceptedWhileErr (i := .clrerr) rfl s⟩

end Sys2Proof.Machine
end

section
/-! PROOFS. The fault record (60_exceptions.md): what a pre-execution fault writes (rule R239), what STATUS.ERR = 1
lets through (rule R257), and EOS_COUNT (rule R249): obligations O16, O12 and O43. -/

namespace Sys2Proof.Machine

/-! ## A word written to CMD -/

/-- Everything presenting a word can do (rules R91 to R93): it is a command's own word, or an illegal one. -/
theorem presentWord_cases (w : Word) (s : State) :
    (∃ i : Instr, w = encode i ∧ presentWord w s = exec i s) ∨
      presentWord w s = .next (presentIllegal w s) := by
  unfold presentWord
  split
  next i hi => exact .inl ⟨i, eq_encode_of_decode_ok hi, rfl⟩
  next => exact .inr rfl

/-! ## Pre-execution faults -/

/-- Rule R236: codes 3, 4 and 7 are those of the pre-execution faults. -/
theorem errCode_mem_preExecution_iff (k : FaultKind) :
    errCode k.errWord ∈ [3, 4, 7] ↔ k.isExecution = false := by
  cases k <;> decide

/-- Rule R239: a command that ends with a pre-execution code has failed a check, which writes the record only. -/
theorem exec_preExecutionFault {i : Instr} {s t : State} (he : s.status.err = false) (h : exec i s = .next t)
    (ht : t.status.err = true) (hc : errCode t.err ∈ [3, 4, 7]) :
    ∃ (k : FaultKind) (v : Word), t = s.clearDone.recordFault k v := by
  rcases exec_cases i s with ⟨he', -, -⟩ | ⟨-, ⟨-, h'⟩ | ⟨-, -, h'⟩ | ⟨-, -, h'⟩⟩
  · exact absurd he' (by simp [he])
  · cases h'.symm.trans h
    exact ⟨_, _, rfl⟩
  · cases h'.symm.trans h
    exact ⟨_, _, rfl⟩
  · obtain ⟨k, hk, hw⟩ := raisable_of_finish_err (s := s.clearDone) he (h'.symm.trans h) ht
    rw [hw, errCode_mem_preExecution_iff, raisable_isExecution hk] at hc
    cases hc

/-- Rule R239: the same of any word, legal or not. -/
theorem presentWord_preExecutionFault {w : Word} {s t : State} (he : s.status.err = false)
    (h : presentWord w s = .next t) (ht : t.status.err = true) (hc : errCode t.err ∈ [3, 4, 7]) :
    ∃ (k : FaultKind) (v : Word), t = s.clearDone.recordFault k v := by
  rcases presentWord_cases w s with ⟨i, -, hi⟩ | hill
  · exact exec_preExecutionFault he (hi.symm.trans h) ht hc
  · cases hill.symm.trans h
    exact ⟨_, _, presentIllegal_raises he w⟩

/-- Settles O16: of all that a word written to CMD can do, only a failed check and an illegal word leave one of the
three codes, and both clear DONE and write the record and nothing else. -/
theorem preExecutionFaultChangesOnlyRecord : Obligations.PreExecutionFaultChangesOnlyRecord := by
  intro s t w he h ht hc
  obtain ⟨k, v, rfl⟩ := presentWord_preExecutionFault he h ht hc
  rfl

/-! ## While STATUS.ERR = 1 -/

/-- Rule R257: CLRERR and SRST are the only commands accepted while STATUS.ERR = 1. -/
theorem acceptedWhileErr_eq_false {i : Instr} (hc : i ≠ .clrerr) (hs : i ≠ .srst) :
    acceptedWhileErr i = false := by
  cases i with
  | clrerr => exact absurd rfl hc
  | srst => exact absurd rfl hs
  | _ => rfl

/-- Rule R257: every other command is ignored. -/
theorem exec_ignored {i : Instr} {s : State} (he : s.status.err = true) (hc : i ≠ .clrerr) (hs : i ≠ .srst) :
    exec i s = .next s := by
  rw [exec_eq_accept, accept_ignored he (acceptedWhileErr_eq_false hc hs)]

/-- Rule R257: every word but those of CLRERR and SRST is ignored, legal or not. -/
theorem presentWord_ignored {w : Word} {s : State} (he : s.status.err = true) (hc : w ≠ encode .clrerr)
    (hs : w ≠ encode .srst) : presentWord w s = .next s := by
  rcases presentWord_cases w s with ⟨i, rfl, hi⟩ | hill
  · rw [hi, exec_ignored he (fun h => hc (congrArg encode h)) (fun h => hs (congrArg encode h))]
  · rw [hill, presentIllegal_ignored he]

/-- A host access that is no write to CMD is the host's own. -/
theorem hostMove_eq_hostAccess {m : HostMove} (hm : ∀ w : Word, m ≠ .writeReg 0 w) (s : State) :
    hostMove m s = hostAccess m s := by
  unfold hostMove
  split
  next w => exact absurd rfl (hm w)
  next => rfl

/-- Rule R32: the host writes ILEN, IPOS and OLEN at most, so no part of the fault record. -/
theorem writeReg_keeps_record (n : Nat) (v : Word) (s : State) :
    (writeReg n v s).status = s.status ∧ (writeReg n v s).err = s.err ∧ (writeReg n v s).errval = s.errval := by
  unfold writeReg
  split <;> exact ⟨rfl, rfl, rfl⟩

/-- Rule R257: of the host's own accesses only the reset input touches the fault record. -/
theorem hostAccess_keeps_record {m : HostMove} {s t : State} (hm : m ≠ .hwReset) (h : hostAccess m s = .next t) :
    t.status = s.status ∧ t.err = s.err ∧ t.errval = s.errval := by
  cases m with
  | hwReset => exact absurd rfl hm
  | writeReg n v => cases h; exact writeReg_keeps_record n v s
  | readReg n => cases h; exact ⟨rfl, rfl, rfl⟩
  | writeIbuf | readIbuf | readTable =>
    simp only [hostAccess] at h
    split at h <;> cases h <;> exact ⟨rfl, rfl, rfl⟩
  | readObuf a =>
    simp only [hostAccess] at h
    split at h
    · split at h <;> cases h <;> exact ⟨rfl, rfl, rfl⟩
    · cases h

/-- Settles O12: acceptance ignores every command but CLRERR and SRST, a word is a command's own or illegal, and
the host's other accesses do not look at STATUS.ERR. -/
theorem stickyFaultIgnoresCommands : Obligations.StickyFaultIgnoresCommands := by
  intro s he
  refine ⟨fun _ => exec_ignored he, fun _ => presentWord_ignored he, ?_, fun _ => rfl, fun _ => ⟨rfl, rfl, rfl⟩, ?_⟩
  · intro m t hm hr h
    rw [hostMove_eq_hostAccess hm] at h
    exact hostAccess_keeps_record hr h
  · intro a b ha
    exact ⟨if_pos ha, if_pos ha⟩

/-! ## RCNT without its four bytes -/

/-- Rules R206, R249: with fewer than four bytes left RCNT's body clears V_COUNT and raises EOS_COUNT. -/
theorem bodyRcnt_short {s : State} (h : s.ilen.toNat < s.ipos.toNat + 4) :
    bodyRcnt s = .raise .eosCount s.ipos (s.putVCount false) :=
  if_neg (by omega)

/-- Rules R240, R249: what RCNT then leaves. -/
theorem exec_rcnt_short {s : State} (he : s.status.err = false) (hl : lengthsHeld .rcnt s = true)
    (h : s.ilen.toNat < s.ipos.toNat + 4) :
    exec .rcnt s =
      .next (((s.clearDone.putVCount false).discardOutput s.ipos).recordFault .eosCount s.ipos) := by
  have hbody : bodyRcnt s.clearDone = .raise .eosCount s.ipos (s.clearDone.putVCount false) := bodyRcnt_short h
  rw [exec_ready he rfl hl, ← takeFault_execution rfl rfl]
  simp only [bodyOf, completing, hbody, Run.andThen_raise, finish_raise]

/-- Settles O43: RCNT's length conditions hold, so it is executed, and EOS_COUNT discards the output, puts IPOS back
to where it was and writes the record. -/
theorem rcntOnShortInput : Obligations.RcntOnShortInput := by
  intro s he hcap hpos hshort
  have hl : lengthsHeld .rcnt s = true := by simp [lengthsHeld, State.ilenFits, State.iposFits, hcap, hpos]
  exact ⟨_, exec_rcnt_short he hl hshort, rfl⟩

end Sys2Proof.Machine
end

section
/-! PROOFS. Command words (rules R91 to R93) and the step that presents one (rules R21, R225): obligations O1, O2
and O3. -/

namespace Sys2Proof.Machine

/-- Rules R91, R92: a command's word decodes back to the command. -/
theorem decode_encode (i : Instr) : decode (encode i) = .ok i := by cases i <;> rfl

/-- Settles O1: the decoder accepts a command's own word only, and accepts that word. -/
theorem decodeIffEncoded : Obligations.DecodeIffEncoded := fun _ i =>
  ⟨eq_encode_of_decode_ok, fun h => h ▸ decode_encode i⟩

/-- Settles O2: the thirteen words are those `encode` gives, and the other five are rejected by the decoder's two
checks, the high bits first. -/
theorem commandWordsDecode : Obligations.CommandWordsDecode :=
  ⟨decode_encode .fcnt, decode_encode .build, decode_encode .derive, decode_encode .tser, decode_encode .wcnt,
    decode_encode .pack, decode_encode .tdes, decode_encode .rcnt, decode_encode .unpack, decode_encode .compress,
    decode_encode .decompress, decode_encode .clrerr, decode_encode .srst, rfl, rfl, rfl, rfl, rfl⟩

/-- Rules R21, R225: a word that decodes to a command is that command's `exec`. -/
theorem presentWord_of_decode {w : Word} {i : Instr} (h : decode w = .ok i) (s : State) :
    presentWord w s = exec i s := by
  simp only [presentWord, h]

/-- Rule R33: a pending host access is taken off the script and performed. -/
theorem step_access {s : State} {m : HostMove} {rest : List ScriptLine} (h : s.script = .access m :: rest) :
    step s = hostMove m { s with script := rest } := by
  simp only [step, h]

/-- Rule R21: a pending write to CMD presents its word. -/
theorem step_presents {s : State} {w : Word} {rest : List ScriptLine}
    (h : s.script = .access (.writeReg 0 w) :: rest) : step s = presentWord w { s with script := rest } :=
  step_access h

/-- Settles O3: a step takes the write to CMD off the script and presents its word, whose command `decode` gives;
the word `withFetchWord` places is such a write. -/
theorem stepRunsDecodedCommand : Obligations.StepRunsDecodedCommand := by
  have hstep : ∀ (s : State) (w : Word) (i : Instr) (rest : List ScriptLine),
      s.script = .access (.writeReg 0 w) :: rest → decode w = .ok i →
        step s = exec i { s with script := rest } := fun s w i rest hs hd =>
    (step_presents hs).trans (presentWord_of_decode hd _)
  refine ⟨hstep, fun s i => ?_⟩
  have hw : toWord ((encode i).toNat % 2 ^ 32) = encode i := by
    rw [Nat.mod_eq_of_lt (encode i).isLt, toWord_of_toNat]
  exact hstep (s.withFetchWord 32 (encode i).toNat) (encode i) i s.script
    (congrArg (fun w => ScriptLine.access (.writeReg 0 w) :: s.script) hw) (decode_encode i)

end Sys2Proof.Machine
end

section
/-! PROOFS. The four invariants of a run (Canonical, RecordOk, RangesOk, TablesOk): reset meets them and every step
keeps them: obligations O55 to O59. -/

namespace Sys2Proof.Machine

/-! ## Shared operations -/

/-- What discarding the output, spoiling the tree and writing the record keep, taking a fault keeps (rules R238 to
R240). -/
theorem takeFault_keeps {P : State → Prop} (hout : ∀ s p, P s → P (s.discardOutput p))
    (htree : ∀ s, P s → P s.spoilTree) (hrec : ∀ s k v, P s → P (s.recordFault k v))
    (k : FaultKind) (v p : Word) {s : State} (hs : P s) : P (takeFault k v p s) := by
  unfold takeFault
  refine hrec _ k v ?_
  by_cases he : k.isExecution = true <;> by_cases ht : k.spoilsTree = true <;> simp only [he, ht]
  · exact htree _ (hout _ p hs)
  · exact hout _ p hs
  · exact htree _ hs
  · exact hs

/-- What clearing DONE and writing the record keep, an illegal word keeps (rules R93, R239). -/
theorem presentIllegal_keeps {P : State → Prop} (hclear : ∀ s, P s → P s.clearDone)
    (hrec : ∀ s k v, P s → P (s.recordFault k v)) (w : Word) {s : State} (hs : P s) : P (presentIllegal w s) := by
  cases he : s.status.err with
  | true => rwa [presentIllegal_ignored he]
  | false => rw [presentIllegal_raises he]; exact hrec _ _ _ (hclear _ hs)

/-- What holds whatever OBUF and OLEN are, a piece of pseudocode that only appends keeps. -/
theorem SameButOutput.keeps {P : State → Prop} (hout : ∀ s b n, P s → P { s with obuf := b, olen := n })
    {s t : State} (h : SameButOutput s t) (hs : P s) : P t := by
  rw [show t = { s with obuf := t.obuf, olen := t.olen } from h]
  exact hout s t.obuf t.olen hs

/-! ## The fault record -/

/-- Without a fault the record is consistent when ERR and ERRVAL are 0. -/
theorem recordOk_of_noFault {s : State} (hb : s.status.busy = false) (he : s.status.err = false)
    (h0 : s.err = 0#32) (hv : s.errval = 0#32) : s.RecordOk where
  err := ⟨fun _ => he, fun _ => h0⟩
  kind := fun h => absurd (he.symm.trans h) (by decide)
  errval := fun _ => hv
  one := fun h => absurd (he.symm.trans h.2) (by decide)
  busy := hb

/-- Presenting an illegal word keeps the record consistent (rules R225, R236). -/
theorem presentIllegal_keeps_recordOk {s : State} (hs : s.RecordOk) (w : Word) : (presentIllegal w s).RecordOk := by
  unfold presentIllegal
  split
  · exact hs
  · exact recordOk_fault hs.busy .illegalCommand w s.ipos

/-- What a command's pseudocode leaves has a consistent record, when it was accepted in one (rules R225, R236). -/
theorem finish_recordOk {i : Instr} {s t : State} {p : Word} (hs : s.RecordOk)
    (ha : s.status.err = false ∨ acceptedWhileErr i = true) (h : finish p (bodyOf i s) = .next t) :
    t.RecordOk := by
  have hends := bodyOf_ends i s
  cases hr : bodyOf i s with
  | ok u s' =>
    rw [hr] at h hends
    cases h
    obtain ⟨hkept, -, hsame, hclear, hzero⟩ := hends
    by_cases hi : i = .clrerr ∨ i = .srst
    · obtain ⟨h1, h2, h3⟩ := hclear hi
      refine recordOk_of_noFault ?_ h1 h2 h3
      by_cases hsrst : i = .srst
      · rw [hzero hsrst]; rfl
      · exact (hkept.busy hsrst).trans hs.busy
    · rw [not_or] at hi
      have he : s.status.err = false :=
        ha.resolve_right (by rw [acceptedWhileErr_eq_false hi.1 hi.2]; decide)
      obtain ⟨h1, h2, h3⟩ := hsame hi.2 hi.1
      exact recordOk_of_noFault ((hkept.busy hi.2).trans hs.busy) (h1.trans he) (h2.trans (hs.err.mpr he))
        (h3.trans (hs.errval he))
  | raise k v s' =>
    rw [hr] at h hends
    cases h
    have hsrst : i ≠ .srst := by
      rintro rfl
      exact hends.2.1
    exact recordOk_fault ((hends.1.busy hsrst).trans hs.busy) k v p
  | stop x =>
    rw [hr] at h
    cases h

/-- Every command keeps the record consistent. -/
theorem exec_keeps_recordOk {i : Instr} {s t : State} (hs : s.RecordOk) (h : exec i s = .next t) : t.RecordOk := by
  have hc : s.status.err = false ∨ acceptedWhileErr i = true → s.clearDone.RecordOk := fun _ =>
    { hs with one := fun h => Bool.false_ne_true h.1 }
  rcases exec_cases i s with ⟨-, -, h'⟩ | ⟨ha, ⟨-, h'⟩ | ⟨-, -, h'⟩ | ⟨-, -, h'⟩⟩
  · cases h'.symm.trans h; exact hs
  · cases h'.symm.trans h; exact recordOk_fault (s := s.clearDone) hs.busy .sequenceError (encode i) s.ipos
  · cases h'.symm.trans h; exact recordOk_fault (s := s.clearDone) hs.busy .lengthError (encode i) s.ipos
  · exact finish_recordOk (hc ha) ha (h'.symm.trans h)

/-- Every access of the host keeps the record consistent. -/
theorem hostAccess_keeps_recordOk {m : HostMove} {s t : State} (hs : s.RecordOk) (h : hostAccess m s = .next t) :
    t.RecordOk := by
  rcases hostAccess_cases h with ⟨_, _, _, rfl⟩ | ⟨_, _, -, rfl⟩ | ⟨_, _, rfl⟩ | rfl
  · exact { hs with }
  · exact { hs with }
  · exact { hs with }
  · exact recordOk_of_noFault rfl rfl rfl rfl

/-- Settles O57: every fault writes a whole record, CLRERR and the resets clear it whole, every other command that is
executed was accepted without a fault and leaves the record alone, and so does the host. -/
theorem stepKeepsFaultRecord : Obligations.StepKeepsFaultRecord :=
  step_keeps State.RecordOk (fun _ _ _ hs => { hs with }) (fun _ _ _ hs h => exec_keeps_recordOk hs h)
    (fun _ w hs => presentIllegal_keeps_recordOk hs w) (fun _ _ _ hs h => hostAccess_keeps_recordOk hs h)

/-! ## Invariants that do not look at the record -/

/-- A run ends as its two ends do, whatever a stop may say. -/
theorem Run.ends_of {α : Type} {r : Run α} {okP : α → State → Prop} {raiseP : FaultKind → Word → State → Prop}
    (hok : ∀ a s, r = .ok a s → okP a s) (hraise : ∀ k v s, r = .raise k v s → raiseP k v s) :
    r.Ends okP raiseP (fun _ => True) := by
  cases r with
  | ok a s => exact hok a s rfl
  | raise k v s => exact hraise k v s rfl
  | stop x => trivial

section Tables
variable {P : State → Prop}

/-- TSER's body keeps what storing one byte keeps. -/
theorem bodyTser_keeps (hpush : ∀ s b, s.olen.toNat < s.cfg.obufCap → P s → P (s.pushByte b)) {s : State}
    (hs : P s) : (bodyTser s).Ends (fun _ t => P t) (fun _ _ t => P t) (fun _ => True) := by
  unfold bodyTser
  cases s.tree? with
  | none => trivial
  | some T => exact (appendAll_keeps hpush (ser T) hs).mono (fun _ _ h => h) (fun _ _ _ h => h.2) (fun _ h => h)

/-- UNPACK's body keeps what storing one byte and moving IPOS keep. -/
theorem bodyUnpack_keeps (hpush : ∀ s b, s.olen.toNat < s.cfg.obufCap → P s → P (s.pushByte b))
    (hpos : ∀ s a b, P s → P { s with ipos := a, olen := b }) {s : State} (hs : P s) :
    (bodyUnpack s).Ends (fun _ t => P t) (fun _ _ t => P t) (fun _ => True) := by
  refine Run.Ends.andThen (okP := fun _ t => P t) ?_ fun c t ht => hpos t _ t.olen ht
  exact (unpackLoop_keeps hpush _ _ hs).mono (fun _ _ h => h) (fun _ _ _ h => h.2) (fun _ h => h)

/-- An invariant that does not look at STATUS, ERR and ERRVAL is kept by every command, when each operation that
touches something else keeps it. -/
theorem exec_keeps_of_tables
    (hrecord : ∀ s st e v, P s → P { s with status := st, err := e, errval := v })
    (hpos : ∀ s a b, P s → P { s with ipos := a, olen := b })
    (hpush : ∀ s b, s.olen.toNat < s.cfg.obufCap → P s → P (s.pushByte b))
    (hout : ∀ s p, P s → P (s.discardOutput p)) (hspoil : ∀ s, P s → P s.spoilTree)
    (hfcnt : ∀ s t u, P s → bodyFcnt s = .ok u t → P t) (hbuild : ∀ s t u, P s → bodyBuild s = .ok u t → P t)
    (hderive : ∀ s t u, P s → bodyDerive s = .ok u t → P t) (htdes : ∀ s t u, P s → bodyTdes s = .ok u t → P t)
    (hrcnt : ∀ s n p st, P s → P { s with count := n, ipos := p, status := st })
    (hsrst : ∀ s, P s → P s.softReset) {i : Instr} {s t : State} (hs : P s) (h : exec i s = .next t) : P t := by
  have hstatus : ∀ s st, P s → P { s with status := st } := fun s st hs => hrecord s st s.err s.errval hs
  have hrec : ∀ s k v, P s → P (s.recordFault k v) := fun s k v hs => hrecord s _ _ _ hs
  refine exec_keeps P (fun s => hstatus s _) hrec (fun _ s => P s)
    (fun k v p s hs _ => takeFault_keeps hout hspoil hrec k v p hs)
    (bodies_keep P (fun _ s => P s) (fun s => hstatus s _) hpos ?fcnt ?build ?derive ?tser ?wcnt ?pack ?tdes ?rcnt
      ?unpack (fun s => hrecord s _ _ _) hsrst) s t i hs h
  case fcnt => exact fun s hs => hfcnt s _ () hs rfl
  case build =>
    refine fun s hs _ => Run.ends_of (fun u t => hbuild s t u hs) fun k v t hr => ?_
    have hends := bodyBuild_ends s
    rw [hr] at hends
    obtain ⟨-, -, rfl⟩ := hends
    exact hstatus s _ hs
  case derive =>
    refine fun s hs _ => Run.ends_of (fun u t => hderive s t u hs) fun k v t hr => ?_
    have hends := bodyDerive_ends s
    rw [hr] at hends
    exact hends.elim
  case tser => exact fun s hs => bodyTser_keeps hpush hs
  case wcnt =>
    exact fun s hs => (appendAll_keeps hpush (countBytes s.ilen) hs).mono (fun _ _ h => h) (fun _ _ _ h => h.2)
      (fun _ h => h)
  case pack =>
    exact fun s hs => (bodyPack_keeps hpush hs).mono (fun _ _ h => h) (fun _ _ _ h => h.2) (fun _ h => h)
  case tdes =>
    refine fun s hs => Run.ends_of (fun u t => htdes s t u hs) fun k v t hr => ?_
    have hends := bodyTdes_ends s
    rw [hr] at hends
    obtain ⟨-, rfl⟩ := hends
    exact hstatus s _ hs
  case rcnt =>
    refine fun s hs => (bodyRcnt_ends s).mono (fun _ t ht => ?_) (fun _ _ t ht => ?_) (fun _ h => h.elim)
    · rw [ht]; exact hrcnt s _ _ _ hs
    · rw [ht.2.2]; exact hstatus s _ hs
  case unpack => exact fun s hs => bodyUnpack_keeps hpush hpos hs

end Tables

/-! ## Canonical form -/

/-- The canonical form together with the capacities it is kept under. -/
def State.CanonicalIn (c : Config) (s : State) : Prop := s.Canonical ∧ s.cfg = c

/-- BUILD lists NODE and HEAP with rising addresses, when HEAP's old contents were so listed (log 15). -/
theorem bodyBuild_rising {s t : State} {u : Unit} (hh : rising s.heap.cells = true) (h : bodyBuild s = .ok u t) :
    rising t.node.cells = true ∧ rising t.heap.cells = true := by
  have hstart : (Arena.start s.clearTreeFlags).Rising := ⟨rfl, hh⟩
  have hend := ((hstart.initLeaves s.clearTreeFlags.freqAt (List.range Config.symCount)).combineAll
    Config.heapMax).extract
  simp only [bodyBuild] at h
  split at h
  · cases h
  · cases h; exact hend

/-- TDES lists NODE with rising addresses (log 15). -/
theorem bodyTdes_rising {s t : State} {u : Unit} (h : bodyTdes s = .ok u t) : rising t.node.cells = true := by
  simp only [bodyTdes] at h
  split at h
  · cases h
  next i p hp => cases h; exact des_rising _ _ _ _ _ _ hp rfl

/-- Every command keeps the canonical form and the capacities. -/
theorem exec_keeps_canonical {c : Config} {i : Instr} {s t : State} (hs : s.CanonicalIn c) (h : exec i s = .next t) :
    t.CanonicalIn c := by
  refine exec_keeps_of_tables (P := State.CanonicalIn c) (fun _ _ _ _ hs => ⟨{ hs.1 with }, hs.2⟩)
    (fun _ _ _ hs => ⟨{ hs.1 with }, hs.2⟩) ?push (fun _ _ hs => ⟨{ hs.1 with obuf := rfl }, hs.2⟩)
    (fun _ hs => ⟨{ hs.1 with node := rfl, heap := rfl }, hs.2⟩) ?fcnt ?build ?derive ?tdes
    (fun _ _ _ _ hs => ⟨{ hs.1 with }, hs.2⟩)
    (fun _ hs => ⟨{ hs.1 with freq := rfl, node := rfl, heap := rfl, code := rfl, trie := rfl }, hs.2⟩) hs h
  case push => exact fun s b hcap hs => ⟨{ hs.1 with obuf := Memory.wf_set hcap b hs.1.obuf }, hs.2⟩
  case fcnt =>
    intro s t u hs hr
    cases hr
    exact ⟨{ hs.1 with freq := rising_tabulate _ _ }, hs.2⟩
  case build =>
    intro s t u hs hr
    obtain ⟨hnode, hheap⟩ := bodyBuild_rising hs.1.heap hr
    have hends := bodyBuild_ends s
    rw [hr] at hends
    rw [show t = _ from hends]
    exact ⟨{ hs.1 with node := hnode, heap := hheap }, hs.2⟩
  case derive =>
    intro s t u hs hr
    have hends := bodyDerive_ends s
    rw [hr] at hends
    obtain ⟨T, -, rfl⟩ := hends
    exact ⟨{ hs.1 with code := (deriveTables_rising T).2, trie := (deriveTables_rising T).1 }, hs.2⟩
  case tdes =>
    intro s t u hs hr
    have hnode := bodyTdes_rising hr
    have hends := bodyTdes_ends s
    rw [hr] at hends
    rw [show t = _ from hends]
    exact ⟨{ hs.1 with node := hnode }, hs.2⟩

/-- The reset state of a legal configuration is canonical: nothing is listed (rules R5, R45). -/
theorem resetOf_canonical {c : Config} (hc : c.wf = true) (n : Nat) : (State.resetOf c n).Canonical :=
  ⟨hc, rfl, rfl, rfl, rfl, rfl, rfl, rfl⟩

/-- Every access of the host keeps the canonical form and the capacities: it writes IBUF below IBUF_CAP only. -/
theorem hostAccess_keeps_canonical {c : Config} {m : HostMove} {s t : State} (hs : s.CanonicalIn c)
    (h : hostAccess m s = .next t) : t.CanonicalIn c := by
  rcases hostAccess_cases h with ⟨_, _, _, rfl⟩ | ⟨a, b, ha, rfl⟩ | ⟨_, _, rfl⟩ | rfl
  · exact ⟨{ hs.1 with }, hs.2⟩
  · exact ⟨{ hs.1 with ibuf := Memory.wf_set ha b hs.1.ibuf }, hs.2⟩
  · exact ⟨{ hs.1 with }, hs.2⟩
  · exact ⟨{ resetOf_canonical hs.1.cfg s.fresh with }, hs.2⟩

/-- Settles O56: every list is made by writes of single cells, by tabulating or from nothing, and IBUF and OBUF are
written below their capacities only. -/
theorem stepKeepsCanonicalForm : Obligations.StepKeepsCanonicalForm := fun s t hs h =>
  step_keeps (State.CanonicalIn s.cfg) (fun _ _ _ hs => ⟨{ hs.1 with }, hs.2⟩)
    (fun _ _ _ hs h => exec_keeps_canonical hs h)
    (fun _ w hs =>
      presentIllegal_keeps (fun _ hs => ⟨{ hs.1 with }, hs.2⟩) (fun _ _ _ hs => ⟨{ hs.1 with }, hs.2⟩) w hs)
    (fun _ _ _ hs h => hostAccess_keeps_canonical hs h) s t ⟨hs, rfl⟩ h

end Sys2Proof.Machine
end

section
/-! PROOFS. The ranges of the registers and what the valid flags say of the tables, kept by every step, and that every
command ends: obligations O58, O59, O55 and O60. -/

namespace Sys2Proof.Machine

/-! ## The ranges of NSYM, ROOT, NNODE and HSIZE -/

/-- A faulting BUILD or TDES leaves ROOT, NNODE and HSIZE in their ranges (U5; log 6). -/
theorem spoilTree_keeps_ranges {s : State} (hs : s.RangesOk) : s.spoilTree.RangesOk where
  nsym := hs.nsym
  root := by
    have h := (Config.freeRoot s.fresh).isLt
    rw [State.spoilTree_root, toWord_toNat (by omega)]
    omega
  nnode := by
    have h := (Config.freeNnode s.fresh).isLt
    rw [State.spoilTree_nnode, toWord_toNat (by omega)]
    omega
  hsize := by
    have h := (Config.freeHsize s.fresh).isLt
    rw [State.spoilTree_hsize, ofNat9_toNat (by omega)]
    omega

/-- The reset registers are in their ranges (rule R45). -/
theorem resetOf_ranges (c : Config) (n : Nat) : (State.resetOf c n).RangesOk := by
  constructor <;> simp [State.resetOf]

/-- Every command keeps the four ranges. -/
theorem exec_keeps_ranges {i : Instr} {s t : State} (hs : s.RangesOk) (h : exec i s = .next t) : t.RangesOk := by
  refine exec_keeps_of_tables (fun _ _ _ _ hs => { hs with }) (fun _ _ _ hs => { hs with })
    (fun _ _ _ hs => { hs with }) (fun _ _ hs => { hs with }) (fun _ hs => spoilTree_keeps_ranges hs)
    ?fcnt ?build ?derive ?tdes (fun _ _ _ _ hs => { hs with }) (fun s _ => { resetOf_ranges s.cfg 0 with }) hs h
  case fcnt =>
    intro s t u hs hr
    cases hr
    have hle := countPresent_le s.input
    exact { hs with nsym := (toWord_toNat (show countPresent (freqCells s.input) < 2 ^ 32 by omega)).trans_le hle }
  case build =>
    intro s t u hs hr
    obtain ⟨hroot, hnnode, hhsize, hnsym⟩ := bodyBuild_ranges hr
    exact ⟨hnsym ▸ hs.nsym, hroot, hnnode, hhsize⟩
  case derive =>
    intro s t u hs hr
    have hends := bodyDerive_ends s
    rw [hr] at hends
    obtain ⟨T, -, rfl⟩ := hends
    exact { hs with }
  case tdes =>
    intro s t u hs hr
    obtain ⟨T, hT, -, hnnode, hroot⟩ := bodyTdes_tree hr
    have hends := bodyTdes_ends s
    rw [hr] at hends
    have ht : t = _ := hends
    exact ⟨by rw [ht]; exact hs.nsym, by simp [hroot], by omega, by rw [ht]; exact hs.hsize⟩

/-- No access of the host but the reset input writes the four. -/
theorem hostAccess_keeps_ranges {m : HostMove} {s t : State} (hs : s.RangesOk) (h : hostAccess m s = .next t) :
    t.RangesOk := by
  rcases hostAccess_cases h with ⟨_, _, _, rfl⟩ | ⟨_, _, -, rfl⟩ | ⟨_, _, rfl⟩ | rfl
  · exact { hs with }
  · exact { hs with }
  · exact { hs with }
  · exact { resetOf_ranges s.cfg s.fresh with }

/-- Settles O58: FCNT counts at most 256 symbols, BUILD and TDES make at most 511 entries, and every other operation
leaves the four alone, sets them to 0 or draws them within their ranges. -/
theorem stepKeepsRegisterRanges : Obligations.StepKeepsRegisterRanges :=
  step_keeps State.RangesOk (fun _ _ _ hs => { hs with }) (fun _ _ _ hs h => exec_keeps_ranges hs h)
    (fun _ w hs => presentIllegal_keeps (fun _ hs => { hs with }) (fun _ _ _ hs => { hs with }) w hs)
    (fun _ _ _ hs h => hostAccess_keeps_ranges hs h)

/-! ## What the valid flags say -/

/-- With no valid flag set nothing is said of the tables. -/
theorem tablesOk_of_noFlags {s : State} (hf : s.status.vFreq = false) (ht : s.status.vTree = false)
    (hc : s.status.vCode = false) : s.TablesOk where
  freq := fun h => absurd (hf.symm.trans h) (by decide)
  tree := fun h => absurd (ht.symm.trans h) (by decide)
  code := fun h => absurd (hc.symm.trans h) (by decide)

/-- With V_TREE = V_CODE = 0 only FREQ is spoken of. -/
theorem tablesOk_of_freq {s t : State} (hs : s.TablesOk) (hv : t.status.vFreq = s.status.vFreq) (hf : t.freq = s.freq)
    (hn : t.nsym = s.nsym) (ht : t.status.vTree = false) (hc : t.status.vCode = false) : t.TablesOk where
  freq := by rw [hv, hf, hn]; exact hs.freq
  tree := fun h => absurd (ht.symm.trans h) (by decide)
  code := fun h => absurd (hc.symm.trans h) (by decide)

/-- A faulting BUILD or TDES clears the flags of what it spoils (rules R34, R240). -/
def spoiledTreeHidden (k : FaultKind) (s : State) : Prop :=
  k.spoilsTree = true → s.status.vTree = false ∧ s.status.vCode = false

/-- Taking an execution fault keeps what the flags say. -/
theorem takeFault_keeps_tablesOk {k : FaultKind} {s : State} (hs : s.TablesOk) (hh : spoiledTreeHidden k s)
    (hk : k.isExecution = true) (v p : Word) : (takeFault k v p s).TablesOk := by
  cases hsp : k.spoilsTree with
  | true =>
    obtain ⟨ht, hc⟩ := hh hsp
    rw [takeFault_spoils hsp]
    exact tablesOk_of_freq hs rfl rfl rfl ht hc
  | false =>
    rw [takeFault_execution hk hsp]
    exact { hs with }

/-- Pseudocode that only appends keeps what the flags say, and raises no fault that spoils the tree. -/
theorem appending_keeps_tablesOk {r : Run Unit} {s : State} (hs : s.TablesOk)
    {raiseP : FaultKind → Word → State → Prop} {stopP : Fault → Prop}
    (h : r.Ends (fun _ t => SameButOutput s t) raiseP stopP)
    (hr : ∀ k v t, raiseP k v t → k.spoilsTree = false ∧ SameButOutput s t) :
    r.Ends (fun _ t => t.TablesOk) (fun k _ t => t.TablesOk ∧ spoiledTreeHidden k t) (fun _ => True) := by
  have hout : ∀ t, SameButOutput s t → t.TablesOk := fun t ht => ht.keeps (fun _ _ _ hs => { hs with }) hs
  refine h.mono (fun _ t ht => hout t ht) (fun k v t ht => ?_) (fun _ _ => trivial)
  obtain ⟨hk, hsame⟩ := hr k v t ht
  exact ⟨hout t hsame, fun hsp => absurd (hk.symm.trans hsp) (by decide)⟩

/-- The counts of FCNT's table add up to the length of what it counted (rule R121 (b)). -/
theorem sum_freqAt {s : State} {xs : List Byte} (hl : xs.length < 2 ^ 32) (hf : s.freq.cells = freqCells xs) :
    ((List.range 256).map fun k => (s.freqAt k).toNat).sum = xs.length := by
  rw [← sum_occurrences xs]
  refine congrArg List.sum (List.map_congr_left fun k hk => ?_)
  have hle := occurrences_le k xs
  rw [freqAt_of_cells hf (List.mem_range.mp hk), toWord_toNat (by omega)]

/-- BUILD on a table of FCNT's leaves an arena that holds a tree (rules R37, R141). -/
theorem bodyBuild_tree {s t : State} {u : Unit} {xs : List Byte} (hl : xs.length < 2 ^ 32)
    (hf : s.freq.cells = freqCells xs) (h : bodyBuild s = .ok u t) :
    ∃ T : HuffTree, t.tree? = some T ∧ T.size = t.nnode.toNat ∧ T.size ≤ Config.nodeMax := by
  have hsum : ((List.range 256).map fun k => (s.freqAt k).toNat).sum < 2 ^ 32 := by rwa [sum_freqAt hl hf]
  by_cases hex : ∃ k : Nat, k < 256 ∧ s.freqAt k ≠ 0#32
  · obtain ⟨p, B, -, hrep, -, -, -, hb⟩ := bodyBuild_ok s hsum hex
    obtain ⟨hsize, hindex, htree, -, hle⟩ := rep_denotes hrep
    cases h.symm.trans hb
    refine ⟨p.tree, ?_, ?_, hsize ▸ hle⟩
    · show treeAt B.nodes 511 (toWord p.index).toNat = some p.tree
      rw [toWord_toNat (by omega)]
      exact htree
    · show p.tree.size = (toWord B.nnode).toNat
      rw [toWord_toNat (by omega), hsize]
  · simp only [not_exists, not_and, not_not] at hex
    have hz : s.clearTreeFlags.leavesArena.nnode = 0 := leavesArena_empty s.clearTreeFlags hex
    simp only [bodyBuild, hz, if_true] at h
    cases h

/-- Every command's pseudocode keeps what the flags say, and where it raises a fault that spoils the tree it has
cleared V_TREE and V_CODE (rule R34). -/
theorem bodies_keep_tablesOk (i : Instr) (s : State) (hs : s.TablesOk) (hf : flagsHeld i s.status = true) :
    (bodyOf i s).Ends (fun _ t => t.TablesOk) (fun k _ t => t.TablesOk ∧ spoiledTreeHidden k t)
      (fun _ => True) := by
  refine bodies_keep State.TablesOk (fun k t => t.TablesOk ∧ spoiledTreeHidden k t) (fun _ hs => { hs with })
    (fun _ _ _ hs => { hs with }) ?fcnt ?build ?derive ?tser ?wcnt ?pack ?tdes ?rcnt ?unpack
    (fun _ hs => { hs with }) (fun _ _ => tablesOk_of_noFlags rfl rfl rfl) i s hs hf
  case fcnt =>
    intro s hs
    have hlen : s.input.length < 2 ^ 32 := by rw [input_length]; exact s.ilen.isLt
    exact
      { freq := fun _ => ⟨s.input, hlen, rfl, rfl⟩
        tree := fun h => absurd h Bool.false_ne_true
        code := fun h => absurd h Bool.false_ne_true }
  case build =>
    refine fun s hs hv => Run.ends_of (fun u t hr => ?_) (fun k v t hr => ?_)
    all_goals
      have hends := bodyBuild_ends s
      rw [hr] at hends
    · have ht : t = _ := hends
      obtain ⟨xs, hl, hf, hn⟩ := hs.freq hv
      exact
        { freq := fun _ => ⟨xs, hl, by rw [ht]; exact hf, by rw [ht]; exact hn⟩
          tree := fun _ => bodyBuild_tree hl hf hr
          code := fun h => absurd (h.symm.trans (by rw [ht])) (show true ≠ false by decide) }
    · obtain ⟨-, -, rfl⟩ := hends
      exact ⟨tablesOk_of_freq hs rfl rfl rfl rfl rfl, fun _ => ⟨rfl, rfl⟩⟩
  case derive =>
    intro s hs hv
    refine (bodyDerive_ends s).mono (fun _ t ht => ?_) (fun _ _ _ h => h.elim) (fun _ _ => trivial)
    obtain ⟨T, hT, rfl⟩ := ht
    exact { hs with code := fun _ => ⟨hv, T, hT, rfl, rfl⟩ }
  case tser =>
    exact fun s hs => appending_keeps_tablesOk hs (bodyTser_ends s) fun k v t h => ⟨by rw [h.1]; rfl, h.2.2⟩
  case wcnt =>
    exact fun s hs => appending_keeps_tablesOk hs (bodyWcnt_ends s) fun k v t h => ⟨by rw [h.1]; rfl, h.2.2⟩
  case pack =>
    refine fun s hs => appending_keeps_tablesOk hs (bodyPack_ends s) fun k v t h => ⟨?_, h.2⟩
    rcases h.1 with rfl | rfl <;> rfl
  case tdes =>
    refine fun s hs => Run.ends_of (fun u t hr => ?_) (fun k v t hr => ?_)
    all_goals
      have hends := bodyTdes_ends s
      rw [hr] at hends
    · have ht : t = _ := hends
      obtain ⟨T, hT, htree, hnnode, -⟩ := bodyTdes_tree hr
      exact
        { freq := by rw [ht]; exact hs.freq
          tree := fun _ => ⟨T, htree, hnnode.symm, hT⟩
          code := fun h => absurd (h.symm.trans (by rw [ht])) (show true ≠ false by decide) }
    · obtain ⟨-, rfl⟩ := hends
      exact ⟨tablesOk_of_freq hs rfl rfl rfl rfl rfl, fun _ => ⟨rfl, rfl⟩⟩
  case rcnt =>
    refine fun s hs => (bodyRcnt_ends s).mono (fun _ t ht => ?_) (fun k v t ht => ?_) (fun _ h => h.elim)
    · rw [ht]; exact { hs with }
    · obtain ⟨rfl, -, rfl⟩ := ht
      exact ⟨{ hs with }, fun h => absurd h Bool.false_ne_true⟩
  case unpack =>
    refine fun s hs => (bodyUnpack_ends s).mono (fun _ t ht => ?_) (fun k v t ht => ?_) (fun _ h => h.elim)
    · rw [ht]; exact { hs with }
    · refine ⟨ht.2.keeps (fun _ _ _ hs => { hs with }) hs, fun hsp => ?_⟩
      rcases ht.1 with rfl | rfl | rfl <;> cases hsp

/-- Every access of the host keeps what the flags say: none writes a table, and the reset input clears the flags. -/
theorem hostAccess_keeps_tablesOk {m : HostMove} {s t : State} (hs : s.TablesOk) (h : hostAccess m s = .next t) :
    t.TablesOk := by
  rcases hostAccess_cases h with ⟨_, _, _, rfl⟩ | ⟨_, _, -, rfl⟩ | ⟨_, _, rfl⟩ | rfl
  · exact { hs with }
  · exact { hs with }
  · exact { hs with }
  · exact tablesOk_of_noFlags rfl rfl rfl

/-- Settles O59: FCNT, BUILD, TDES and DERIVE set a flag over tables they have just made from what the earlier flags
say, each clears the flags of the tables that rest on its own, and no other operation writes a table whose flag it
leaves set. -/
theorem stepKeepsTablesValid : Obligations.StepKeepsTablesValid :=
  step_keeps State.TablesOk (fun _ _ _ hs => { hs with })
    (exec_keeps State.TablesOk (fun _ hs => { hs with }) (fun _ _ _ hs => { hs with })
      (fun k t => t.TablesOk ∧ spoiledTreeHidden k t)
      (fun _ v p _ hs hk => takeFault_keeps_tablesOk hs.1 hs.2 hk v p) bodies_keep_tablesOk)
    (fun _ w hs => presentIllegal_keeps (fun _ hs => { hs with }) (fun _ _ _ hs => { hs with }) w hs)
    (fun _ _ _ hs h => hostAccess_keeps_tablesOk hs h)

/-! ## Reset -/

/-- Rule R45: the reset state of a legal configuration meets the four invariants. -/
theorem resetOf_invariants {c : Config} (hc : c.wf = true) (n : Nat) :
    (State.resetOf c n).Canonical ∧ (State.resetOf c n).RecordOk ∧ (State.resetOf c n).RangesOk ∧
      (State.resetOf c n).TablesOk :=
  ⟨resetOf_canonical hc n, recordOk_of_noFault rfl rfl rfl rfl, resetOf_ranges c n,
    tablesOk_of_noFlags rfl rfl rfl⟩

/-- Settles O55: after reset nothing is listed, every register is 0 and no flag is set. -/
theorem resetMeetsInvariants : Obligations.ResetMeetsInvariants :=
  ⟨resetOf_invariants (by decide) 0, fun _ n hc => resetOf_invariants hc n⟩

/-! ## Every command ends -/

/-- A piece of pseudocode that never stops the model. -/
def Run.Answers {α : Type} (r : Run α) : Prop := r.Ends (fun _ _ => True) (fun _ _ _ => True) (fun _ => False)

theorem Run.Ends.answers {α : Type} {r : Run α} {okP : α → State → Prop}
    {raiseP : FaultKind → Word → State → Prop} (h : r.Ends okP raiseP (fun _ => False)) : r.Answers :=
  h.mono (fun _ _ _ => trivial) (fun _ _ _ _ => trivial) (fun _ h => h)

/-- What answers becomes a next state. -/
theorem Run.Answers.finish {r : Run Unit} (h : r.Answers) (p : Word) : ∃ t : State, finish p r = .next t := by
  cases r with
  | ok u s => exact ⟨s, rfl⟩
  | raise k v s => exact ⟨takeFault k v p s, rfl⟩
  | stop x => exact h.elim

theorem Run.Answers.completing {body : State → Run Unit} {s : State} (h : (body s).Answers) :
    (completing body s).Answers :=
  Run.Ends.andThen h fun _ _ _ => trivial

/-- COMPRESS is EmptyInput on an empty input, else one append (rules R208, R256). -/
theorem bodyCompress_cases (s : State) :
    (∃ u, bodyCompress s = .raise .emptyInput 0#32 u) ∨ ∃ bs u, bodyCompress s = appendAll bs u := by
  by_cases h0 : s.ilen = 0#32
  · obtain ⟨u, hu, -⟩ := bodyCompress_empty s h0
    exact .inl ⟨u, hu⟩
  · have h1 : 1 ≤ s.ilen.toNat := by
      by_contra hlt
      exact h0 (BitVec.eq_of_toNat_eq (by simpa using hlt))
    obtain ⟨T, u, -, -, -, hb, -⟩ := bodyCompress_ok s h1
    exact .inr ⟨_, u, hb⟩

/-- COMPRESS ends, whatever its input. -/
theorem bodyCompress_answers (s : State) : (bodyCompress s).Answers := by
  rcases bodyCompress_cases s with ⟨u, hu⟩ | ⟨bs, u, hu⟩ <;> rw [hu]
  · trivial
  · exact (appendAll_ends bs u).answers

/-- DECOMPRESS ends: TDES leaves a tree for DERIVE, which RCNT keeps (rules R169, R210). -/
theorem bodyDecompress_answers (s : State) : (bodyDecompress s).Answers := by
  refine Run.Ends.andThen (okP := fun _ s1 => ∃ T, s1.tree? = some T) ?tdes fun _ s1 h1 => ?_
  case tdes =>
    have hends := bodyTdes_ends { s with ipos := 0#32, olen := 0#32 }
    cases hr : bodyTdes { s with ipos := 0#32, olen := 0#32 } with
    | ok u t =>
      obtain ⟨T, -, htree, -⟩ := bodyTdes_tree hr
      exact ⟨T, htree⟩
    | raise k v t => trivial
    | stop x => rw [hr] at hends; exact hends
  refine Run.Ends.andThen (okP := fun _ s2 => s2.tree? = s1.tree?) ?rcnt fun _ s2 h2 => ?_
  case rcnt =>
    exact (bodyRcnt_ends s1).mono (fun _ t ht => by rw [ht]; rfl) (fun _ _ _ _ => trivial) (fun _ h => h)
  obtain ⟨T, hT⟩ := h1
  rw [bodyDerive_ok (h2.trans hT), Run.andThen_ok]
  exact (bodyUnpack_ends _).answers

/-- TSER appends the serialization of the tree its arena denotes (rules R165, R166). -/
theorem bodyTser_of_tree {s : State} {T : HuffTree} (hT : s.tree? = some T) : bodyTser s = appendAll (ser T) s := by
  simp only [bodyTser, hT]

/-- Rules R235, R275: a command whose flags are held answers, when the flags say what they should. -/
theorem bodyOf_answers {i : Instr} {s : State} (hs : s.TablesOk) (hf : flagsHeld i s.status = true) :
    (bodyOf i s).Answers := by
  cases i with
  | fcnt | clrerr | srst => trivial
  | build => exact (bodyBuild_ends s).answers.completing
  | derive =>
    obtain ⟨T, hT, -⟩ := hs.tree hf
    have h : (bodyDerive s).Answers := by rw [bodyDerive_ok hT]; trivial
    exact h.completing
  | tser =>
    obtain ⟨T, hT, -⟩ := hs.tree hf
    have h : (bodyTser s).Answers := by rw [bodyTser_of_tree hT]; exact (appendAll_ends (ser T) s).answers
    exact h.completing
  | wcnt => exact (bodyWcnt_ends s).answers.completing
  | pack => exact (bodyPack_ends s).answers.completing
  | tdes => exact (bodyTdes_ends s).answers.completing
  | rcnt => exact (bodyRcnt_ends s).answers.completing
  | unpack => exact (bodyUnpack_ends s).answers.completing
  | compress => exact (bodyCompress_answers s).completing
  | decompress => exact (bodyDecompress_answers s).completing

/-- Settles O60: acceptance answers in every case, and of the pseudocode only DERIVE and TSER can stop the model, on an
arena that denotes no tree, which V_TREE = 1 rules out. -/
theorem everyCommandEnds : Obligations.EveryCommandEnds := by
  intro s i hs
  rcases exec_cases i s with ⟨-, -, h⟩ | ⟨-, ⟨-, h⟩ | ⟨-, -, h⟩ | ⟨hf, -, h⟩⟩
  · exact ⟨_, h⟩
  · exact ⟨_, h⟩
  · exact ⟨_, h⟩
  · have hf' : flagsHeld i s.clearDone.status = true := by rw [← hf]; cases i <;> rfl
    rw [h]
    exact (bodyOf_answers (s := s.clearDone) { hs with } hf').finish s.ipos

end Sys2Proof.Machine
end

section
/-! PROOFS. The host's accesses (10_state.md): registers and STATUS, the two buffers, the observation port, the reset
input, and the script lines LOAD and MOVE: obligations O5 to O11. -/

namespace Sys2Proof.Machine

/-! ## STATUS as a word -/

/-- Rule R22: STATUS reads below 2^8. -/
theorem Status.word_lt (st : Status) : st.word.toNat < 2 ^ 8 := by
  have hbit : ∀ b k, bitAt b k ≤ 2 ^ k := fun b k => by cases b <;> simp [bitAt]
  have h0 := hbit st.busy 0
  have h1 := hbit st.done 1
  have h2 := hbit st.err 2
  have h4 := hbit st.vFreq 4
  have h5 := hbit st.vTree 5
  have h6 := hbit st.vCode 6
  have h7 := hbit st.vCount 7
  show (toWord _).toNat < 2 ^ 8
  rw [toWord_toNat (by omega)]
  omega

/-- Rule R22: STATUS's bits from 8 on read 0. -/
theorem Status.word_highBits (st : Status) {k : Nat} (hk : 8 ≤ k) : st.word.getLsbD k = false :=
  Nat.testBit_lt_two_pow (st.word_lt.trans_le (Nat.pow_le_pow_right (by decide) hk))

/-- Rule R22: bits 0 to 7 of STATUS. -/
theorem Status.word_lowBits (st : Status) :
    st.word.getLsbD 0 = st.busy ∧ st.word.getLsbD 1 = st.done ∧ st.word.getLsbD 2 = st.err ∧
      st.word.getLsbD 3 = false ∧ st.word.getLsbD 4 = st.vFreq ∧ st.word.getLsbD 5 = st.vTree ∧
      st.word.getLsbD 6 = st.vCode ∧ st.word.getLsbD 7 = st.vCount := by
  obtain ⟨busy, done, err, vFreq, vTree, vCode, vCount⟩ := st
  revert busy done err vFreq vTree vCode vCount
  decide

/-- Settles O6: the eight low bits are read off case by case of the flags, and the word is below 2^8. -/
theorem statusWordBits : Obligations.StatusWordBits := by
  intro s k
  obtain ⟨h0, h1, h2, h3, h4, h5, h6, h7⟩ := s.status.word_lowBits
  exact ⟨h0, h1, h2, h3, h4, h5, h6, h7, s.status.word_highBits⟩

/-! ## Registers -/

/-- Rule R32: a register number that is not assigned reads 0. -/
theorem readReg_unassigned (s : State) {n : Nat} (hn : 11 ≤ n) : readReg s n = 0#32 := by
  obtain ⟨k, rfl⟩ := Nat.exists_eq_add_of_le' hn
  rfl

/-- Rule R32: only CMD, ILEN, IPOS and OLEN take a write. -/
theorem writeReg_ignored (s : State) {n : Nat} (v : Word) (h0 : n ≠ 0) (h4 : n ≠ 4) (h5 : n ≠ 5) (h6 : n ≠ 6) :
    hostMove (.writeReg n v) s = .next s := by
  have hm : ∀ w : Word, HostMove.writeReg n v ≠ .writeReg 0 w := fun w h => h0 (HostMove.writeReg.inj h).1
  rw [hostMove_eq_hostAccess hm]
  show Host.Outcome.next (writeReg n v s) = .next s
  unfold writeReg
  split
  · exact absurd rfl h4
  · exact absurd rfl h5
  · exact absurd rfl h6
  · rfl

/-- Rule R236: ERR reads below 2^8 in every state whose record is consistent. -/
theorem State.RecordOk.err_highBits {s : State} (hs : s.RecordOk) {k : Nat} (hk : 8 ≤ k) :
    s.err.getLsbD k = false := by
  have hlt : s.err.toNat < 2 ^ 8 := by
    cases he : s.status.err with
    | false => rw [hs.err.mpr he]; decide
    | true =>
      obtain ⟨f, hf⟩ := hs.kind he
      rw [hf]
      cases f <;> decide
  exact Nat.testBit_lt_two_pow (hlt.trans_le (Nat.pow_le_pow_right (by decide) hk))

/-- Settles O5: each number reads its register, three numbers take a write, and STATUS and ERR are below 2^8. -/
theorem hostRegisterAccess : Obligations.HostRegisterAccess := by
  intro s n v
  refine ⟨rfl, ⟨rfl, rfl, rfl, rfl, rfl, rfl, rfl, rfl, rfl⟩, fun hn => ⟨readReg_unassigned s hn, ?_⟩, fun hn => ?_,
    rfl, rfl, rfl, rfl, s.status.word_lowBits.2.2.2.1, fun _ => s.status.word_highBits, fun hs _ => hs.err_highBits⟩
  · exact writeReg_ignored s v (by omega) (by omega) (by omega) (by omega)
  · simp only [List.mem_cons, List.not_mem_nil, or_false] at hn
    exact writeReg_ignored s v (by omega) (by omega) (by omega) (by omega)

/-! ## Buffers -/

/-- Rule R67: a host read changes nothing but what it returned and the count of draws. -/
theorem hostRead_frame {n i w a : Nat} {m : HostMove} {s t : State}
    (hm : m ∈ [.readReg n, .readIbuf a, .readObuf a, .readTable n i w]) (h : hostMove m s = .next t) :
    t = { s with rdata := t.rdata, fresh := t.fresh } := by
  simp only [List.mem_cons, List.not_mem_nil, or_false] at hm
  rcases hm with rfl | rfl | rfl | rfl
  · cases h; rfl
  · simp only [hostMove, hostAccess] at h
    split at h <;> cases h
    rfl
  · simp only [hostMove, hostAccess] at h
    split at h
    · split at h <;> cases h <;> rfl
    · cases h
  · simp only [hostMove, hostAccess] at h
    split at h <;> cases h <;> rfl

/-- Settles O7: a write sets one cell of IBUF, a read within the buffer answers with the cell, and no read does
more. -/
theorem hostBufferAccess : Obligations.HostBufferAccess := by
  intro s a b
  refine ⟨fun ha => ⟨{ s with ibuf := s.ibuf.set a b }, if_pos ha, ?_, fun c hc => ?_, rfl⟩, fun ha => if_pos ha,
    fun ha ho => (if_pos ha).trans (if_pos ho), fun _ _ _ _ _ => hostRead_frame⟩
  · exact Store.read_set_self _ _ _ _
  · exact Store.read_set_ne _ _ hc _

/-! ## The observation port -/

/-- Rule R47: where the port's value is specified a read of a table returns it. -/
theorem readTable_of_portValue {s : State} {table index word : Nat} {v : Word}
    (h : portValue s table index word = some v) :
    hostMove (.readTable table index word) s = .next { s with rdata := v } := by
  simp only [hostMove, hostAccess, h]
  rfl

/-- FREQ's words (rule R47). -/
theorem portValue_freq {s : State} {k : Nat} (hv : s.status.vFreq = true) (hk : k < 256) (word : Nat) :
    portValue s 0 k word = some (if word = 0 then s.freqAt k else 0#32) := by
  simp [portValue, hv, hk]

/-- NODE's words (rule R47). -/
theorem portValue_node {s : State} {i : Nat} {e : NodeEntry} (hv : s.status.vTree = true) (hi : i < s.nnode.toNat)
    (he : s.node.get? i = some e) (word : Nat) :
    portValue s 1 i word = some
      (if word = 0 then e.freq else if word = 1 then packedEntry e.leaf e.left e.right e.sym else 0#32) := by
  simp [portValue, hv, hi, he]

/-- CODE's words (rule R47). -/
theorem portValue_code {s : State} {k : Nat} (hv : s.status.vCode = true) (hk : k < 256) (word : Nat) :
    portValue s 2 k word = some
      (if word = 0 then toWord (bitAt (s.codeAt k).valid 31 + (s.codeAt k).bits.length % 256)
       else if word ≤ 8 then codeWord (s.codeAt k).bits (word - 1) else 0#32) := by
  simp [portValue, hv, hk]

/-- TRIE's words (rule R47). -/
theorem portValue_trie {s : State} {i : Nat} (hv : s.status.vCode = true) (hi : i < s.trieInUse) (word : Nat) :
    portValue s 3 i word = some
      (if word = 0 then packedEntry (s.trieAt i).leaf (s.trieAt i).c0 (s.trieAt i).c1 (s.trieAt i).sym
       else 0#32) := by
  simp [portValue, hv, hi]

/-- Rule R47: a table number from 4 on is assigned to no table. -/
theorem portValue_unassigned (s : State) {table : Nat} (ht : 4 ≤ table) (index word : Nat) :
    portValue s table index word = some 0#32 := by
  obtain ⟨k, rfl⟩ := Nat.exists_eq_add_of_le' ht
  rfl

/-- The fields of CODE's word 0: valid at bit 31, the length at bits 7:0 (rule R47). -/
theorem validLength_fields (valid : Bool) {n : Nat} (hn : n ≤ 255) :
    (toWord (bitAt valid 31 + n % 256)).getLsbD 31 = valid ∧
      ((toWord (bitAt valid 31 + n % 256)).extractLsb' 0 8).toNat = n ∧
      (toWord (bitAt valid 31 + n % 256)).extractLsb' 8 23 = 0#23 := by
  have hb : bitAt valid 31 = if valid then 2147483648 else 0 := rfl
  have hw : (toWord (bitAt valid 31 + n % 256)).toNat = bitAt valid 31 + n := by
    rw [Nat.mod_eq_of_lt (by omega), toWord_toNat (by rw [hb]; split <;> omega)]
  refine ⟨?_, ?_, ?_⟩
  · rw [BitVec.getLsbD, hw, Nat.testBit_eq_decide_div_mod_eq, hb]
    cases valid <;> simp <;> omega
  · rw [BitVec.extractLsb'_toNat, hw, hb]
    cases valid <;> simp <;> omega
  · apply BitVec.eq_of_toNat_eq
    rw [BitVec.extractLsb'_toNat, hw, Nat.shiftRight_eq_div_pow, hb]
    cases valid <;> simp <;> omega

/-- Settles O8: each word is the one `portValue` gives, whose packed fields are read off bit by bit. -/
theorem observationPortWords : Obligations.ObservationPortWords := by
  refine ⟨fun s k hv hk => ⟨?_, fun j hj => ?_⟩, fun s i e hv hi he => ⟨?_, fun j hj => ?_, ?_⟩,
    fun s k hv hk hlen => ⟨?_, fun j hj => ?_, fun j hj => ?_⟩, fun s i hv hi => ⟨fun j hj => ?_, ?_⟩,
    fun s table i j ht => readTable_of_portValue (portValue_unassigned s ht i j)⟩
  · exact readTable_of_portValue (portValue_freq hv hk 0)
  · exact readTable_of_portValue (by rw [portValue_freq hv hk, if_neg (by omega)])
  · exact readTable_of_portValue (portValue_node hv hi he 0)
  · exact readTable_of_portValue (by rw [portValue_node hv hi he, if_neg (by omega), if_neg (by omega)])
  · exact ⟨_, readTable_of_portValue (portValue_node hv hi he 1), packed_bits e.leaf e.left e.right e.sym⟩
  · exact ⟨_, readTable_of_portValue (portValue_code hv hk 0), validLength_fields _ hlen⟩
  · refine ⟨codeWord (s.codeAt k).bits j, readTable_of_portValue ?_, fun b hb => codeWord_bits _ j b hb⟩
    rw [portValue_code hv hk, if_neg (by omega), if_pos (by omega), Nat.add_sub_cancel_left]
  · exact readTable_of_portValue (by rw [portValue_code hv hk, if_neg (by omega), if_neg (by omega)])
  · exact readTable_of_portValue (by rw [portValue_trie hv hi, if_neg (by omega)])
  · exact ⟨_, readTable_of_portValue (portValue_trie hv hi 0), packed_bits _ _ _ _⟩

/-! ## Script lines -/

/-- A pending access is performed in one step of a run (log 2). -/
theorem run_access {k : Nat} {m : HostMove} {rest : List ScriptLine} {s t : State} (hs : s.script = .access m :: rest)
    (h : hostMove m { s with script := rest } = .next t) : core.run (k + 1) s = core.run k t :=
  run_next ((step_access hs).trans h)

/-- Settles O9: LOAD expands to the writes of its bytes and of ILEN and IPOS, and each is one step. -/
theorem loadLineFillsInput : Obligations.LoadLineFillsInput := by
  intro s bytes rest hs hw hfit
  have hcap := Config.ibufCap_lt hw
  set tail := [.access (.writeReg 4 (toWord bytes.length)), .access (.writeReg 5 0#32)] ++ rest
  have hexpand : step s = .next { s with script := writeBytes 0 bytes ++ tail } := by
    simp [step, hs, expand, tail]
  obtain ⟨m, hrun, hin, hout⟩ := run_writeBytes bytes 0 { s with script := writeBytes 0 bytes ++ tail } tail rfl
    (by simpa using hfit) 2
  refine ⟨{ s with ibuf := m, ilen := toWord bytes.length, ipos := 0#32, script := rest }, ?_, ?_,
    fun a ha => hout a (.inr (by omega)), rfl⟩
  · rw [show bytes.length + 3 = (bytes.length + 2) + 1 from rfl, run_next hexpand, hrun, run_access rfl rfl,
      run_access rfl rfl]
    rfl
  · refine input_eq_of_bytes (toWord_toNat (by omega)) fun k b hk => ?_
    have h := hin k b hk
    rw [Nat.zero_add] at h
    exact h

/-- Settles O10: MOVE expands to the read of OLEN, a read of OBUF and a write of IBUF for each byte, and the writes of
the three registers, and each is one step. -/
theorem moveLineCopiesOutput : Obligations.MoveLineCopiesOutput := by
  intro s rest hs hi ho
  set tail := [.access (.writeReg 4 s.olen), .access (.writeReg 5 0#32), .access (.writeReg 6 0#32)] ++ rest
  have hexpand : step s =
      .next { s with script := .access (.readReg 6) :: (copyBytes s 0 s.olen.toNat ++ tail) } := by
    simp [step, hs, expand, tail]
  obtain ⟨m, w, hrun, hin, hout⟩ := run_copyBytes s.olen.toNat 0 s
    { s with rdata := s.olen, script := copyBytes s 0 s.olen.toNat ++ tail } tail rfl rfl (by simpa using hi)
    (by simpa using ho) (by simp) 3
  refine ⟨{ s with ibuf := m, ilen := s.olen, ipos := 0#32, olen := 0#32, rdata := w, script := rest }, ?_, ?_,
    fun a ha => hout a (.inr (by omega)), rfl⟩
  · rw [show 2 * s.olen.toNat + 5 = (2 * s.olen.toNat + 3) + 1 + 1 from rfl, run_next hexpand, run_access rfl rfl]
    refine hrun.trans ?_
    rw [run_access rfl rfl, run_access rfl rfl, run_access rfl rfl]
    rfl
  · refine List.map_congr_left fun k hk => ?_
    have h := hin k (List.mem_range.mp hk)
    rw [Nat.zero_add] at h ⊢
    exact h

/-! ## Reset -/

/-- Where every register is 0 every register number reads 0. -/
theorem readReg_resetOf (c : Config) (n k : Nat) : readReg (State.resetOf c n) k = 0#32 := by
  unfold readReg
  split <;> rfl

/-- Settles O11: hardware reset is the reset state but for what the host owns, which no register shows. -/
theorem hardwareResetRegisters : Obligations.HardwareResetRegisters :=
  ⟨readReg_resetOf Config.default64 0, rfl, fun s =>
    ⟨s.hardwareReset, rfl, readReg_resetOf s.cfg s.fresh, rfl, rfl, rfl⟩⟩

end Sys2Proof.Machine
end

section
/-! PROOFS. What a command can report (60_exceptions.md): the order of the checks, the fault matrix, what an execution
fault discards, and SRST: obligations O15, O17, O18, O19 and O21. -/

namespace Sys2Proof.Machine

/-! ## The order of the checks -/

/-- Rule R93: the word 0x00000106 is no command's. -/
theorem ne_encode_of_highBit (i : Instr) : 0x00000106#32 ≠ encode i := by cases i <;> decide

/-- Settles O15: PACK's missing flag is checked before its length, a word's decoding before both, and STATUS.ERR
before everything. -/
theorem preExecutionCheckOrder : Obligations.PreExecutionCheckOrder := by
  intro s rest hv _
  refine ⟨fun he => exec_missingFlag he hv, fun he hs => ?_, fun he => exec_ignored he (by decide) (by decide),
    fun he hs => ?_⟩
  · rw [step_presents hs, presentWord_of_ne_encode ne_encode_of_highBit,
      presentIllegal_raises (s := { s with script := rest }) he]
    rfl
  · rw [step_presents hs, presentWord_of_ne_encode ne_encode_of_highBit,
      presentIllegal_ignored (s := { s with script := rest }) he]

/-! ## What taking a fault writes -/

/-- Rule R238: STATUS after a fault. -/
theorem takeFault_status (k : FaultKind) (v p : Word) (s : State) :
    (takeFault k v p s).status = { s.status with done := false, err := true } := by
  obtain ⟨-, -, -, -, -, -, -, -, -, -, h, -, -⟩ := takeFault_kept k v p s
  exact h

/-- Rule R238: ERR after a fault. -/
theorem takeFault_err (k : FaultKind) (v p : Word) (s : State) : (takeFault k v p s).err = k.errWord := by
  obtain ⟨-, -, -, -, -, -, -, -, -, -, -, h, -⟩ := takeFault_kept k v p s
  exact h

/-! ## What a command has done when it gives a next state -/

/-- Everything a command that gives a next state can have done (rule R225): nothing, a check that failed, its
pseudocode to the end, or its pseudocode up to a fault. -/
theorem exec_next_cases {i : Instr} {s t : State} (h : exec i s = .next t) :
    (s.status.err = true ∧ t = s) ∨
    (∃ k : FaultKind, (k = .sequenceError ∨ k = .lengthError) ∧ t = s.clearDone.recordFault k (encode i)) ∨
    bodyOf i s.clearDone = .ok () t ∨
    (∃ (k : FaultKind) (v : Word) (u : State), bodyOf i s.clearDone = .raise k v u ∧ t = takeFault k v s.ipos u) := by
  rcases exec_cases i s with ⟨he, -, h'⟩ | ⟨-, ⟨-, h'⟩ | ⟨-, -, h'⟩ | ⟨-, -, h'⟩⟩
  · cases h'.symm.trans h
    exact .inl ⟨he, rfl⟩
  · cases h'.symm.trans h
    exact .inr (.inl ⟨_, .inl rfl, rfl⟩)
  · cases h'.symm.trans h
    exact .inr (.inl ⟨_, .inr rfl, rfl⟩)
  · rw [h'] at h
    cases hr : bodyOf i s.clearDone with
    | ok u s' => rw [hr] at h; cases h; exact .inr (.inr (.inl rfl))
    | raise k v s' => rw [hr] at h; cases h; exact .inr (.inr (.inr ⟨k, v, s', rfl, rfl⟩))
    | stop x => rw [hr] at h; cases h

/-- Rule R236: codes 1, 2, 5 and 6 are those of the execution faults. -/
theorem errCode_mem_execution_iff (k : FaultKind) : errCode k.errWord ∈ [1, 2, 5, 6] ↔ k.isExecution = true := by
  cases k <;> decide

/-- Rule R240: an execution fault empties the output and puts IPOS back. -/
theorem takeFault_discards {k : FaultKind} (hk : k.isExecution = true) (v p : Word) (s : State) :
    (takeFault k v p s).olen = 0#32 ∧ (takeFault k v p s).ipos = p := by
  cases hsp : k.spoilsTree with
  | true => rw [takeFault_spoils hsp]; exact ⟨rfl, rfl⟩
  | false => rw [takeFault_execution hk hsp]; exact ⟨rfl, rfl⟩

/-- A command whose pseudocode reaches its end without a fault before it has none after it. -/
theorem status_err_of_ok {i : Instr} {s t : State} (he : s.status.err = false)
    (h : bodyOf i s = .ok () t) : t.status.err = false := by
  have hends := bodyOf_ends i s
  rw [h] at hends
  obtain ⟨-, -, hsame, hclear, -⟩ := hends
  by_cases hi : i = .clrerr ∨ i = .srst
  · exact (hclear hi).1
  · rw [not_or] at hi
    exact (hsame hi.2 hi.1).1.trans he

/-- Settles O17: ERR shows an execution fault, so the command was executed and raised it, and taking it discards the
output and puts IPOS back; the pseudocode itself has written neither IBUF nor ILEN, and has cleared its flags. -/
theorem executionFaultDiscardsOutput : Obligations.ExecutionFaultDiscardsOutput := by
  intro s t i he h ht hc
  rcases exec_next_cases h with ⟨he', -⟩ | ⟨k, hk, rfl⟩ | hr | ⟨k, v, u, hr, rfl⟩
  · exact absurd (he.symm.trans he') (by decide)
  · have hx := (errCode_mem_execution_iff k).mp hc
    rcases hk with rfl | rfl <;> cases hx
  · exact absurd ((status_err_of_ok (s := s.clearDone) he hr).symm.trans ht) (by decide)
  · have hends := bodyOf_ends i s.clearDone
    rw [hr] at hends
    obtain ⟨hkept, hk, htree, hcount⟩ := hends
    have hsrst : i ≠ .srst := by rintro rfl; exact hk
    obtain ⟨holen, hipos⟩ := takeFault_discards (raisable_isExecution hk) v s.ipos u
    obtain ⟨hcfg, hilen, hcnt, -, -, -, -, hibuf, -, -, hstatus, -, -⟩ := takeFault_kept k v s.ipos u
    refine ⟨holen, hipos, hibuf.trans hkept.ibuf, hilen.trans (hkept.ilen hsrst), hcfg.trans hkept.cfg,
      by rw [hstatus], fun hi => ?_, fun hi => ?_⟩
    · rw [hstatus]; exact htree hi
    · rw [hstatus]; exact ⟨(hcount hi).1, hcnt.trans (hcount hi).2⟩

/-! ## The fault matrix -/

/-- Rule R255: COMPRESS never meets a symbol without a code, since BUILD gave every symbol of the input one. -/
theorem bodyCompress_raise {s u : State} {k : FaultKind} {v : Word} (h : bodyCompress s = .raise k v u) :
    k = .emptyInput ∨ k = .outputOverflow := by
  rcases bodyCompress_cases s with ⟨w, hw⟩ | ⟨bs, w, hw⟩
  · cases h.symm.trans hw
    exact .inl rfl
  · have hends := appendAll_ends bs w
    rw [← hw, h] at hends
    exact .inr hends.1

/-- Rule R255: what an executed command's pseudocode raises: `raisable`, but for COMPRESS. -/
theorem kind_of_raise {i : Instr} {s u : State} {k : FaultKind} {v : Word} (h : bodyOf i s = .raise k v u) :
    raisable i k ∧ (i = .compress → k ≠ .noCode) := by
  have hends := bodyOf_ends i s
  rw [h] at hends
  refine ⟨hends.2.1, ?_⟩
  rintro rfl rfl
  have hb : completing bodyCompress s = .raise .noCode v u := h
  cases hr : bodyCompress s with
  | ok a t => rw [completing, hr] at hb; cases hb
  | stop x => rw [completing, hr] at hb; cases hb
  | raise k' v' u' =>
    rw [completing, hr] at hb
    cases hb
    rcases bodyCompress_raise hr with hk | hk <;> cases hk

/-- Everything the record can say after an accepted command, with the checks that failed (rules R225, R255). -/
theorem exec_fault_kind {i : Instr} {s t : State} (he : s.status.err = false) (h : exec i s = .next t)
    (ht : t.status.err = true) :
    (flagsHeld i s.status = false ∧ t.err = 0x04#32) ∨ (lengthsHeld i s = false ∧ t.err = 0x07#32) ∨
      ∃ k : FaultKind, raisable i k ∧ (i = .compress → k ≠ .noCode) ∧ t.err = k.errWord := by
  rcases exec_err_cases he h ht with ⟨hf, hw⟩ | ⟨-, hl, hw⟩ | ⟨hf, hl, -⟩
  · exact .inl ⟨hf, hw⟩
  · exact .inr (.inl ⟨hl, hw⟩)
  · have h' := (exec_ready he hf hl).symm.trans h
    cases hr : bodyOf i s.clearDone with
    | ok u s' =>
      rw [hr] at h'
      cases h'
      exact absurd ((status_err_of_ok (s := s.clearDone) he hr).symm.trans ht) (by decide)
    | raise k v u =>
      rw [hr] at h'
      cases h'
      obtain ⟨hk, hnc⟩ := kind_of_raise hr
      exact .inr (.inr ⟨k, hk, hnc, takeFault_err k v s.ipos u⟩)
    | stop x => rw [hr] at h'; cases h'

/-- Settles O18: SequenceError comes from the commands with a flag, LengthError from those with a length condition,
and the rest is what each command's pseudocode can raise. -/
theorem faultMatrix : Obligations.FaultMatrix := by
  intro s t i he h ht
  rcases exec_fault_kind he h ht with ⟨hf, hw⟩ | ⟨hl, hw⟩ | ⟨k, hk, hnc, hw⟩ <;> rw [hw]
  · cases i with
    | build | derive | tser | pack | unpack => decide
    | _ => cases hf
  · cases i with
    | build | derive | tser | clrerr | srst => cases hl
    | _ => decide
  · cases i with
    | fcnt | derive | clrerr | srst => exact hk.elim
    | build | tser | wcnt | rcnt => cases hk; decide
    | pack => rcases hk with rfl | rfl <;> decide
    | tdes => rcases hk with rfl | rfl | rfl <;> decide
    | unpack => rcases hk with rfl | rfl | rfl <;> decide
    | compress =>
      rcases hk with rfl | rfl | rfl
      · decide
      · decide
      · exact absurd rfl (hnc rfl)
    | decompress => rcases hk with (rfl | rfl | rfl) | rfl | rfl | rfl | rfl <;> decide

/-! ## What every command keeps and reports -/

/-- Settles O19: an ignored command changes nothing, a failed check and a fault set ERR and clear DONE, pseudocode
that reaches its end sets DONE, and no pseudocode writes IBUF. -/
theorem commandsReportAndKeepInput : Obligations.CommandsReportAndKeepInput := by
  intro s t i h
  have hends := bodyOf_ends i s.clearDone
  rcases exec_next_cases h with ⟨he, rfl⟩ | ⟨k, -, rfl⟩ | hr | ⟨k, v, u, hr, rfl⟩
  · exact ⟨fun he' => absurd (he'.symm.trans he) (by decide), rfl, rfl, rfl, rfl, fun _ => rfl⟩
  · exact ⟨fun _ _ => rfl, rfl, rfl, rfl, rfl, fun _ => rfl⟩
  · rw [hr] at hends
    obtain ⟨hkept, hdone, -⟩ := hends
    refine ⟨fun he hi => ?_, hkept.ibuf, hkept.cfg, hkept.script, hkept.rdata, hkept.ilen⟩
    rw [status_err_of_ok (s := s.clearDone) he hr, hdone hi]
    rfl
  · rw [hr] at hends
    obtain ⟨hkept, -⟩ := hends
    obtain ⟨hcfg, hilen, -, -, -, -, -, hibuf, hrdata, hscript, hstatus, -, -⟩ := takeFault_kept k v s.ipos u
    exact ⟨fun _ _ => by rw [hstatus]; rfl, hibuf.trans hkept.ibuf, hcfg.trans hkept.cfg,
      hscript.trans hkept.script, hrdata.trans hkept.rdata, fun hi => hilen.trans (hkept.ilen hi)⟩

/-! ## SRST -/

/-- Where SRST has been every register number reads 0. -/
theorem readReg_softReset (s : State) (n : Nat) : readReg s.softReset n = 0#32 := by
  unfold readReg
  split <;> rfl

/-- Settles O21: SRST is executed in every state, and its body clears the registers and draws the tables anew. -/
theorem srstResetsRegisters : Obligations.SrstResetsRegisters := fun s =>
  ⟨s.clearDone.softReset, exec_of_acceptedWhileErr (i := .srst) rfl s, readReg_softReset s.clearDone, rfl, rfl, rfl,
    rfl, rfl⟩

end Sys2Proof.Machine
end

section
/-! PROOFS. FCNT on any input, the priority queue, and BUILD (40_frequency_counter.md, 41_tree_builder.md): obligations
O22, O23, O29, O30, O25, O26 and O28. -/

namespace Sys2Proof.Machine

/-! ## FCNT -/

/-- Rule R121 (a): FREQ holds the number of occurrences. -/
theorem afterFcnt_freqAt (s : State) {k : Nat} (hk : k < 256) :
    (s.afterFcnt.freqAt k).toNat = occurrences k s.input := by
  have hle := occurrences_le k s.input
  have hlt := s.ilen.isLt
  rw [input_length] at hle
  rw [freqAt_of_cells (s := s.afterFcnt) rfl hk, toWord_toNat (by omega)]

/-- A symbol's count is not 0 exactly when it occurs. -/
theorem occurrences_ne_zero_iff (k : Nat) (xs : List Byte) :
    occurrences k xs ≠ 0 ↔ (xs.any fun b => b.toNat == k) = true := by
  rw [occurrences_eq_countP, ← Nat.pos_iff_ne_zero, List.countP_pos_iff, List.any_eq_true]

/-- Rule R121 (c): the entries FCNT makes that are not 0 are those of the symbols that occur. -/
theorem countPresent_freqCells {xs : List Byte} (hl : xs.length < 2 ^ 32) :
    countPresent (freqCells xs) = ((List.range 256).filter fun k => xs.any fun b => b.toNat == k).length := by
  rw [freqCells, tabulate, countPresent_map]
  refine congrArg List.length (List.filter_congr fun k _ => ?_)
  have hle := occurrences_le k xs
  have hz : toWord (occurrences k xs) ≠ 0#32 ↔ occurrences k xs ≠ 0 := by
    rw [ne_eq, ← BitVec.toNat_inj, toWord_toNat (by omega)]
    rfl
  rw [Bool.eq_iff_iff, decide_eq_true_iff, hz, occurrences_ne_zero_iff]

/-- There are no more numbers that are not 0 in a list than their sum. -/
theorem length_filter_ne_zero_le_sum (f : Nat → Nat) (l : List Nat) :
    (l.filter fun k => f k ≠ 0).length ≤ (l.map f).sum := by
  induction l with
  | nil => exact Nat.le_refl 0
  | cons k l ih =>
    rw [List.map_cons, List.sum_cons, List.filter_cons]
    by_cases hk : f k = 0
    · simpa [hk] using ih
    · simp [hk] at ih ⊢
      omega

/-- NSYM after FCNT is the number of symbols that occur. -/
theorem afterFcnt_nsym (s : State) : s.afterFcnt.nsym.toNat = countPresent (freqCells s.input) :=
  toWord_toNat (Nat.lt_of_le_of_lt (countPresent_le s.input) (by decide))

/-- Settles O22: FCNT completes in `afterFcnt`, whose FREQ and NSYM count the input. -/
theorem fcntCountsSymbols : Obligations.FcntCountsSymbols := by
  intro s he hl
  refine ⟨s.afterFcnt, exec_fcnt_completes he hl, fun k hk => ?_, ?_, rfl⟩
  · rw [afterFcnt_freqAt s hk, occurrences_eq_countP]
  · rw [afterFcnt_nsym, countPresent_freqCells (by rw [input_length]; exact s.ilen.isLt)]

/-- Settles O23: each byte of the input is counted once, and a symbol that occurs is counted at least once. -/
theorem fcntCountsAddUp : Obligations.FcntCountsAddUp := by
  intro s t he hl h
  cases h.symm.trans (exec_fcnt_completes he hl)
  have hlen : s.input.length < 2 ^ 32 := by rw [input_length]; exact s.ilen.isLt
  refine ⟨(sum_freqAt hlen rfl).trans (input_length s), ?_, ?_⟩
  · rw [afterFcnt_nsym]
    exact countPresent_le s.input
  · rw [afterFcnt_nsym, countPresent_freqCells hlen, ← input_length s, ← sum_occurrences]
    refine Eq.trans_le ?_ (length_filter_ne_zero_le_sum (fun k => occurrences k s.input) (List.range 256))
    refine congrArg List.length (List.filter_congr fun k _ => ?_)
    rw [Bool.eq_iff_iff, decide_eq_true_iff, occurrences_ne_zero_iff]

/-! ## The priority queue -/

/-- Settles O29: sifting the new entry up puts the heap in order again and only moves entries. -/
theorem heapInsertKeepsOrder : Obligations.HeapInsertKeepsOrder := by
  intro A x hA _
  obtain ⟨hord, hperm⟩ := heapInsert_queue A x hA
  exact ⟨hord, hperm, heapInsert_kept A x⟩

/-- Settles O30: the root of a heap is its least entry, and sifting the last entry down from there puts the rest in
order. -/
theorem heapExtractTakesMinimum : Obligations.HeapExtractTakesMinimum := by
  intro A hA h1 _
  obtain ⟨hord, hperm⟩ := heapExtract_queue A hA h1
  refine ⟨hord, hperm, fun x hx hne => ?_, heapExtract_kept A⟩
  rw [heapExtract_fst] at hne ⊢
  exact heapAt_zero_least hA hx hne

/-! ## BUILD -/

/-- What BUILD leaves when its rounds end in arena `B` with `p` alone in the queue (rules R130, R136). -/
def State.afterBuild (s : State) (B : Arena) (p : QueueItem) : State :=
  { s with
    node := { s.node with cells := B.nodes }
    nnode := toWord B.nnode
    heap := { s.heap with cells := B.heapExtract.2.heap }
    hsize := 0#9
    root := toWord p.index
    status := { s.status with vTree := true, vCode := false, done := true } }

/-- What an arena that represents one item says of the counts `f` (rules R132 to R141). -/
structure Built (f : Nat → Word) (B : Arena) (p : QueueItem) : Prop where
  greedy  : huffmanTree (fun k => (f k).toNat) = some p.tree
  rep     : Rep f B [p]
  total   : p.freq = ((List.range 256).map fun k => (f k).toNat).sum
  symbols : p.tree.symbols.Perm ((presentSymbols fun k => (f k).toNat).map fun k => BitVec.ofNat 8 k)
  holds   : B.Holds (buildEntries fun k => (f k).toNat)

/-- Rules R130 to R141: an accepted BUILD on a table that is not all 0 completes. -/
theorem exec_build_completes {s : State} (he : s.status.err = false) (hv : s.status.vFreq = true)
    (hs : ((List.range 256).map fun k => (s.freqAt k).toNat).sum < 2 ^ 32)
    (hex : ∃ k : Nat, k < 256 ∧ s.freqAt k ≠ 0#32) :
    ∃ (B : Arena) (p : QueueItem), Built s.freqAt B p ∧ exec .build s = .next (s.afterBuild B p) := by
  obtain ⟨p, B, hgreedy, hrep, htotal, hsym, hholds, hbody⟩ := bodyBuild_ok s.clearDone hs hex
  refine ⟨B, p, ⟨hgreedy, hrep, htotal, hsym, hholds⟩, ?_⟩
  rw [exec_ready (i := .build) he hv rfl]
  simp only [bodyOf, completing, hbody, Run.andThen_ok, finish_ok]
  rfl

section Built
variable {f : Nat → Word} {B : Arena} {p : QueueItem}

/-- NNODE after BUILD is the number of the arena's entries. -/
theorem Built.nnode (hb : Built f B p) (s : State) : (s.afterBuild B p).nnode.toNat = B.nnode := by
  obtain ⟨-, -, -, -, hle⟩ := rep_denotes hb.rep
  exact toWord_toNat (by omega)

/-- ROOT after BUILD is the index of the item left in the queue. -/
theorem Built.root (hb : Built f B p) (s : State) : (s.afterBuild B p).root.toNat = p.index := by
  obtain ⟨-, hindex, -, -, hle⟩ := rep_denotes hb.rep
  exact toWord_toNat (by omega)

/-- The arena BUILD leaves denotes the item's tree (rule R37). -/
theorem Built.tree (hb : Built f B p) (s : State) : (s.afterBuild B p).tree? = some p.tree := by
  obtain ⟨-, -, htree, -, -⟩ := rep_denotes hb.rep
  show treeAt B.nodes 511 (s.afterBuild B p).root.toNat = some p.tree
  rw [hb.root]
  exact htree

/-- The arena BUILD leaves is well formed (rule R37). -/
theorem Built.wellFormed (hb : Built f B p) (s : State) : (s.afterBuild B p).arenaWellFormed := by
  obtain ⟨-, -, -, hperm, -⟩ := rep_denotes hb.rep
  refine ⟨by rw [hb.tree]; rfl, ?_⟩
  rw [hb.root, hb.nnode]
  exact hperm

/-- The root's frequency is the sum of all counts (rule R141 (c)). -/
theorem Built.rootFreq (hb : Built f B p) (s : State) :
    ∃ e : NodeEntry, (s.afterBuild B p).node.get? (s.afterBuild B p).root.toNat = some e ∧
      e.freq.toNat = ((List.range 256).map fun k => (f k).toNat).sum := by
  obtain ⟨-, hindex, -, -, hle⟩ := rep_denotes hb.rep
  obtain ⟨e, he⟩ := (hb.rep.den p (by simp)).listed
  refine ⟨e, by rw [hb.root]; exact he, ?_⟩
  rw [← freqOf_listed (A := B) (by omega) he, hb.rep.freq p (by simp), hb.total]

end Built

/-- Settles O25: the queue of the arena represents the greedy construction's items round by round, so the arena ends
as `Built` says. -/
theorem buildMakesHuffmanTree : Obligations.BuildMakesHuffmanTree := by
  intro s he hv hs hex
  obtain ⟨B, p, hb, hexec⟩ := exec_build_completes he hv hs hex
  obtain ⟨hsize, hindex, -, -, -⟩ := rep_denotes hb.rep
  refine ⟨s.afterBuild B p, p.tree, hexec, hb.greedy, hb.tree s, hb.holds.2, (hb.nnode s).trans hsize, ?_, rfl, rfl⟩
  rw [hb.root, hb.nnode]
  omega

/-- The symbols with a count, said of the words and of the numbers. -/
theorem filter_ne_zero_eq_presentSymbols (f : Nat → Word) :
    ((List.range 256).filter fun k => f k != 0#32) = presentSymbols fun k => (f k).toNat := by
  refine List.filter_congr fun k _ => ?_
  rw [Bool.eq_iff_iff, bne_iff_ne, bne_iff_ne, ne_eq, ne_eq, ← BitVec.toNat_inj]
  rfl

/-- BUILD that ends with DONE has found a count that is not 0 (rule R139). -/
theorem exists_count_of_build_done {s t : State} (he : s.status.err = false) (hv : s.status.vFreq = true)
    (h : exec .build s = .next t) (hd : t.status.done = true) : ∃ k : Nat, k < 256 ∧ s.freqAt k ≠ 0#32 := by
  by_contra hne
  simp only [not_exists, not_and, not_not] at hne
  cases h.symm.trans (exec_build_afterEmptyBuild he hv hne)
  cases hd

/-- Settles O26: each clause is a fact of `Built`: the symbols and the sum from the greedy rounds, the leaves and the
internal entries from what each write to the arena puts there. -/
theorem buildTreeCarriesSymbols : Obligations.BuildTreeCarriesSymbols := by
  intro s t present he hv hs h hd hp
  obtain ⟨B, p, hb, hexec⟩ := exec_build_completes he hv hs (exists_count_of_build_done he hv h hd)
  cases h.symm.trans hexec
  rw [filter_ne_zero_eq_presentSymbols] at hp
  subst hp
  refine ⟨hb.wellFormed s, ⟨p.tree, hb.tree s, hb.symbols⟩, hb.rootFreq s, hb.rep.leafE, fun k x hx => ?_,
    fun i e hi => ?_, fun i e hi hleaf => ?_⟩
  · have hentry := (hb.holds.2 k).trans (buildEntries_leaf hx)
    rw [leafEntry, toWord_of_toNat] at hentry
    exact hentry
  · exact buildEntries_leaf_iff ((hb.holds.2 i).symm.trans hi)
  · obtain ⟨l, r, hl, hr, hfreq, hsym, hll, hlr, hbefore⟩ := hb.rep.nodeE i e hi hleaf
    exact ⟨hsym, hll, hlr, l, r, hl, hr, hfreq, hbefore⟩

/-- BUILD's body on two states with the same counts leaves the same arena (rules R137, R142). -/
theorem bodyBuild_alike {s s' t : State} (hf : ∀ k : Nat, k < 256 → s.freqAt k = s'.freqAt k)
    (h : bodyBuild s = .ok () t) :
    ∃ t' : State, bodyBuild s' = .ok () t' ∧ t.node.cells = t'.node.cells ∧ t.nnode = t'.nnode ∧
      t.root = t'.root := by
  have hstart : Alike (Arena.start s.clearTreeFlags) (Arena.start s'.clearTreeFlags) :=
    ⟨rfl, rfl, rfl, fun p hp => absurd hp (Nat.not_lt_zero p)⟩
  have hleaves : Alike s.clearTreeFlags.leavesArena s'.clearTreeFlags.leavesArena :=
    hstart.initLeaves (List.range Config.symCount) fun k hk => hf k (List.mem_range.mp hk)
  have hpos : s.clearTreeFlags.leavesArena.nnode = s.clearTreeFlags.leavesArena.hsize :=
    initLeaves_pos _ _ _ rfl
  simp only [bodyBuild] at h ⊢
  rw [← hleaves.nnode]
  split at h
  · cases h
  · rename_i hz
    rw [if_neg hz]
    obtain ⟨hroot, hrest⟩ := (hleaves.combineAll Config.heapMax).extract (combineAll_pos _ _ (by omega))
    cases h
    exact ⟨_, rfl, hrest.nodes, congrArg toWord hrest.nnode, congrArg (fun i : Index => toWord i.toNat) hroot⟩

/-- BUILD that ends with DONE has run its body to the end. -/
theorem bodyBuild_of_done {s t : State} (he : s.status.err = false) (hv : s.status.vFreq = true)
    (h : exec .build s = .next t) (hd : t.status.done = true) :
    ∃ u : State, bodyBuild s.clearDone = .ok () u ∧ t = u.setDone := by
  rw [exec_ready (i := .build) he hv rfl] at h
  cases hr : bodyBuild s.clearDone with
  | ok a u =>
    simp only [bodyOf, completing, hr, Run.andThen_ok, finish_ok] at h
    cases h
    exact ⟨u, rfl, rfl⟩
  | raise k v u =>
    simp only [bodyOf, completing, hr, Run.andThen_raise, finish_raise] at h
    cases h
    rw [takeFault_status] at hd
    cases hd
  | stop x =>
    simp only [bodyOf, completing, hr, Run.andThen_stop, finish_stop] at h
    cases h

/-- Settles O28: BUILD starts from an empty arena and an empty queue and reads HEAP only where it has written it, so
two runs on the same counts stay alike. -/
theorem buildDependsOnlyOnFreq : Obligations.BuildDependsOnlyOnFreq := by
  intro s s' t t' he he' hf hv hv' h h' hd
  obtain ⟨u, hu, rfl⟩ := bodyBuild_of_done he hv h hd
  obtain ⟨u', hu', hnode, hnnode, hroot⟩ := bodyBuild_alike (s := s.clearDone) (s' := s'.clearDone) hf hu
  rw [exec_ready (i := .build) he' hv' rfl] at h'
  simp only [bodyOf, completing, hu', Run.andThen_ok, finish_ok] at h'
  cases h'
  exact ⟨rfl, hnode, hnnode, hroot⟩

end Sys2Proof.Machine
end

section
/-! PROOFS. DERIVE (42_code_table_deriver.md): what CODE and TRIE hold after it, and that its codes are short and none
begins another: obligations O31, O32 and O33. -/

namespace Sys2Proof.Machine

/-! ## What DERIVE leaves -/

/-- What DERIVE leaves on an arena that denotes a tree (rule R150). -/
def State.afterDerive (s : State) (T : HuffTree) : State :=
  { s with
    code := { s.code with cells := (deriveTables T).code }
    trie := { s.trie with cells := (deriveTables T).trie }
    status := { s.status with vCode := true, done := true } }

/-- Rule R150: an accepted DERIVE on an arena that denotes a tree completes. -/
theorem exec_derive_completes {s : State} {T : HuffTree} (he : s.status.err = false) (hv : s.status.vTree = true)
    (hT : s.tree? = some T) : exec .derive s = .next (s.afterDerive T) := by
  have hbody := bodyDerive_ok (s := s.clearDone) hT
  rw [exec_ready (i := .derive) he hv rfl]
  simp only [bodyOf, completing, hbody, Run.andThen_ok, finish_ok]
  rfl

/-- Rule R156: CODE holds the last code of each symbol. -/
theorem afterDerive_codeAt (s : State) {T : HuffTree} {pre post : List (List Bool × Byte)} {b : List Bool} {x : Byte}
    (h : T.codeTable = pre ++ (b, x) :: post) (hlast : ∀ p, p ∈ post → p.2 ≠ x) :
    (s.afterDerive T).codeAt x.toNat = { valid := true, bits := b } := by
  refine codeAt_listed ?_
  show lookupCell (deriveTables T).code x.toNat = _
  rw [deriveTables_code, h, lookup_writeCodes_last _ _ _ _ _ _ hlast]
  rfl

/-- A symbol the tree has not keeps no code (rule R150). -/
theorem afterDerive_codeAt_absent (s : State) {T : HuffTree} {x : Byte} (h : ¬ ∃ p ∈ T.codeTable, p.2 = x) :
    (s.afterDerive T).codeAt x.toNat = { valid := false, bits := [] } :=
  codeAt_listed (derive_code_none T x h)

/-- A valid entry of CODE is a code of the tree (rules R150, R154). -/
theorem afterDerive_code_mem {s : State} {T : HuffTree} {x : Byte}
    (h : ((s.afterDerive T).codeAt x.toNat).valid = true) :
    (((s.afterDerive T).codeAt x.toNat).bits, x) ∈ T.codeTable := by
  by_cases hx : ∃ p ∈ T.codeTable, p.2 = x
  · obtain ⟨pre, b, post, htable, hlast⟩ := exists_last x T.codeTable hx
    rw [afterDerive_codeAt s htable hlast, htable]
    simp
  · rw [afterDerive_codeAt_absent s hx] at h
    cases h

/-- CODE is valid exactly at the symbols of the tree. -/
theorem afterDerive_valid_iff (s : State) (T : HuffTree) (x : Byte) :
    ((s.afterDerive T).codeAt x.toNat).valid = true ↔ ∃ b : List Bool, (b, x) ∈ T.codeTable := by
  refine ⟨fun h => ⟨_, afterDerive_code_mem h⟩, fun ⟨b, hb⟩ => ?_⟩
  obtain ⟨pre, c, post, htable, hlast⟩ := exists_last x T.codeTable ⟨_, hb, rfl⟩
  rw [afterDerive_codeAt s htable hlast]

/-- TRIE's entries are the tree's nodes in preorder, for two leaves or more (rule R152). -/
theorem afterDerive_trieAt (s : State) {T : HuffTree} (h2 : 2 ≤ T.leaves) {k : Nat} {e : TrieEntry}
    (hk : (trieEntries T 0)[k]? = some e) : (s.afterDerive T).trieAt k = e := by
  cases T with
  | leaf x => exact absurd h2 (show ¬ 2 ≤ 1 by decide)
  | node l r =>
    have h := trieAt_derived (s := s.afterDerive (.node l r)) rfl k e hk
    rwa [Nat.zero_add] at h

/-- Settles O31: Visit writes one CODE entry for each leaf and TRIE's entries in preorder, and walking TRIE follows the
codes. -/
theorem deriveMakesCodeTable : Obligations.DeriveMakesCodeTable := by
  intro s T he hv hT hsize
  refine ⟨s.afterDerive T, exec_derive_completes he hv hT, trieMaps_iff hsize rfl,
    fun h2 k e => afterDerive_trieAt s h2, afterDerive_valid_iff s T, fun hnd b x hb => ?_, rfl⟩
  exact codeTable_unique hnd (afterDerive_code_mem ((afterDerive_valid_iff s T x).mpr ⟨b, hb⟩)) hb

/-- Settles O32: SingleLeaf writes the two entries and the code '0'; of a repeated symbol's writes the last stands. -/
theorem deriveCornerCases : Obligations.DeriveCornerCases := by
  constructor
  · intro s x he hv hT
    obtain ⟨h0, h1⟩ := trieAt_derived_leaf (s := s.afterDerive (.leaf x)) (x := x) rfl
    refine ⟨s.afterDerive (.leaf x), exec_derive_completes he hv hT, ?_, fun y hy => ?_, h0, h1, rfl, rfl⟩
    · exact afterDerive_codeAt s (pre := []) (post := []) rfl (by simp)
    · have habsent : ¬ ∃ p ∈ (HuffTree.leaf x).codeTable, p.2 = y := by simpa [HuffTree.codeTable] using hy.symm
      rw [afterDerive_codeAt_absent s habsent]
  · intro s l r x b pre post he hv hT hcodes hlast
    exact ⟨s.afterDerive (.node l r), exec_derive_completes he hv hT, afterDerive_codeAt s hcodes hlast⟩

/-! ## The codes of a tree -/

/-- Neither of two codes begins the other. -/
def Unprefixed (p q : List Bool × Byte) : Prop := ¬ p.1 <+: q.1 ∧ ¬ q.1 <+: p.1

/-- Rule R155 (b): two codes part at the node where their paths part. -/
theorem codes_unprefixed (T : HuffTree) : T.codes.Pairwise Unprefixed := by
  induction T with
  | leaf x => exact List.pairwise_singleton _ _
  | node l r ihl ihr =>
    refine List.pairwise_append.mpr ⟨?left, ?right, ?across⟩
    case left =>
      exact List.pairwise_map.mpr (ihl.imp fun h => by simpa [Unprefixed, List.cons_prefix_cons] using h)
    case right =>
      exact List.pairwise_map.mpr (ihr.imp fun h => by simpa [Unprefixed, List.cons_prefix_cons] using h)
    case across =>
      intro p hp q hq
      obtain ⟨p', -, rfl⟩ := List.mem_map.mp hp
      obtain ⟨q', -, rfl⟩ := List.mem_map.mp hq
      simp [Unprefixed, List.cons_prefix_cons]

/-- A code is a path, so no longer than the tree is deep. -/
theorem code_length_le_depth (T : HuffTree) : ∀ p ∈ T.codes, p.1.length ≤ T.depth := by
  induction T with
  | leaf x => simp [HuffTree.codes]
  | node l r ihl ihr =>
    intro p hp
    simp only [HuffTree.codes, List.mem_append, List.mem_map] at hp
    simp only [HuffTree.depth]
    rcases hp with ⟨q, hq, rfl⟩ | ⟨q, hq, rfl⟩
    · have h := ihl q hq
      simp only [List.length_cons]
      omega
    · have h := ihr q hq
      simp only [List.length_cons]
      omega

/-- Each level above a leaf has one leaf more beside it. -/
theorem depth_lt_leaves (T : HuffTree) : T.depth < T.leaves := by
  induction T with
  | leaf x => exact Nat.zero_lt_one
  | node l r ihl ihr =>
    simp only [HuffTree.depth, HuffTree.leaves]
    omega

/-- Rule R155 (c): the bounds of a code's length, for two leaves or more. -/
theorem code_length_bounds {l r : HuffTree} {p : List Bool × Byte} (hp : p ∈ (HuffTree.node l r).codes) :
    1 ≤ p.1.length ∧ p.1.length ≤ (HuffTree.node l r).depth ∧ p.1.length ≤ (HuffTree.node l r).leaves - 1 := by
  have hdepth := code_length_le_depth _ p hp
  have hleaves := depth_lt_leaves (.node l r)
  refine ⟨?_, hdepth, by omega⟩
  simp only [HuffTree.codes, List.mem_append, List.mem_map] at hp
  rcases hp with ⟨q, -, rfl⟩ | ⟨q, -, rfl⟩ <;> exact Nat.le_add_left 1 _

/-- Settles O33: valid CODE entries are codes of the tree, and of two different codes neither begins the other. -/
theorem codesPrefixFree : Obligations.CodesPrefixFree := by
  refine ⟨fun s l r he hv hT _ => ⟨s.afterDerive (.node l r), exec_derive_completes he hv hT, ?_, ?_⟩,
    fun l r => ⟨codes_unprefixed _, fun p hp => code_length_bounds hp⟩⟩
  · intro x y hxy hx hy
    have hsymm : Std.Symm Unprefixed := ⟨fun _ _ h => h.symm⟩
    exact ((codes_unprefixed _).forall (afterDerive_code_mem hx) (afterDerive_code_mem hy)
      fun h => hxy (congrArg Prod.snd h)).1
  · intro x hx
    exact code_length_bounds (afterDerive_code_mem hx)

end Sys2Proof.Machine
end

section
/-! PROOFS. The commands that append a list of bytes, and the serialized tree (43_tree_serializer.md): obligations O41,
O34, O35, O36 and O37 to O40. -/

namespace Sys2Proof.Machine

/-! ## Appending a list -/

/-- There is room in OBUF for `n` more bytes, or none is needed (rule R8). -/
def State.RoomFor (s : State) (bs : List Byte) : Prop := bs = [] ∨ s.olen.toNat + bs.length ≤ s.cfg.obufCap

/-- OBUF and OLEN after a list has been appended where there is room (rule R8). -/
theorem pushAll_output {s : State} (hw : s.cfg.wf = true) {bs : List Byte} (hroom : s.RoomFor bs) :
    (s.pushAll bs).olen.toNat = s.olen.toNat + bs.length ∧
    (∀ (k : Nat) (b : Byte), bs[k]? = some b → (s.pushAll bs).obufByte (s.olen.toNat + k) = b) ∧
    (∀ a : Nat, a < s.olen.toNat ∨ s.olen.toNat + bs.length ≤ a → (s.pushAll bs).obufByte a = s.obufByte a) := by
  have hcap := Config.obufCap_lt hw
  have hlt : s.olen.toNat + bs.length < 2 ^ 32 := by
    rcases hroom with rfl | h
    · exact s.olen.isLt
    · omega
  exact ⟨State.olen_pushAll hlt, fun _ _ hk => State.obufByte_pushAll hlt hk,
    fun _ ha => State.obufByte_pushAll_ne hlt ha⟩

/-- What a command that has appended a list has done: the bytes stand at OLEN, every other byte of OBUF is as before,
DONE is set and nothing else changes. -/
def Appended (s t : State) (bs : List Byte) : Prop :=
  t.olen.toNat = s.olen.toNat + bs.length ∧
  (∀ (k : Nat) (b : Byte), bs[k]? = some b → t.obufByte (s.olen.toNat + k) = b) ∧
  (∀ a : Nat, a < s.olen.toNat ∨ s.olen.toNat + bs.length ≤ a → t.obufByte a = s.obufByte a) ∧
  t = { s with obuf := t.obuf, olen := t.olen, status := { s.status with done := true } }

/-- What a command leaves that has raised a fault which spoils no tree: the record is written, the output discarded and
nothing else changed (rules R238, R240). -/
def Faulted (s t : State) (k : FaultKind) (v : Word) : Prop :=
  t =
    { s with
      obuf := t.obuf, olen := 0#32, fresh := t.fresh, err := k.errWord, errval := v
      status := { s.status with done := false, err := true } }

/-- What a command that has overflowed OBUF leaves (rules R240, R252). -/
def Overflowed (s t : State) : Prop := Faulted s t .outputOverflow 0#32

/-- A command that appends a list: all of it where there is room, else OutputOverflow. -/
theorem exec_appends {s : State} {i : Instr} {bs : List Byte} (he : s.status.err = false)
    (hf : flagsHeld i s.status = true) (hl : lengthsHeld i s = true) (hw : s.cfg.wf = true)
    (hb : bodyOf i s.clearDone = completing (appendAll bs) s.clearDone) :
    (s.RoomFor bs → ∃ t : State, exec i s = .next t ∧ Appended s t bs) ∧
    (¬ s.RoomFor bs → ∃ t : State, exec i s = .next t ∧ Overflowed s t) := by
  rcases append_command he hf hl hw hb with ⟨hroom, h⟩ | ⟨⟨hne, hlt⟩, h⟩
  · obtain ⟨holen, hin, hout⟩ := pushAll_output (s := s.clearDone) hw hroom
    exact ⟨fun _ => ⟨_, h, holen, hin, hout, pushed_command s bs⟩, fun hno => absurd hroom hno⟩
  · refine ⟨fun hroom => ?_, fun _ => ⟨_, h, rfl⟩⟩
    rcases hroom with hnil | hle
    · exact absurd hnil hne
    · omega

/-- There is no room for a list that is not empty and goes past OBUF_CAP. -/
theorem not_roomFor {s : State} {bs : List Byte} (hne : bs ≠ []) (h : s.cfg.obufCap < s.olen.toNat + bs.length) :
    ¬ s.RoomFor bs := fun hroom => hroom.elim hne fun hle => Nat.not_lt.mpr hle h

/-! ## WCNT -/

/-- Rule R61: byte `k` of a count in memory. -/
theorem countBytes_toNat (n : Word) {k : Nat} (hk : k < 4) :
    ∃ b : Byte, (countBytes n)[k]? = some b ∧ b.toNat = n.toNat / 256 ^ k % 256 := by
  have h : k = 0 ∨ k = 1 ∨ k = 2 ∨ k = 3 := by omega
  rcases h with rfl | rfl | rfl | rfl <;>
    exact ⟨_, rfl, by rw [BitVec.extractLsb'_toNat, Nat.shiftRight_eq_div_pow]; rfl⟩

/-- Settles O41: WCNT appends the four bytes of ILEN. -/
theorem wcntAppendsCount : Obligations.WcntAppendsCount := by
  intro s he hl hw
  obtain ⟨hok, hover⟩ := exec_appends (i := .wcnt) (bs := countBytes s.ilen) he rfl
    (by simpa [lengthsHeld, State.ilenFits] using hl) hw rfl
  refine ⟨fun hroom => ?_, fun hno => hover (not_roomFor (List.cons_ne_nil _ _) hno)⟩
  obtain ⟨t, h, holen, hin, hout, hframe⟩ := hok (.inr hroom)
  refine ⟨t, h, holen, fun k hk => ?_, hout, hframe⟩
  obtain ⟨b, hb, hval⟩ := countBytes_toNat s.ilen hk
  rw [hin k b hb, hval]

/-! ## TSER -/

/-- Rule R168: the length of a serialized tree. -/
theorem ser_length_eq (T : HuffTree) : (ser T).length = 3 * T.leaves - 1 := by
  have h := ser_length T
  omega

/-- TSER appends the serialized tree or overflows (rules R165, R252). -/
theorem exec_tser_appends {s : State} {T : HuffTree} (he : s.status.err = false) (hv : s.status.vTree = true)
    (hT : s.tree? = some T) (hw : s.cfg.wf = true) :
    (s.RoomFor (ser T) → ∃ t : State, exec .tser s = .next t ∧ Appended s t (ser T)) ∧
    (¬ s.RoomFor (ser T) → ∃ t : State, exec .tser s = .next t ∧ Overflowed s t) := by
  refine exec_appends he hv rfl hw ?_
  show completing bodyTser s.clearDone = _
  rw [completing, bodyTser_of_tree (s := s.clearDone) hT]
  rfl

/-- Settles O34: TSER appends ser(T). -/
theorem tserAppendsTree : Obligations.TserAppendsTree := by
  intro s T he hv hT hw hroom
  rw [← ser_length_eq] at hroom ⊢
  obtain ⟨t, h, holen, hin, hout, hframe⟩ := (exec_tser_appends he hv hT hw).1 (.inr hroom)
  exact ⟨t, h, holen, hin, hout, hframe⟩

/-- Settles O35: ser(T) is not empty, so TSER overflows exactly when it does not fit. -/
theorem tserLengthAndOverflow : Obligations.TserLengthAndOverflow := by
  refine ⟨ser_length_eq, fun s T he hv hT hw => ?_⟩
  obtain ⟨hok, hover⟩ := exec_tser_appends he hv hT hw
  have hlen := ser_length T
  have hpos := ser_length_pos T
  by_cases hroom : s.olen.toNat + (ser T).length ≤ s.cfg.obufCap
  · obtain ⟨t, h, -, -, -, hframe⟩ := hok (.inr hroom)
    have hno : t.status.err ≠ true := by rw [hframe]; simp [he]
    exact ⟨t, h, ⟨fun hf => absurd hf.2 hno, fun hlt => by omega⟩, fun hf => absurd hf hno⟩
  · obtain ⟨t, h, hframe⟩ := hover (not_roomFor (List.ne_nil_of_length_pos hpos) (by omega))
    have hframe : t = _ := hframe
    exact ⟨t, h, ⟨fun _ => by omega, fun _ => by rw [hframe]; exact ⟨rfl, rfl⟩⟩, fun _ => hframe⟩

/-- Settles O36: reading both byte strings as trees gives one tree and one rest. -/
theorem serializationUniqueParse : Obligations.SerializationUniqueParse := by
  rintro T U ⟨rest, h⟩
  exact (ser_append_inj T U rest [] (by rw [h, List.append_nil])).1

/-! ## TDES on a serialized tree -/

/-- TDES passes its checks when ILEN fits IBUF and IPOS is within the input (rule R227). -/
theorem lengthsHeld_tdes {s : State} (hcap : s.ilen.toNat ≤ s.cfg.ibufCap) (hpos : s.ipos.toNat ≤ s.ilen.toNat) :
    lengthsHeld .tdes s = true := by
  simp [lengthsHeld, State.ilenFits, State.iposFits, hcap, hpos]

/-- What TDES leaves when it has read a tree into arena entries `N` (rule R169). -/
def State.afterTdes (s : State) (N : List (Nat × NodeEntry)) (T : HuffTree) : State :=
  { s with
    node := { s.node with cells := N }
    nnode := toWord T.size
    root := 0#32
    ipos := toWord (s.ipos.toNat + (ser T).length)
    status := { s.status with vTree := true, vCode := false, done := true } }

/-- The arena entries are a tree's nodes in preorder, and no other (rule R171). -/
structure Preordered (N : List (Nat × NodeEntry)) (T : HuffTree) : Prop where
  entries : ∀ (k : Nat) (e : NodeEntry), (preorderEntries T 0)[k]? = some e → lookupCell N k = some e
  others  : ∀ i : Nat, T.size ≤ i → lookupCell N i = none
  tree    : treeAt N 511 0 = some T
  indices : indicesAt N 511 0 = List.range T.size

/-- Each entry is one of the tree's: its frequency is 0 and its left child comes next (rule R171). -/
theorem Preordered.entry {N : List (Nat × NodeEntry)} {T : HuffTree} (hN : Preordered N T) (hT : T.size ≤ 511) {i : Nat}
    {e : NodeEntry} (h : lookupCell N i = some e) : e.freq = 0#32 ∧ (e.leaf = false → e.left.toNat = i + 1) := by
  by_cases hi : i < T.size
  · obtain ⟨e', he'⟩ : ∃ e', (preorderEntries T 0)[i]? = some e' :=
      ⟨_, List.getElem?_eq_getElem (by rwa [preorderEntries_length])⟩
    cases h.symm.trans (hN.entries i e' he')
    have hentry := preorderEntries_entry T 0 i e (by omega) he'
    rwa [Nat.zero_add] at hentry
  · rw [hN.others i (by omega)] at h
    cases h

/-- Rules R169 to R174: an accepted TDES on bytes that begin with ser(T) completes. -/
theorem exec_tdes_completes {s : State} {T : HuffTree} (he : s.status.err = false)
    (hcap : s.ilen.toNat ≤ s.cfg.ibufCap) (hT : T.size ≤ 511) (hlen : s.ipos.toNat + (ser T).length ≤ s.ilen.toNat)
    (hb : BytesAt s.ibufByte s.ipos.toNat (ser T)) :
    ∃ N, Preordered N T ∧ exec .tdes s = .next (s.afterTdes N T) := by
  obtain ⟨N, hothers, hentries, htree, hindices, hbody⟩ := bodyTdes_ok (s := s.clearDone) hT hlen hb
  refine ⟨N, ⟨hentries, hothers, htree, by rw [hindices, List.range_eq_range']⟩, ?_⟩
  rw [exec_ready (i := .tdes) he rfl (lengthsHeld_tdes hcap (by omega))]
  simp only [bodyOf, completing, hbody, Run.andThen_ok, finish_ok]
  rfl

/-- Settles O37: Des reads ser(T) back into T's nodes in preorder. -/
theorem tdesRebuildsTree : Obligations.TdesRebuildsTree := by
  intro s T he hcap hT hlen hb
  obtain ⟨N, hN, hexec⟩ := exec_tdes_completes he hcap hT hlen hb
  have hlt := s.ilen.isLt
  have hnnode : (s.afterTdes N T).nnode.toNat = T.size := toWord_toNat (by omega)
  have hipos : (s.afterTdes N T).ipos.toNat = s.ipos.toNat + (ser T).length := toWord_toNat (by omega)
  have htree : (s.afterTdes N T).tree? = some T := hN.tree
  have hindices : indicesAt N Config.nodeMax 0 = List.range (s.afterTdes N T).nnode.toNat := by
    rw [hnnode]; exact hN.indices
  exact ⟨s.afterTdes N T, hexec, htree, ⟨by rw [htree]; rfl, List.Perm.of_eq hindices⟩, hnnode, rfl,
    by rw [hipos, ser_length_eq], hindices, hN.entries, fun i e hi => hN.entry hT hi, rfl⟩

/-! ## TDES's faults -/

/-- What a fault of TDES leaves (rules R172, R240). -/
def State.afterTreeFault (s : State) (k : FaultKind) (v : Word) : State :=
  ((s.clearDone.clearTreeFlags.discardOutput s.ipos).spoilTree).recordFault k v

/-- A parse that raises is TDES's fault (rules R169, R172). -/
theorem exec_tdes_raise {s : State} {k : FaultKind} {pos : Nat} (he : s.status.err = false)
    (hcap : s.ilen.toNat ≤ s.cfg.ibufCap) (hpos : s.ipos.toNat ≤ s.ilen.toNat) (hk : k.spoilsTree = true)
    (h : s.parse = .raise k pos) : exec .tdes s = .next (s.afterTreeFault k (toWord pos)) := by
  have hparse : s.clearDone.clearTreeFlags.parse = .raise k pos := h
  rw [exec_ready (i := .tdes) he rfl (lengthsHeld_tdes hcap hpos)]
  simp only [bodyOf, completing, bodyTdes, hparse, Run.andThen_raise, finish_raise, takeFault_spoils hk]
  rfl

/-- TDES on records that leave the tree unfinished raises what a level of Des that begins after them raises (rules
R170, R172). -/
theorem exec_tdes_afterRecords {s : State} {rs : List TreeRecord} {k : FaultKind} {pos : Nat}
    (he : s.status.err = false) (hcap : s.ilen.toNat ≤ s.cfg.ibufCap) (hrs : rs.length ≤ 511)
    (hopen : 0 < treesToCome 1 rs) (hfit : s.ipos.toNat + (recordBytes rs).length ≤ s.ilen.toNat)
    (hb : BytesAt s.ibufByte s.ipos.toNat (recordBytes rs)) (hk : k.spoilsTree = true)
    (hraise : ∀ (fuel : Nat) (nodes : List (Nat × NodeEntry)),
      des s.ibufByte s.ilen.toNat (fuel + 1) ⟨s.ipos.toNat + (recordBytes rs).length, rs.length, nodes⟩ =
        .raise k pos) :
    exec .tdes s = .next (s.afterTreeFault k (toWord pos)) := by
  refine exec_tdes_raise he hcap (by omega) hk ?_
  refine des_unfinished s.ibufByte s.ilen.toNat rs.length rs (Config.nodeMax + 1)
    { ipos := s.ipos.toNat, nnode := 0, nodes := [] } k pos (Nat.le_refl _)
    (show rs.length < 511 + 1 by omega) hopen hb hfit ?_ fun fuel nodes => ?_
  · show 0 + rs.length ≤ 511
    omega
  · show des _ _ _ ⟨_, 0 + rs.length, nodes⟩ = _
    rw [Nat.zero_add]
    exact hraise fuel nodes

/-- Settles O38: Des meets the end of the input inside the tree, at a marker or at a leaf's symbol. -/
theorem tdesOnTruncatedTree : Obligations.TdesOnTruncatedTree := by
  constructor
  · intro s T he hcap hT hpos hcut hb
    have hdepth := T.depth_lt_size
    have hparse : s.parse = .raise .eosTree s.ilen.toNat :=
      des_ser_truncated s.ibufByte s.ilen.toNat T (Config.nodeMax + 1)
        { ipos := s.ipos.toNat, nnode := 0, nodes := [] } (show T.depth < 511 + 1 by omega) hpos hcut hb
        (show 0 + T.size ≤ 511 by omega)
    have h := exec_tdes_raise he hcap hpos rfl hparse
    rw [toWord_of_toNat] at h
    exact ⟨_, h, rfl⟩
  · intro s rs he hcap hopen hb hend
    have hexec : exec .tdes s = .next (s.afterTreeFault .eosTree (toWord s.ilen.toNat)) := by
      rcases hend with ⟨hrs, hlen⟩ | ⟨hrs, hlen, hleaf⟩
      · refine exec_tdes_afterRecords he hcap hrs hopen (by omega) hb rfl fun fuel nodes => ?_
        rw [hlen]
        exact des_eosTree (Nat.le_refl _)
      · refine exec_tdes_afterRecords he hcap (by omega) hopen (by omega) hb rfl fun fuel nodes => ?_
        rw [hlen]
        exact des_eosTree_symbol rfl (show rs.length < 511 by omega) hleaf
    rw [toWord_of_toNat] at hexec
    exact ⟨_, hexec, rfl⟩

/-- Settles O39: a level of Des looks at its marker before it counts the nodes. -/
theorem tdesOnBadMarker : Obligations.TdesOnBadMarker := by
  intro s rs he hcap hrs hopen hfit hb h0 h1
  exact ⟨_, exec_tdes_afterRecords he hcap hrs hopen (by omega) hb rfl fun _ _ => des_badMarker hfit h0 h1, rfl⟩

/-- Every record begins with a marker (rule R97). -/
theorem treeRecord_bytes_head (r : TreeRecord) :
    ∃ (m : Byte) (rest : List Byte), r.bytes = m :: rest ∧ (m = Config.markInt ∨ m = Config.markLeaf) := by
  cases r with
  | internal => exact ⟨_, [], rfl, .inl rfl⟩
  | leaf x => exact ⟨_, [x], rfl, .inr rfl⟩

/-- After the first `n` records of a serialized tree the next one's marker stands (rules R96, R97). -/
theorem marker_after_records {byteAt : Nat → Byte} {a n : Nat} {T : HuffTree} (hb : BytesAt byteAt a (ser T))
    (hn : n < T.size) :
    BytesAt byteAt a (recordBytes (T.records.take n)) ∧
    a + (recordBytes (T.records.take n)).length < a + (ser T).length ∧
    (byteAt (a + (recordBytes (T.records.take n)).length) = Config.markInt ∨
      byteAt (a + (recordBytes (T.records.take n)).length) = Config.markLeaf) := by
  have hlen : n < T.records.length := by rwa [T.records_length]
  obtain ⟨m, rest, hbytes, hm⟩ := treeRecord_bytes_head T.records[n]
  have hsplit : ser T = recordBytes (T.records.take n) ++ (m :: (rest ++ recordBytes (T.records.drop (n + 1)))) := by
    rw [← List.cons_append, ← hbytes, ← recordBytes_cons, ← List.drop_eq_getElem_cons hlen, ← recordBytes_append,
      List.take_append_drop, recordBytes_records]
  rw [hsplit] at hb
  refine ⟨hb.left, ?_, ?_⟩
  · rw [hsplit, List.length_append, List.length_cons]
    omega
  · rw [hb.right.head]
    exact hm

/-- Settles O40: at the 512th marker 511 nodes exist; a serialized tree of more than 511 nodes has that marker. -/
theorem tdesOnTooLargeTree : Obligations.TdesOnTooLargeTree := by
  have hfault : ∀ (s : State) (rs : List TreeRecord), s.status.err = false → s.ilen.toNat ≤ s.cfg.ibufCap →
      rs.length = 511 → 0 < treesToCome 1 rs → s.ipos.toNat + (recordBytes rs).length < s.ilen.toNat →
      BytesAt s.ibufByte s.ipos.toNat (recordBytes rs) →
      (s.ibufByte (s.ipos.toNat + (recordBytes rs).length) = Config.markInt ∨
        s.ibufByte (s.ipos.toNat + (recordBytes rs).length) = Config.markLeaf) →
      exec .tdes s =
        .next (s.afterTreeFault .treeTooLarge (toWord (s.ipos.toNat + (recordBytes rs).length))) :=
    fun s rs he hcap hrs hopen hfit hb hm =>
      exec_tdes_afterRecords he hcap (by omega) hopen (by omega) hb rfl fun _ _ =>
        des_tooLarge hfit (Nat.le_of_eq hrs.symm) hm
  refine ⟨fun s rs he hcap hrs hopen hfit hb hm => ⟨_, hfault s rs he hcap hrs hopen hfit hb hm, rfl⟩,
    fun s T he hcap hT hlen hb => ?_⟩
  obtain ⟨hbr, hfit, hm⟩ := marker_after_records hb hT
  have hrs : (T.records.take 511).length = 511 := by rw [List.length_take, T.records_length]; omega
  exact ⟨_, hfault s _ he hcap hrs (unfinished_take T hT) (by omega) hbr hm, rfl⟩

end Sys2Proof.Machine
end

section
/-! PROOFS. RCNT, PACK and UNPACK (44_bit_packer.md, 45_container_framing.md): obligations O42, O44, O45, O47, O46 and
O48. -/

namespace Sys2Proof.Machine

/-! ## Pseudocode that begins with one append -/

/-- Where there is room a list is appended whole (rule R8). -/
theorem appendAll_of_room {w : State} (hw : w.cfg.wf = true) {bs : List Byte} (hroom : w.RoomFor bs) :
    appendAll bs w = .ok () (w.pushAll bs) := by
  rcases appendAll_cases hw bs with ⟨-, h⟩ | ⟨⟨hne, hlt⟩, -⟩
  · exact h
  · exact absurd hroom (not_roomFor hne hlt)

/-- Where there is no room OutputOverflow is raised (rule R8). -/
theorem appendAll_of_noRoom {w : State} (hw : w.cfg.wf = true) {bs : List Byte} (hno : ¬ w.RoomFor bs) :
    ∃ t, SameButOutput w t ∧ appendAll bs w = .raise .outputOverflow 0#32 t := by
  rcases appendAll_cases hw bs with ⟨hroom, -⟩ | ⟨-, h⟩
  · exact absurd hroom hno
  · exact h

section Append
variable {i : Instr} {body : State → Run Unit} {s w : State} {bs : List Byte} {f : Unit → State → Run Unit}

/-- With room the command ends as what follows the append does. -/
theorem finish_appended (hw : w.cfg.wf = true) (hbody : body s = (appendAll bs w).andThen f) (hroom : w.RoomFor bs)
    {u : State} (hf : f () (w.pushAll bs) = .ok () u) (p : Word) : finish p (completing body s) = .next u.setDone := by
  rw [completing, hbody, appendAll_of_room hw hroom, Run.andThen_ok, hf]
  rfl

/-- With room the command raises what follows the append raises: how far the output had got is forgotten. -/
theorem finish_appended_raise (hw : w.cfg.wf = true) (hbody : body s = (appendAll bs w).andThen f)
    (hroom : w.RoomFor bs) {k : FaultKind} {v : Word} {u : State} (hk : k.isExecution = true)
    (hf : f () (w.pushAll bs) = .raise k v u) (hu : SameButOutput (w.pushAll bs) u) (p : Word) :
    finish p (completing body s) = .next (takeFault k v p w) := by
  rw [completing, hbody, appendAll_of_room hw hroom, Run.andThen_ok, hf, Run.andThen_raise, finish_raise,
    takeFault_sameButOutput hk ((sameButOutput_pushAll w bs).trans hu)]

/-- Without room the command overflows, whatever follows the append. -/
theorem finish_overflowed (hw : w.cfg.wf = true) (hbody : body s = (appendAll bs w).andThen f) (hno : ¬ w.RoomFor bs)
    (p : Word) : finish p (completing body s) = .next (takeFault .outputOverflow 0#32 p w) := by
  obtain ⟨t, ht, h⟩ := appendAll_of_noRoom hw hno
  rw [completing, hbody, h, Run.andThen_raise, Run.andThen_raise, finish_raise, takeFault_sameButOutput rfl ht]

end Append

/-! ## RCNT -/

/-- Rule R61: the number four bytes stand for fits a word. -/
theorem countOf_lt (b0 b1 b2 b3 : Byte) : countOf b0 b1 b2 b3 < 2 ^ 32 := by
  have h0 := b0.isLt
  have h1 := b1.isLt
  have h2 := b2.isLt
  have h3 := b3.isLt
  unfold countOf
  omega

/-- The number the four bytes at IPOS stand for (rules R61, R206). -/
def State.countAtIpos (s : State) : Nat :=
  countOf (s.ibufByte s.ipos.toNat) (s.ibufByte (s.ipos.toNat + 1)) (s.ibufByte (s.ipos.toNat + 2))
    (s.ibufByte (s.ipos.toNat + 3))

/-- Rule R206: an accepted RCNT with four bytes left completes. -/
theorem exec_rcnt_completes {s : State} (he : s.status.err = false) (hl : lengthsHeld .rcnt s = true)
    (h4 : s.ipos.toNat + 4 ≤ s.ilen.toNat) :
    exec .rcnt s = .next
      { s with
        count := toWord s.countAtIpos, ipos := toWord (s.ipos.toNat + 4)
        status := { s.status with vCount := true, done := true } } := by
  have hread : 4 ≤ s.clearDone.ilen.toNat - s.clearDone.ipos.toNat := show 4 ≤ s.ilen.toNat - s.ipos.toNat by omega
  rw [exec_ready (i := .rcnt) he rfl hl]
  simp only [bodyOf, completing, bodyRcnt, if_pos hread]
  rfl

/-- Settles O42: RCNT reads its four bytes lowest address first. -/
theorem rcntReadsCount : Obligations.RcntReadsCount := by
  intro s he hcap h4
  have hlt := s.ilen.isLt
  have hl : lengthsHeld .rcnt s = true := by
    simp [lengthsHeld, State.ilenFits, State.iposFits, hcap]
    omega
  exact ⟨_, exec_rcnt_completes he hl h4, toWord_toNat (by omega), toWord_toNat (countOf_lt _ _ _ _), rfl⟩

/-! ## PACK -/

/-- A payload is empty only for no bits (rule R100). -/
theorem payload_eq_nil_iff (bits : List Bool) : payload bits = [] ↔ bits = [] := by
  refine ⟨fun h => ?_, fun h => by rw [h, payload_nil]⟩
  have hlen := payload_length bits
  rw [h, List.length_nil] at hlen
  exact List.eq_nil_of_length_eq_zero (by omega)

/-- PACK passes its length check when ILEN fits IBUF (rule R227). -/
theorem lengthsHeld_pack {s : State} (hcap : s.ilen.toNat ≤ s.cfg.ibufCap) : lengthsHeld .pack s = true := by
  simpa [lengthsHeld, State.ilenFits] using hcap

/-- Settles O44: with a code for every byte PACK is one append of the payload. -/
theorem packAppendsPayload : Obligations.PackAppendsPayload := by
  intro s bits he hv hcap hw hvalid hbits
  subst hbits
  set bits := bitsOf (fun x => (s.codeAt x.toNat).bits) s.input
  have hlen := payload_length bits
  have hbody : bodyPack s.clearDone = appendAll (payload bits) s.clearDone := bodyPack_spec s.clearDone hvalid
  obtain ⟨hok, hover⟩ := exec_appends (i := .pack) (bs := payload bits) he hv (lengthsHeld_pack hcap) hw
    (by rw [completing, ← hbody]; rfl)
  rw [← hlen]
  refine ⟨fun hroom => ?_, fun hne hno => hover (not_roomFor (mt (payload_eq_nil_iff bits).mp hne) hno)⟩
  obtain ⟨t, h, holen, hin, hout, hframe⟩ := hok (hroom.imp_left (payload_eq_nil_iff bits).mpr)
  exact ⟨t, h, rfl, holen, hin, hout, hframe⟩

/-- Settles O45: PACK appends the whole bytes of the codes before the missing one and then raises NoCode, or overflows
on the way. -/
theorem packWithoutCode : Obligations.PackWithoutCode := by
  intro s pre post x bits he hv hcap hw hin hx hpre hbits
  subst hbits
  obtain ⟨full, hfull, hbody⟩ := bodyPack_noCode s.clearDone pre post x hin hx hpre
  have hfull : full.length = (bitsOf (fun y => (s.codeAt y.toNat).bits) pre).length / 8 := hfull
  have hexec : exec .pack s = finish s.ipos (completing bodyPack s.clearDone) :=
    exec_ready (i := .pack) he hv (lengthsHeld_pack hcap)
  rw [← hfull, hexec]
  refine ⟨fun hroom => ?_, fun h8 hno => ?_⟩
  · have hroom' : s.clearDone.RoomFor full := by
      refine hroom.imp_left fun h8 => List.eq_nil_of_length_eq_zero ?_
      rw [hfull, Nat.div_eq_of_lt h8]
    exact ⟨_, finish_appended_raise (s := s.clearDone) (w := s.clearDone) hw hbody hroom' rfl rfl
      (SameButOutput.refl _) s.ipos, rfl⟩
  · have hne : full ≠ [] := List.ne_nil_of_length_pos (by omega)
    exact ⟨_, finish_overflowed (s := s.clearDone) (w := s.clearDone) hw hbody (not_roomFor hne hno) s.ipos, rfl⟩

/-! ## UNPACK -/

/-- UNPACK passes its checks (rules R226, R227). -/
theorem exec_unpack {s : State} (he : s.status.err = false) (hv : s.status.vCode = true)
    (hc : s.status.vCount = true) (hcap : s.ilen.toNat ≤ s.cfg.ibufCap) (hpos : s.ipos.toNat ≤ s.ilen.toNat) :
    exec .unpack s = finish s.ipos (completing bodyUnpack s.clearDone) :=
  exec_ready (i := .unpack) he (by simp [flagsHeld, hv, hc])
    (by simp [lengthsHeld, State.ilenFits, State.iposFits, hcap, hpos])

/-- Rule R195: with COUNT = 0 UNPACK's body does nothing. -/
theorem bodyUnpack_zero {s : State} (h0 : s.count = 0#32) : bodyUnpack s = .ok () s := by
  have hdone : s.count.toNat ≤ 0 := by rw [h0]; exact Nat.le_refl 0
  unfold bodyUnpack
  rw [unpackLoop_done hdone, Run.andThen_ok]
  simp

/-- Settles O47: UNPACK's loop has nothing to do. -/
theorem unpackZeroCount : Obligations.UnpackZeroCount := by
  intro s he hv hc hcap hpos h0
  rw [exec_unpack he hv hc hcap hpos, completing, bodyUnpack_zero (s := s.clearDone) h0]
  rfl

/-- What UNPACK has done when it has emitted the symbols `xs` from the next `n` bytes: what a command that appends does,
and IPOS is `n` further. -/
def Unpacked (s t : State) (xs : List Byte) (n : Nat) : Prop :=
  t.ipos.toNat = s.ipos.toNat + n ∧ t.olen.toNat = s.olen.toNat + xs.length ∧
  (∀ (k : Nat) (x : Byte), xs[k]? = some x → t.obufByte (s.olen.toNat + k) = x) ∧
  (∀ a : Nat, a < s.olen.toNat ∨ s.olen.toNat + xs.length ≤ a → t.obufByte a = s.obufByte a) ∧
  t = { s with obuf := t.obuf, olen := t.olen, ipos := t.ipos, status := { s.status with done := true } }

/-- A state whose OBUF holds an appended list and whose IPOS has moved is what UNPACK leaves. -/
theorem unpacked_of_pushAll {s : State} (hw : s.cfg.wf = true) {xs : List Byte} (hroom : s.RoomFor xs) {n : Nat}
    (hn : s.ipos.toNat + n < 2 ^ 32) :
    Unpacked s ({ s.clearDone.pushAll xs with ipos := toWord (s.ipos.toNat + n) } : State).setDone xs n := by
  obtain ⟨holen, hin, hout⟩ := pushAll_output (s := s.clearDone) hw hroom
  refine ⟨toWord_toNat hn, holen, hin, hout, ?_⟩
  exact congrArg (fun u : State => { u with ipos := toWord (s.ipos.toNat + n) }) (pushed_command s xs)

/-- UNPACK on the bits of COUNT codes of a tree, whatever follows them: the symbols, or OutputOverflow. -/
theorem exec_unpack_codes {s : State} {T : HuffTree} {ps : List (List Bool × Byte)} (he : s.status.err = false)
    (hv : s.status.vCode = true) (hc : s.status.vCount = true) (hcap : s.ilen.toNat ≤ s.cfg.ibufCap)
    (hw : s.cfg.wf = true) (hT : T.size ≤ 511) (htrie : s.trie.cells = (deriveTables T).trie)
    (hps : ∀ p, p ∈ ps → p ∈ T.codeTable) (hcount : s.count.toNat = ps.length)
    (hb : BitsAt s (8 * s.ipos.toNat) (ps.flatMap Prod.fst)) :
    (s.RoomFor (ps.map Prod.snd) → ∃ t : State, exec .unpack s = .next t ∧
      Unpacked s t (ps.map Prod.snd) (((ps.flatMap Prod.fst).length + 7) / 8)) ∧
    (¬ s.RoomFor (ps.map Prod.snd) → ∃ t : State, exec .unpack s = .next t ∧ Overflowed s t) := by
  have hbody := bodyUnpack_all s.clearDone T ps hT htrie hps hcount hb
  have hfit := hb.1
  have hlt := s.ilen.isLt
  rw [exec_unpack he hv hc hcap (by omega)]
  refine ⟨fun hroom => ⟨_, finish_appended (s := s.clearDone) (w := s.clearDone) hw hbody hroom rfl s.ipos, ?_⟩,
    fun hno => ⟨_, finish_overflowed (s := s.clearDone) (w := s.clearDone) hw hbody hno s.ipos, rfl⟩⟩
  exact unpacked_of_pushAll hw hroom (by omega)

/-- Bits the input goes on with stand in IBUF at IPOS. -/
theorem bitsAt_of_input {s : State} {bits rest : List Bool} (hpos : s.ipos.toNat ≤ s.ilen.toNat)
    (h : bitsOfBytes (s.input.drop s.ipos.toNat) = bits ++ rest) :
    BitsAt s (8 * s.ipos.toNat) bits ∧ BitsAt s (8 * s.ipos.toNat + bits.length) rest ∧
      8 * s.ipos.toNat + bits.length + rest.length = 8 * s.ilen.toNat := by
  have hb := bitsAt_input hpos
  have hlen := bitsOfBytes_length (s.input.drop s.ipos.toNat)
  rw [List.length_drop, input_length] at hlen
  rw [h] at hb hlen
  rw [List.length_append] at hlen
  exact ⟨hb.append.1, hb.append.2, by omega⟩

/-- Room for the symbols of some pairs of a code and its symbol, counted by the pairs. -/
theorem roomFor_symbols_iff (s : State) (ps : List (List Bool × Byte)) :
    s.RoomFor (ps.map Prod.snd) ↔ ps = [] ∨ s.olen.toNat + ps.length ≤ s.cfg.obufCap := by
  rw [State.RoomFor, List.map_eq_nil_iff, List.length_map]

/-- No room for them. -/
theorem not_roomFor_symbols {s : State} {ps : List (List Bool × Byte)} (hne : ps ≠ [])
    (hno : s.cfg.obufCap < s.olen.toNat + ps.length) : ¬ s.RoomFor (ps.map Prod.snd) :=
  not_roomFor (mt List.map_eq_nil_iff.mp hne) (by rwa [List.length_map])

/-- Settles O46: UNPACK's loop walks the trie code by code; the payload's bits are the codes of its symbols. -/
theorem unpackInvertsPack : Obligations.UnpackInvertsPack := by
  constructor
  · intro s T ps rest he hv hc hcap hw hpos hT htrie hps hcount hbits
    obtain ⟨hb, -, -⟩ := bitsAt_of_input hpos hbits
    obtain ⟨hok, hover⟩ := exec_unpack_codes he hv hc hcap hw hT htrie hps hcount hb
    refine ⟨fun hroom => ?_, fun hne hno => hover (not_roomFor_symbols hne hno)⟩
    obtain ⟨t, h, hun⟩ := hok ((roomFor_symbols_iff s ps).mpr hroom)
    rw [Unpacked, List.length_map] at hun
    exact ⟨t, h, hun⟩
  · intro s T xs he hv hc hcap hw hT htrie hxs hcount hlen hbytes
    have hb := bitsAt_payload hlen hbytes
    rw [← firstCodes_bits] at hb
    obtain ⟨hok, hover⟩ := exec_unpack_codes he hv hc hcap hw hT htrie (firstCodes_mem hxs)
      (by rwa [firstCodes_length]) hb
    rw [firstCodes_symbols, firstCodes_bits, ← payload_length] at hok
    rw [firstCodes_symbols] at hover
    exact ⟨hok, fun hne hno => hover (not_roomFor hne hno)⟩

/-! ## UNPACK's faults -/

/-- What UNPACK reads besides IBUF stays while it appends (rules R190, R191). -/
theorem SameButOutput.unpackOperands {s t : State} (h : SameButOutput s t) :
    t.trie = s.trie ∧ t.ilen = s.ilen ∧ t.count = s.count := by
  rw [show t = { s with obuf := t.obuf, olen := t.olen } from h]
  exact ⟨rfl, rfl, rfl⟩

/-- Rule R250: at the end of the input UNPACK's body raises EOS_PAYLOAD. -/
theorem bodyUnpack_atEnd {s : State} (hc : s.count ≠ 0#32) (hpos : s.ipos = s.ilen) :
    bodyUnpack s = .raise .eosPayload s.ilen s := by
  have hcount : 0 < s.count.toNat := Nat.pos_of_ne_zero fun h => hc (BitVec.eq_of_toNat_eq h)
  unfold bodyUnpack
  rw [unpackLoop_end hcount (by rw [hpos]), hpos, toWord_of_toNat]
  rfl

/-- Every code of a one-leaf tree is one bit (rule R153). -/
theorem length_codes_of_leaf {x : Byte} {ps : List (List Bool × Byte)}
    (hps : ∀ p, p ∈ ps → p ∈ (HuffTree.leaf x).codeTable) : (ps.flatMap Prod.fst).length = ps.length := by
  induction ps with
  | nil => rfl
  | cons p ps ih =>
    obtain ⟨hp, hrest⟩ := List.forall_mem_cons.mp hps
    cases List.mem_singleton.mp hp
    rw [List.flatMap_cons, List.length_append, ih hrest, List.length_cons]
    exact Nat.add_comm 1 _

/-- A fault of UNPACK after whole codes with room for their symbols: what the loop raises where they end. -/
theorem exec_unpack_raises {s : State} {T : HuffTree} {ps : List (List Bool × Byte)} {rest : List Bool}
    (he : s.status.err = false) (hv : s.status.vCode = true) (hc : s.status.vCount = true)
    (hcap : s.ilen.toNat ≤ s.cfg.ibufCap) (hw : s.cfg.wf = true) (hpos : s.ipos.toNat ≤ s.ilen.toNat)
    (hT : T.size ≤ 511) (htrie : s.trie.cells = (deriveTables T).trie) (hps : ∀ p, p ∈ ps → p ∈ T.codeTable)
    (hbits : bitsOfBytes (s.input.drop s.ipos.toNat) = ps.flatMap Prod.fst ++ rest)
    (hcount : ps.length ≤ s.count.toNat) (hroom : s.RoomFor (ps.map Prod.snd)) {k : FaultKind} {v : Word}
    (hk : k.isExecution = true) (hsp : k.spoilsTree = false)
    (hraise : ∀ t : State, SameButOutput s.clearDone t →
      unpackLoop rest.length (cursorAt (8 * s.ipos.toNat + (ps.flatMap Prod.fst).length) 0 ps.length) t =
        .raise k v t) :
    ∃ t : State, exec .unpack s = .next t ∧ Faulted s t k v := by
  obtain ⟨hb, -, hend⟩ := bitsAt_of_input hpos hbits
  have hbody := bodyUnpack_codes s.clearDone T ps rest.length hT htrie hps hcount hb
    (show 8 * (s.ilen.toNat - s.ipos.toNat) = _ by omega)
  have hloop := hraise _ (sameButOutput_pushAll s.clearDone (ps.map Prod.snd))
  refine ⟨takeFault k v s.ipos s.clearDone, ?_, ?_⟩
  · rw [exec_unpack he hv hc hcap hpos]
    refine finish_appended_raise (s := s.clearDone) (w := s.clearDone) hw hbody hroom hk ?_
      (SameButOutput.refl _) s.ipos
    simp only [State.clearDone_ipos, hloop, Run.andThen_raise]
  · rw [takeFault_execution hk hsp]
    rfl

/-- Settles O48: after whole codes the loop meets the end of the input inside a code, a '1' that leads nowhere, or no
room for a symbol it has read. -/
theorem unpackFaults : Obligations.UnpackFaults := by
  refine ⟨fun s he hv hc hcap hcount hpos => ?_, fun s T ps rest he hv hc hcap hw hpos hT htrie hps hbits =>
    ⟨fun hcount hroom ⟨p, hp, hpre, hne⟩ => ?_, fun x tail hcount hroom hleaf hrest => ?_, fun hcount hne hno => ?_⟩⟩
  · exact raise_command (body := bodyUnpack) (i := .unpack) rfl rfl he (by simp [flagsHeld, hv, hc])
      (by simp [lengthsHeld, State.ilenFits, State.iposFits, hcap, hpos]) rfl (SameButOutput.refl _)
      (bodyUnpack_atEnd (s := s.clearDone) hcount hpos)
  · obtain ⟨-, hbr, hend⟩ := bitsAt_of_input hpos hbits
    refine exec_unpack_raises he hv hc hcap hw hpos hT htrie hps hbits (by omega)
      ((roomFor_symbols_iff s ps).mpr hroom) (k := .eosPayload) rfl rfl fun t ht => ?_
    obtain ⟨htr, hil, hct⟩ := ht.unpackOperands
    have h := unpackLoop_truncated hT (htr ▸ htrie) hp hpre hne (sameButOutput_bitsAt ht hbr) (by rw [hil]; exact hend)
      (by rw [hct]; exact hcount) 0
    rwa [Nat.zero_add, hil] at h
  · subst hleaf hrest
    obtain ⟨-, hbr, -⟩ := bitsAt_of_input hpos hbits
    have hlen := length_codes_of_leaf hps
    refine exec_unpack_raises he hv hc hcap hw hpos hT htrie hps hbits (by omega)
      ((roomFor_symbols_iff s ps).mpr hroom) (k := .noMatch) rfl rfl fun t ht => ?_
    obtain ⟨htr, -, hct⟩ := ht.unpackOperands
    have h := unpackLoop_noMatch (x := x) (htr ▸ htrie) (sameButOutput_bitsAt ht hbr)
      (by rw [hct]; exact hcount) tail.length
    rwa [show (8 * s.ipos.toNat + (ps.flatMap Prod.fst).length) / 8 = s.ipos.toNat + ps.length / 8 by omega] at h
  · obtain ⟨hb, -, hend⟩ := bitsAt_of_input hpos hbits
    have hbody := bodyUnpack_codes s.clearDone T ps rest.length hT htrie hps hcount hb
      (show 8 * (s.ilen.toNat - s.ipos.toNat) = _ by omega)
    rw [exec_unpack he hv hc hcap hpos]
    exact ⟨_, finish_overflowed (s := s.clearDone) (w := s.clearDone) hw hbody
      (not_roomFor_symbols hne hno) s.ipos, rfl⟩

end Sys2Proof.Machine
end

section
/-! PROOFS. COMPRESS and DECOMPRESS (45_container_framing.md): the container, the stage scripts and the round trip:
obligations O49, O50, O51, O52, O53 and O54. -/

namespace Sys2Proof.Machine

/-! ## Appending to an empty output -/

/-- An empty output has room for exactly the lists that fit OBUF. -/
theorem roomFor_iff_of_empty {u : State} (h0 : u.olen = 0#32) (bs : List Byte) :
    u.RoomFor bs ↔ bs.length ≤ u.cfg.obufCap := by
  rw [State.RoomFor, h0, BitVec.toNat_zero, Nat.zero_add]
  refine ⟨?_, .inr⟩
  rintro (rfl | h)
  · exact Nat.zero_le _
  · exact h

/-- A list appended to an empty output is the output; the bytes from its end on are as before. -/
theorem pushAll_output_of_empty {u : State} (hw : u.cfg.wf = true) (h0 : u.olen = 0#32) {bs : List Byte}
    (hfit : bs.length ≤ u.cfg.obufCap) :
    (u.pushAll bs).output = bs ∧ ∀ a : Nat, bs.length ≤ a → (u.pushAll bs).obufByte a = u.obufByte a := by
  have hobuf := Config.obufCap_lt hw
  obtain ⟨-, -, hout⟩ := pushAll_output hw ((roomFor_iff_of_empty h0 bs).mpr hfit)
  refine ⟨output_pushAll h0 (by omega), fun a ha => hout a (.inr ?_)⟩
  rwa [h0, BitVec.toNat_zero, Nat.zero_add]

/-! ## COMPRESS -/

/-- An accepted COMPRESS runs its pseudocode. -/
theorem exec_compress {s : State} (he : s.status.err = false) (hcap : s.ilen.toNat ≤ s.cfg.ibufCap) :
    exec .compress s = finish s.ipos (completing bodyCompress s.clearDone) :=
  exec_ready (i := .compress) he rfl (by simpa [lengthsHeld, State.ilenFits] using hcap)

/-- What COMPRESS's stages before the first append leave (rule R208): the tables are new and the output is empty. -/
def Coded (s u : State) : Prop :=
  u = { s with
    olen := 0#32, freq := u.freq, nsym := u.nsym, node := u.node, nnode := u.nnode, root := u.root
    heap := u.heap, hsize := u.hsize, code := u.code, trie := u.trie
    status := { s.status with vFreq := true, vTree := true, vCode := true, done := false } }

/-- COMPRESS on an input that is not empty appends the container of the input's Huffman tree (rules R95, R208). -/
theorem bodyCompress_container {s : State} (h1 : 1 ≤ s.ilen.toNat) :
    ∃ (T : HuffTree) (u : State), huffmanTree (fun k => occurrences k s.input) = some T ∧ T.size ≤ 511 ∧
      (∀ x ∈ s.input, x ∈ T.symbols) ∧ Coded s u ∧
      bodyCompress s.clearDone = (appendAll (container T s.input) u).andThen fun _ t => .ok () t := by
  obtain ⟨T, u, hgreedy, hsize, hsym, hbody, hu⟩ := bodyCompress_ok s.clearDone h1
  refine ⟨T, u, hgreedy, hsize, hsym, hu, hbody.trans ?_⟩
  show appendAll (container T s.input) u = _
  cases appendAll (container T s.input) u <;> rfl

section Coded
variable {s u : State} (hu : Coded s u)
include hu

theorem Coded.cfg : u.cfg = s.cfg := by rw [show u = _ from hu]

theorem Coded.olen : u.olen = 0#32 := by rw [show u = _ from hu]

theorem Coded.obufByte (a : Nat) : u.obufByte a = s.obufByte a := by rw [show u = _ from hu]; rfl

/-- What COMPRESS changes when it completes (rule R208). -/
theorem Coded.frame {t : State} (ht : SameButOutput u t) :
    t.setDone =
      { s with
        freq := t.freq, nsym := t.nsym, node := t.node, nnode := t.nnode, root := t.root
        heap := t.heap, hsize := t.hsize, code := t.code, trie := t.trie, obuf := t.obuf, olen := t.olen
        status := { s.status with vFreq := true, vTree := true, vCode := true, done := true } } := by
  rw [show t = { u with obuf := t.obuf, olen := t.olen } from ht, show u = _ from hu]
  rfl

/-- What COMPRESS leaves when it overflows (rules R240, R252). -/
theorem Coded.overflow (p : Word) :
    (takeFault .outputOverflow 0#32 p u).count = s.count ∧
    (takeFault .outputOverflow 0#32 p u).status =
      { s.status with vFreq := true, vTree := true, vCode := true, done := false, err := true } := by
  rw [show u = _ from hu]
  exact ⟨rfl, rfl⟩

end Coded

/-- Settles O49: the stages before TSER make the Huffman tree and its codes, and the three that append make the
container from an empty output. -/
theorem compressMakesContainer : Obligations.CompressMakesContainer := by
  intro s he hcap hw h1
  obtain ⟨T, u, hgreedy, -, -, hu, hbody⟩ := bodyCompress_container h1
  have hw' : u.cfg.wf = true := hu.cfg ▸ hw
  have hroom := roomFor_iff_of_empty hu.olen (container T s.input)
  rw [exec_compress he hcap]
  refine ⟨T, hgreedy, fun hfit => ?_, fun hno => ?_⟩
  · rw [← hu.cfg] at hfit
    obtain ⟨hout, hrest⟩ := pushAll_output_of_empty hw' hu.olen hfit
    exact ⟨_, finish_appended (s := s.clearDone) hw' hbody (hroom.mpr hfit) rfl s.ipos, hout,
      fun a ha => (hrest a ha).trans (hu.obufByte a), hu.frame (sameButOutput_pushAll u _)⟩
  · rw [← hu.cfg] at hno
    obtain ⟨hcount, hstatus⟩ := hu.overflow s.ipos
    exact ⟨_, finish_overflowed (s := s.clearDone) hw' hbody (mt hroom.mp (by omega)) s.ipos, rfl, rfl, rfl, rfl,
      hcount, hstatus⟩

/-! ## What COMPRESS reports -/

/-- The bytes COMPRESS leaves in the output, and ERR and ERRVAL when it faults: a function of OBUF_CAP and the input. -/
def compressReport (obufCap : Nat) (xs : List Byte) : List Byte × Option (Word × Word) :=
  match huffmanTree fun k => occurrences k xs with
  | none => ([], some (0x01#32, 0#32))
  | some T => if (container T xs).length ≤ obufCap then (container T xs, none) else ([], some (0x05#32, 0#32))

/-- A state shows a report. -/
def Shows (t : State) (r : List Byte × Option (Word × Word)) : Prop :=
  t.output = r.1 ∧ t.status.done = r.2.isNone ∧ t.status.err = r.2.isSome ∧
  ∀ e, r.2 = some e → t.err = e.1 ∧ t.errval = e.2

/-- No tree is made of no symbol. -/
theorem huffmanTree_empty : huffmanTree (fun k => occurrences k []) = none := by
  simp [huffmanTree, leafItems, presentSymbols, occurrences, greedy]

/-- After an execution fault the state shows the fault and no output. -/
theorem takeFault_shows {k : FaultKind} (hk : k.isExecution = true) (v p : Word) (s : State) :
    Shows (takeFault k v p s) ([], some (k.errWord, v)) := by
  obtain ⟨holen, -⟩ := takeFault_discards hk v p s
  obtain ⟨-, -, -, -, -, -, -, -, -, -, hstatus, herr, herrval⟩ := takeFault_kept k v p s
  refine ⟨?_, by rw [hstatus]; rfl, by rw [hstatus]; rfl, fun e h => ?_⟩
  · rw [State.output, holen]
    rfl
  · cases h
    exact ⟨herr, herrval⟩

/-- COMPRESS shows its report (rules R122, R208, R252, R256). -/
theorem exec_compress_shows {s t : State} (he : s.status.err = false) (hcap : s.ilen.toNat ≤ s.cfg.ibufCap)
    (hw : s.cfg.wf = true) (h : exec .compress s = .next t) : Shows t (compressReport s.cfg.obufCap s.input) := by
  rcases Nat.eq_zero_or_pos s.ilen.toNat with h0 | h1
  · have hz : s.ilen = 0#32 := BitVec.eq_of_toNat_eq h0
    obtain ⟨u, hbody, -⟩ := bodyCompress_empty s.clearDone hz
    rw [exec_compress he hcap, completing, hbody] at h
    cases h
    rw [compressReport, input_eq_nil hz, huffmanTree_empty]
    exact takeFault_shows rfl _ _ _
  · obtain ⟨T, hT, hok, hover⟩ := compressMakesContainer s he hcap hw h1
    simp only [compressReport, hT]
    split
    · rename_i hfit
      obtain ⟨t', h', hout, -, hframe⟩ := hok hfit
      cases h.symm.trans h'
      exact ⟨hout, by rw [hframe]; rfl, by rw [hframe]; exact he, fun e h => by cases h⟩
    · rename_i hno
      obtain ⟨t', h', herr, herrval, holen, -, -, hstatus⟩ := hover (by omega)
      cases h.symm.trans h'
      refine ⟨by rw [State.output, holen]; rfl, by rw [hstatus]; rfl, by rw [hstatus]; rfl, fun e h => ?_⟩
      cases h
      exact ⟨herr, herrval⟩

/-- Settles O54: both states show the one report of their common input. -/
theorem compressDependsOnlyOnInput : Obligations.CompressDependsOnlyOnInput := by
  intro s s' t t' he he' hcfg hw hcap hilen hin h h'
  obtain ⟨hout, hdone, herr, hrec⟩ := exec_compress_shows he hcap hw h
  obtain ⟨hout', hdone', herr', hrec'⟩ := exec_compress_shows he' (hcfg ▸ hilen ▸ hcap) (hcfg ▸ hw) h'
  rw [← hcfg, ← hin] at hout' hdone' herr' hrec'
  refine ⟨hout.trans hout'.symm, hdone.trans hdone'.symm, herr.trans herr'.symm, fun ht => ?_⟩
  obtain ⟨e, hfault⟩ := Option.isSome_iff_exists.mp (herr.symm.trans ht)
  obtain ⟨h1, h2⟩ := hrec e hfault
  obtain ⟨h1', h2'⟩ := hrec' e hfault
  exact ⟨h1.trans h1'.symm, h2.trans h2'.symm⟩

/-! ## DECOMPRESS -/

/-- An accepted DECOMPRESS runs its pseudocode. -/
theorem exec_decompress {s : State} (he : s.status.err = false) (hcap : s.ilen.toNat ≤ s.cfg.ibufCap) :
    exec .decompress s = finish s.ipos (completing bodyDecompress s.clearDone) :=
  exec_ready (i := .decompress) he rfl (by simpa [lengthsHeld, State.ilenFits] using hcap)

/-- What DECOMPRESS's stages before UNPACK leave (rule R210): the tree, its codes and the count `n` are new, and the
output is empty. -/
def Decoding (s u : State) (n : Nat) : Prop :=
  u = { s with
    olen := 0#32, ipos := u.ipos, count := toWord n, node := u.node, nnode := u.nnode, root := u.root
    code := u.code, trie := u.trie
    status := { s.status with vTree := true, vCode := true, vCount := true, done := false } }

/-- What DECOMPRESS has done when it has emitted the symbols `xs` from the first `n` bytes of the input (rule R210). -/
def Decompressed (s t : State) (xs : List Byte) (n : Nat) : Prop :=
  t.output = xs ∧ t.count.toNat = xs.length ∧ t.ipos.toNat = n ∧
  (∀ a : Nat, xs.length ≤ a → t.obufByte a = s.obufByte a) ∧
  t =
    { s with
      node := t.node, nnode := t.nnode, root := t.root, code := t.code, trie := t.trie
      count := t.count, ipos := t.ipos, obuf := t.obuf, olen := t.olen
      status := { s.status with vTree := true, vCode := true, vCount := true, done := true } }

/-- What DECOMPRESS has done when OBUF has no room for the `n` symbols counted (rules R211, R240, R252). -/
def DecompressOverflowed (s t : State) (n : Nat) : Prop :=
  t.count.toNat = n ∧
  t =
    { s with
      node := t.node, nnode := t.nnode, root := t.root, code := t.code, trie := t.trie
      count := t.count, obuf := t.obuf, olen := 0#32, fresh := t.fresh, err := 0x05#32, errval := 0#32
      status := { s.status with vTree := true, vCode := true, vCount := true, done := false, err := true } }

section Decoding
variable {s u : State} {n : Nat} (hu : Decoding s u n)
include hu

theorem Decoding.cfg : u.cfg = s.cfg := by rw [show u = _ from hu]

theorem Decoding.olen : u.olen = 0#32 := by rw [show u = _ from hu]

theorem Decoding.obufByte (a : Nat) : u.obufByte a = s.obufByte a := by rw [show u = _ from hu]; rfl

theorem Decoding.count_toNat (hn : n < 2 ^ 32) : u.count.toNat = n := by
  rw [show u = _ from hu]
  exact toWord_toNat hn

/-- With room UNPACK's stage makes what DECOMPRESS is to leave. -/
theorem Decoding.decompressed (hw : s.cfg.wf = true) {xs : List Byte} (hn : n = xs.length)
    (hfit : xs.length ≤ s.cfg.obufCap) {m : Nat} (hm : m < 2 ^ 32) :
    Decompressed s ({ u.pushAll xs with ipos := toWord m } : State).setDone xs m := by
  have hobuf := Config.obufCap_lt hw
  have hframe := sameButOutput_pushAll u xs
  obtain ⟨hout, hrest⟩ := pushAll_output_of_empty (hu.cfg ▸ hw) hu.olen (hfit.trans_eq (by rw [hu.cfg]))
  refine ⟨hout, ?_, toWord_toNat hm, fun a ha => (hrest a ha).trans (hu.obufByte a), ?_⟩
  · rw [← hn]
    refine Eq.trans ?_ (hu.count_toNat (by omega))
    rw [show u.pushAll xs = _ from hframe]
    rfl
  · rw [show u.pushAll xs = _ from hframe, show u = _ from hu]
    rfl

/-- Without room UNPACK's stage overflows. -/
theorem Decoding.overflowed (hn : n < 2 ^ 32) :
    DecompressOverflowed s (takeFault .outputOverflow 0#32 s.ipos u) n := by
  refine ⟨hu.count_toNat hn, ?_⟩
  rw [show u = _ from hu]
  rfl

end Decoding

/-- DECOMPRESS on a tree, a count and the bits of that many of the tree's codes, whatever follows them: the symbols, or
OutputOverflow (rules R194, R210, R252). -/
theorem exec_decompress_codes {s : State} {T : HuffTree} {ps : List (List Bool × Byte)} (he : s.status.err = false)
    (hcap : s.ilen.toNat ≤ s.cfg.ibufCap) (hw : s.cfg.wf = true) (hT : T.size ≤ 511)
    (hps : ∀ p ∈ ps, p ∈ T.codeTable) (hl : ps.length < 2 ^ 32)
    (hp : ser T ++ countBytes (toWord ps.length) <+: s.input)
    (hb : BitsAt s (8 * ((ser T).length + 4)) (ps.flatMap Prod.fst)) :
    (ps.length ≤ s.cfg.obufCap → ∃ t : State, exec .decompress s = .next t ∧
      Decompressed s t (ps.map Prod.snd) ((ser T).length + 4 + ((ps.flatMap Prod.fst).length + 7) / 8)) ∧
    (s.cfg.obufCap < ps.length → ∃ t : State, exec .decompress s = .next t ∧ DecompressOverflowed s t ps.length) := by
  obtain ⟨u, hbody, hu⟩ := bodyDecompress_codes s.clearDone T ps hT hps hp hb hl
  change Decoding s u ps.length at hu
  have hw' : u.cfg.wf = true := hu.cfg ▸ hw
  have hroom := roomFor_iff_of_empty hu.olen (ps.map Prod.snd)
  have hlen : (ps.map Prod.snd).length = ps.length := List.length_map _
  rw [hlen, hu.cfg] at hroom
  have hbits := hb.1
  have hlt := s.ilen.isLt
  rw [exec_decompress he hcap]
  refine ⟨fun hfit => ⟨_, finish_appended (s := s.clearDone) hw' hbody (hroom.mpr hfit) rfl s.ipos, ?_⟩,
    fun hno => ⟨_, finish_overflowed (s := s.clearDone) hw' hbody (mt hroom.mp (by omega)) s.ipos, hu.overflowed hl⟩⟩
  exact hu.decompressed hw hlen.symm (hlen.trans_le hfit) (by omega)

/-- DECOMPRESS on input that begins with a container of symbols that fit OBUF (rules R101, R210). -/
theorem exec_decompress_container {s : State} {T : HuffTree} {xs : List Byte} (he : s.status.err = false)
    (hcap : s.ilen.toNat ≤ s.cfg.ibufCap) (hw : s.cfg.wf = true) (hT : T.size ≤ 511)
    (hxs : ∀ x ∈ xs, x ∈ T.symbols) (hp : container T xs <+: s.input) (hfit : xs.length ≤ s.cfg.obufCap) :
    ∃ t : State, exec .decompress s = .next t ∧ Decompressed s t xs (container T xs).length := by
  have hobuf := Config.obufCap_lt hw
  have hilen := s.ilen.isLt
  have hlen : (container T xs).length ≤ s.ilen.toNat := hp.length_le.trans_eq (input_length s)
  obtain ⟨u, hbody, hu⟩ := bodyDecompress_ok s.clearDone T xs hT hxs hp (by omega)
  change Decoding s u xs.length at hu
  rw [exec_decompress he hcap]
  exact ⟨_, finish_appended (s := s.clearDone) (hu.cfg ▸ hw) hbody
      ((roomFor_iff_of_empty hu.olen xs).mpr (hfit.trans_eq (by rw [hu.cfg]))) rfl s.ipos,
    hu.decompressed hw rfl hfit (by omega)⟩

/-- Settles O52: the bits after the count stand in IBUF as the codes they are; a container is the case of each
symbol's own code. -/
theorem decompressDecodesContainer : Obligations.DecompressDecodesContainer := by
  constructor
  · intro s T ps rest he hcap hw hT hps hl hp hbits
    have hlen := hp.length_le
    rw [input_length, List.length_append, show (countBytes _).length = 4 from rfl] at hlen
    have hb := bitsAt_input hlen
    rw [hbits] at hb
    obtain ⟨hok, hover⟩ := exec_decompress_codes he hcap hw hT hps hl hp hb.append.1
    refine ⟨fun hfit => ?_, hover⟩
    obtain ⟨t, h, hdec⟩ := hok hfit
    rw [Decompressed, List.length_map] at hdec
    exact ⟨t, h, hdec⟩
  · intro s T xs he hcap hw hT hxs hp hfit
    exact exec_decompress_container he hcap hw hT hxs hp hfit

/-! ## The round trip -/

/-- Where COMPRESS completes, its output is the container of its input under a tree of the input's symbols (rules R95,
R208). -/
theorem output_of_compress_done {s t : State} (he : s.status.err = false) (hw : s.cfg.wf = true)
    (h : exec .compress s = .next t) (hd : t.status.done = true) :
    ∃ T : HuffTree, T.size ≤ 511 ∧ (∀ x ∈ s.input, x ∈ T.symbols) ∧ t.output = container T s.input := by
  rcases exec_next_cases h with ⟨he', -⟩ | ⟨k, -, rfl⟩ | hok | ⟨k, v, u, -, rfl⟩
  · rw [he] at he'; cases he'
  · cases hd
  · change completing bodyCompress s.clearDone = .ok () t at hok
    rcases Nat.eq_zero_or_pos s.ilen.toNat with h0 | h1
    · obtain ⟨u, hbody, -⟩ := bodyCompress_empty s.clearDone (BitVec.eq_of_toNat_eq h0)
      rw [completing, hbody] at hok
      cases hok
    · obtain ⟨T, u, -, hT, hsym, hu, hbody⟩ := bodyCompress_container h1
      have hw' : u.cfg.wf = true := hu.cfg ▸ hw
      refine ⟨T, hT, hsym, ?_⟩
      by_cases hroom : u.RoomFor (container T s.input)
      · rw [completing, hbody, appendAll_of_room hw' hroom] at hok
        cases hok
        exact (pushAll_output_of_empty hw' hu.olen ((roomFor_iff_of_empty hu.olen _).mp hroom)).1
      · obtain ⟨r, -, hr⟩ := appendAll_of_noRoom hw' hroom
        rw [completing, hbody, hr] at hok
        cases hok
  · rw [takeFault_status] at hd; cases hd

/-- Settles O53: the output of COMPRESS is a container, and DECOMPRESS decodes a container. -/
theorem roundTrip : Obligations.RoundTrip := by
  intro s t u he hw hwu h hd heu hcap hin hfit
  obtain ⟨T, hT, hsym, hout⟩ := output_of_compress_done he hw h hd
  have hlen : s.input.length = s.ilen.toNat := input_length s
  have hp : container T s.input <+: u.input := (hout.symm.trans hin.symm) ▸ List.prefix_refl _
  obtain ⟨v, hv, hvout, hcount, hipos, -, hframe⟩ :=
    exec_decompress_container heu hcap hwu hT hsym hp (hlen.trans_le hfit)
  refine ⟨v, hv, by rw [hframe], hvout, BitVec.eq_of_toNat_eq (hcount.trans hlen), BitVec.eq_of_toNat_eq ?_⟩
  rw [hipos, ← hout, ← hin, input_length]

/-! ## The stage scripts -/

section Leaves
variable {α : Type}

/-- Where a run ends normally it leaves a state that satisfies `P`. -/
def Run.Leaves (r : Run α) (P : State → Prop) : Prop :=
  r.Ends (fun _ t => P t) (fun _ _ _ => True) (fun _ => True)

theorem Run.Ends.leaves {r : Run α} {okP : α → State → Prop} {raiseP : FaultKind → Word → State → Prop}
    {stopP : Fault → Prop} (h : r.Ends okP raiseP stopP) {P : State → Prop} (hP : ∀ a t, okP a t → P t) : r.Leaves P :=
  h.mono hP (fun _ _ _ _ => trivial) (fun _ _ => trivial)

end Leaves

/-- One stage's pseudocode after another's. -/
def followedBy (body bodyI : State → Run Unit) (s : State) : Run Unit :=
  (body s).andThen fun _ t => bodyI t

/-- Between two stages of a script on the input of `s`: the input and the capacities are those of `s`, IPOS satisfies
`Q`, and STATUS is `st`. -/
structure Staged (s : State) (Q : Word → Prop) (st : Status) (t : State) : Prop where
  ipos : Q t.ipos
  ilen : t.ilen = s.ilen
  cfg : t.cfg = s.cfg
  status : t.status = st

section Stages
variable {s t : State} {Q : Word → Prop} {st : Status}

theorem Staged.ilenFits (h : Staged s Q st t) (hcap : s.ilen.toNat ≤ s.cfg.ibufCap) : t.ilenFits = true := by
  rw [State.ilenFits, h.ilen, h.cfg]
  exact decide_eq_true hcap

theorem Staged.iposFits (h : Staged s (fun p => p.toNat ≤ s.ilen.toNat) st t) : t.iposFits = true := by
  rw [State.iposFits, h.ilen]
  exact decide_eq_true h.ipos

/-- A stage that only appends. -/
theorem Staged.appended (h : Staged s Q st t) {u : State} (hu : SameButOutput t u) : Staged s Q st u := by
  rw [show u = _ from hu]
  exact ⟨h.ipos, h.ilen, h.cfg, h.status⟩

theorem Staged.fcnt (h : Staged s Q st t) :
    (bodyFcnt t).Leaves (Staged s Q { st with vFreq := true, vTree := false, vCode := false }) :=
  (bodyFcnt_ends t).leaves fun _ u hu => by
    rw [hu, h.status]
    exact ⟨h.ipos, h.ilen, h.cfg, rfl⟩

theorem Staged.build (h : Staged s Q st t) :
    (bodyBuild t).Leaves (Staged s Q { st with vTree := true, vCode := false }) :=
  (bodyBuild_ends t).leaves fun _ u hu => by
    rw [hu, h.status]
    exact ⟨h.ipos, h.ilen, h.cfg, rfl⟩

theorem Staged.derive (h : Staged s Q st t) : (bodyDerive t).Leaves (Staged s Q { st with vCode := true }) :=
  (bodyDerive_ends t).leaves fun _ u hu => by
    obtain ⟨T, -, hu⟩ := hu
    rw [hu, h.status]
    exact ⟨h.ipos, h.ilen, h.cfg, rfl⟩

theorem Staged.tser (h : Staged s Q st t) : (bodyTser t).Leaves (Staged s Q st) :=
  (bodyTser_ends t).leaves fun _ _ hu => h.appended hu

theorem Staged.wcnt (h : Staged s Q st t) : (bodyWcnt t).Leaves (Staged s Q st) :=
  (bodyWcnt_ends t).leaves fun _ _ hu => h.appended hu

theorem Staged.tdes (h : Staged s Q st t) :
    (bodyTdes t).Leaves
      (Staged s (fun p => p.toNat ≤ s.ilen.toNat) { st with vTree := true, vCode := false }) :=
  ((bodyTdes_ends t).and (bodyTdes_ipos t)).leaves fun _ u hu => by
    obtain ⟨hu, hpos⟩ := hu
    rw [h.ilen] at hpos
    rw [hu, h.status]
    exact ⟨hpos, h.ilen, h.cfg, rfl⟩

theorem Staged.rcnt (h : Staged s (fun p => p.toNat ≤ s.ilen.toNat) st t) :
    (bodyRcnt t).Leaves (Staged s (fun p => p.toNat ≤ s.ilen.toNat) { st with vCount := true }) :=
  ((bodyRcnt_ends t).and (bodyRcnt_ipos t (h.ilen ▸ h.ipos))).leaves fun _ u hu => by
    obtain ⟨hu, hpos⟩ := hu
    rw [h.ilen] at hpos
    rw [hu, h.status]
    exact ⟨hpos, h.ilen, h.cfg, rfl⟩

end Stages

/-- A stage after one that leaves a state of a script. -/
theorem Run.Leaves.followedBy {body bodyI : State → Run Unit} {s : State} {P P' : State → Prop}
    (h : (body s).Leaves P) (hI : ∀ t, P t → (bodyI t).Leaves P') : (followedBy body bodyI s).Leaves P' :=
  h.andThen fun _ t ht => hI t ht

section ThenExec
variable {i : Instr} {body bodyI : State → Run Unit} {s r : State} {st : Status}

/-- Presenting the next stage of a script runs its pseudocode after what ran before; a fault is kept (rule R226). -/
theorem thenExec_staged {p : Word} (h : (body r).Leaves (Staged s (· = p) st)) (hi : bodyOf i = completing bodyI)
    (ha : acceptedWhileErr i = false) (he : st.err = false) (hd : st.done = false) (hf : flagsHeld i st = true)
    (hl : ∀ t, Staged s (· = p) st t → lengthsHeld i t = true) :
    thenExec (finish p (completing body r)) i = finish p (completing (followedBy body bodyI) r) := by
  refine thenExec_stage_same p hi ha (h.mono (fun _ t ht => ?_) (fun _ _ _ h => h) (fun _ h => h))
  rw [ht.status]
  exact ⟨he, hd, hf, hl t ht, ht.ipos⟩

/-- The same where the stages move IPOS: a later fault restores a later IPOS. -/
theorem thenExec_staged_moved {Q : Word → Prop} (h : (body r).Leaves (Staged s Q st)) (hi : bodyOf i = completing bodyI)
    (ha : acceptedWhileErr i = false) (he : st.err = false) (hd : st.done = false) (hf : flagsHeld i st = true)
    (hl : ∀ t, Staged s Q st t → lengthsHeld i t = true) (p : Word) :
    ∃ q, thenExec (finish p (completing body r)) i = finish q (completing (followedBy body bodyI) r) := by
  refine thenExec_stage_some p hi ha (h.mono (fun _ t ht => ?_) (fun _ _ _ h => h) (fun _ h => h))
  rw [ht.status]
  exact ⟨he, hd, hf, hl t ht⟩

end ThenExec

/-- COMPRESS's pseudocode is its stages' from an empty output. -/
theorem bodyCompress_eq_stages (s : State) :
    bodyCompress s =
      followedBy (followedBy (followedBy (followedBy (followedBy bodyFcnt bodyBuild) bodyDerive) bodyTser) bodyWcnt)
        bodyPack { s with olen := 0#32 } := by
  simp only [bodyCompress, followedBy, Run.andThen_assoc]

/-- DECOMPRESS's pseudocode is its stages' from IPOS = 0 and an empty output. -/
theorem bodyDecompress_eq_stages (s : State) :
    bodyDecompress s =
      followedBy (followedBy (followedBy bodyTdes bodyRcnt) bodyDerive) bodyUnpack
        { s with ipos := 0#32, olen := 0#32 } := by
  simp only [bodyDecompress, followedBy, Run.andThen_assoc]

/-- Settles O50: each stage finds its flags and lengths held by the stages before it, so it runs from where they end. -/
theorem compressIsStageScript : Obligations.CompressIsStageScript := by
  intro s he hcap
  have hfirst : exec .fcnt { s with olen := 0#32 } =
      finish s.ipos (completing bodyFcnt { s.clearDone with olen := 0#32 }) :=
    exec_ready (i := .fcnt) he rfl (by simpa [lengthsHeld, State.ilenFits] using hcap)
  have h0 : Staged s (· = s.ipos) s.clearDone.status { s.clearDone with olen := 0#32 } := ⟨rfl, rfl, rfl, rfl⟩
  have h1 := h0.fcnt
  have h2 := h1.followedBy fun _ h => h.build
  have h3 := h2.followedBy fun _ h => h.derive
  have h4 := h3.followedBy fun _ h => h.tser
  have h5 := h4.followedBy fun _ h => h.wcnt
  rw [exec_compress he hcap, completing, bodyCompress_eq_stages, hfirst,
    thenExec_staged (i := .build) h1 rfl rfl he rfl rfl fun _ _ => rfl,
    thenExec_staged (i := .derive) h2 rfl rfl he rfl rfl fun _ _ => rfl,
    thenExec_staged (i := .tser) h3 rfl rfl he rfl rfl fun _ _ => rfl,
    thenExec_staged (i := .wcnt) h4 rfl rfl he rfl rfl fun _ h => h.ilenFits hcap,
    thenExec_staged (i := .pack) h5 rfl rfl he rfl rfl fun _ h => h.ilenFits hcap]
  rfl

/-- Settles O51: as for COMPRESS; the stages differ from the composite in the IPOS a fault restores only. -/
theorem decompressIsStageScript : Obligations.DecompressIsStageScript := by
  intro s t he hcap h
  have hfirst : exec .tdes { s with ipos := 0#32, olen := 0#32 } =
      finish 0#32 (completing bodyTdes { s.clearDone with ipos := 0#32, olen := 0#32 }) :=
    exec_ready (i := .tdes) he rfl (by simpa [lengthsHeld, State.ilenFits, State.iposFits] using hcap)
  have h0 : Staged s (· = 0#32) s.clearDone.status { s.clearDone with ipos := 0#32, olen := 0#32 } :=
    ⟨rfl, rfl, rfl, rfl⟩
  have h1 := h0.tdes
  have h2 := h1.followedBy fun _ h => h.rcnt
  have h3 := h2.followedBy fun _ h => h.derive
  obtain ⟨p1, hrcnt⟩ := thenExec_staged_moved (i := .rcnt) h1 rfl rfl he rfl rfl
    (fun _ h => Bool.and_eq_true_iff.mpr ⟨h.ilenFits hcap, h.iposFits⟩) 0#32
  obtain ⟨p2, hderive⟩ := thenExec_staged_moved (i := .derive) h2 rfl rfl he rfl rfl (fun _ _ => rfl) p1
  obtain ⟨p3, hunpack⟩ := thenExec_staged_moved (i := .unpack) h3 rfl rfl he rfl rfl
    (fun _ h => Bool.and_eq_true_iff.mpr ⟨h.ilenFits hcap, h.iposFits⟩) p2
  rw [hfirst, hrcnt, hderive, hunpack, completing, ← bodyDecompress_eq_stages] at h
  rw [exec_decompress he hcap]
  refine finish_relocate ((bodyOf_ends .decompress s.clearDone).mono (fun _ u hu => ?_) (fun k _ _ hk => ?_)
    (fun _ _ => trivial)) h
  · obtain ⟨-, -, hkept, -⟩ := hu
    exact (hkept (by decide) (by decide)).1.trans he
  · obtain ⟨-, hr, -⟩ := hk
    exact raisable_isExecution hr

end Sys2Proof.Machine
end
